-- ==== Sys2Proof/Word.lean ====
section
/-! DEFINITION. The widths of the block: words, bytes, symbols, the accumulator
(spec/00_scope.md R7, R9). Every value is unsigned (R9, R103(a)). -/

namespace Sys2Proof

/-- XLEN = 32: a register of the window, a command word, the port's data and address (R7, R21, R55). -/
abbrev Word := BitVec 32

/-- A byte of a buffer; CHARW = 8: one character of encoded text is one byte (R7, R90). -/
abbrev Byte := BitVec 8

/-- A symbol: one 5-bit group, a value 0..31 (R12). -/
abbrev Sym := BitVec 5

/-- ACCW = 12: the bit accumulator ACC (R7, R35). -/
abbrev AccWord := BitVec 12

/-- CNTW = 4: the valid-bit count CNT (R7, R35). -/
abbrev CntWord := BitVec 4

/-- `W`, the 40 bits of one chunk of five bytes and of one block of eight symbols (R75). -/
abbrev Word40 := BitVec 40

end Sys2Proof
end

