-- ==== Sys2Proof/Config.lean ====
section
/-! DEFINITION. What an instance of the block fixes (spec/00_scope.md R6, R7) and the values the
spec leaves free (spec/93_implementation_defined.md U1, U2). -/

namespace Sys2Proof

/-- The open parameters of an instance: the capacities of the two buffers in bytes (R7, R41, U4).
They are data, so that a claim can be about every instance; no step changes them. -/
structure Config where
  /-- CAP_I, the capacity of IBUF. -/
  capI : Nat
  /-- CAP_O, the capacity of OBUF. -/
  capO : Nat
  deriving DecidableEq, Repr

/-- R7's reference values, 4096 bytes each: the instance `State.reset` stands for.
DESIGN CHOICE (log entry 1), unsafe for a claim that rests on the number. -/
def Config.reference : Config := { capI := 4096, capO := 4096 }

/-- STRICT_PAD = 1, fixed in this hardware (R6, R137, U8). -/
abbrev Config.strictPad : Bool := true

/-- CASE_FOLD = 1, fixed in this hardware (R6, R92, R150, U9). -/
abbrev Config.caseFold : Bool := true

/-- FREE VALUE (U1, R42, R61): what IBUF holds at an index the host has not written since the last
reset. The first argument is the number of the reset after which it was drawn, the second the
index: the byte is drawn once at reset and stays until the host writes it. Log entry 3. -/
opaque Config.freeIn : Nat → Nat → Byte

/-- FREE VALUE (U2, R57): the byte a host read of OBUF returns where the spec gives the host no
right to it. The first argument is the number of the draw (a new one at every acceptance and
every reset), the second the index. Log entry 4. -/
opaque Config.freeOut : Nat → Nat → Byte

end Sys2Proof
end

