-- ==== Sys2Proof/Syntax.lean ====
section
/-! DEFINITION. The syntax: the four commands (spec/30_encoding.md R72), the raw command word format
CMDW (R70), and the host's notation for port accesses (R80). -/

namespace Sys2Proof

/-- The command set, one constructor per row of spec/opcode_table.json (R72). No command has a
register number or an immediate: each takes its operand from ILEN, and ENC and DEC their input
from IBUF (R70). -/
inductive Instr where
  /-- ENCLEN, the source's `encoded_length(n)` (R101). -/
  | enclen
  /-- DECLEN, the source's `decoded_length_upper_bound(m)` (R102). -/
  | declen
  /-- ENC, the source's `encode(plain)` (R110). -/
  | enc
  /-- DEC, the source's `decode(text)` (R130). -/
  | dec
  deriving DecidableEq, Repr

/-- The one command format CMDW, split into its two fields (R70). -/
structure CmdWord where
  /-- RSV, bits 31:8; must be written as 0. -/
  rsv : BitVec 24
  /-- OPC, bits 7:0, the operation code. -/
  opc : BitVec 8
  deriving DecidableEq, Repr

/-- The eight words of the register window by name (R21); `unassigned` is offset 0x1C. -/
inductive RegName where
  | cmd | status | ilen | olen | id | capi | capo | unassigned
  deriving DecidableEq, Repr

/-- One host operation, one line of the notation of R80, with R55's two accesses that do nothing
(`inRead`, `outWrite`) and arbitrary offsets, so that every access of the port has a term. -/
inductive HostOp where
  /-- `nop`: no access this cycle. -/
  | nop
  /-- A read of the REG space at a byte offset (`rd REG` is `regRead` of the register's offset). -/
  | regRead (off : Word)
  /-- A write of the REG space at a byte offset (`wr`, `cmd` and `cmdw` are cases of it). -/
  | regWrite (off w : Word)
  /-- `in i, v`: write byte `v` to IBUF[i]. -/
  | inWrite (i : Word) (v : Byte)
  /-- A read of the IBUF space, which returns 0 (R56). -/
  | inRead (i : Word)
  /-- `out j`: read OBUF[j]. -/
  | outRead (j : Word)
  /-- A write of the OBUF space, which changes nothing (R57). -/
  | outWrite (j : Word) (v : Byte)
  deriving DecidableEq, Repr

end Sys2Proof
end

