-- ==== Sys2Proof/WellFormed.lean ====
section
/-! DEFINITION. Well-formedness: the raw command word (spec/30_encoding.md R70, R74), instructions,
and the open parameters (spec/00_scope.md R7). -/

namespace Sys2Proof

/-- RSV must be 0 (R70). -/
def CmdWord.rsvZero (c : CmdWord) : Bool := c.rsv == 0#24

/-- OPC is one of the four codes of R72; 0x00 and 0x05 to 0xFF are illegal (R74). -/
def CmdWord.opcKnown (c : CmdWord) : Bool :=
  c.opc == 0x01#8 || c.opc == 0x02#8 || c.opc == 0x03#8 || c.opc == 0x04#8

/-- A command word that selects a command (R72, R74). -/
def CmdWord.wf (c : CmdWord) : Bool := c.rsvZero && c.opcKnown

/-- Every command is well formed: it has no operand field that could be out of range (R70). -/
def Instr.wf : Instr → Bool
  | .enclen => true
  | .declen => true
  | .enc => true
  | .dec => true

/-- R7's range of a capacity, 8 to 2^28 bytes. -/
def Config.capOk (n : Nat) : Bool := decide (8 ≤ n) && decide (n ≤ 2 ^ 28)

/-- Both capacities are in R7's range. -/
def Config.wf (c : Config) : Bool := Config.capOk c.capI && Config.capOk c.capO

end Sys2Proof
end

