-- ==== Sys2Proof/Decode.lean ====
section
/-! DEFINITION. The decoder of command words (spec/30_encoding.md R70, R73, R74), total on all 2^32
words, and the encoder, from R72's table. -/

namespace Sys2Proof

/-- Why a word is illegal (R74); both reasons end in the one error IllegalCommand. -/
inductive DecodeError where
  /-- A non-zero bit in RSV. -/
  | reservedBits
  /-- OPC = 0x00 or 0x05 to 0xFF. -/
  | unknownOpcode
  deriving DecidableEq, Repr

/-- Split a word into the fields of CMDW: OPC = w[7:0], RSV = w[31:8] (R70). -/
def CmdWord.ofWord (w : Word) : CmdWord :=
  { rsv := w.extractLsb' 8 24, opc := w.extractLsb' 0 8 }

/-- The word of a CMDW: `RSV : OPC` (R70). -/
def CmdWord.toWord (c : CmdWord) : Word := c.rsv ++ c.opc

/-- R72's opcode map. -/
def opcodeInstr (opc : BitVec 8) : Option Instr :=
  if opc = 0x01#8 then some .enclen
  else if opc = 0x02#8 then some .declen
  else if opc = 0x03#8 then some .enc
  else if opc = 0x04#8 then some .dec
  else none

/-- R73's decoding of a command word: RSV first, then OPC; total. -/
def decode (w : Word) : Except DecodeError Instr :=
  if (CmdWord.ofWord w).rsv ≠ 0#24 then .error .reservedBits
  else
    match opcodeInstr (CmdWord.ofWord w).opc with
    | some i => .ok i
    | none => .error .unknownOpcode

/-- OPC of each command (R72). -/
def Instr.opc : Instr → BitVec 8
  | .enclen => 0x01#8
  | .declen => 0x02#8
  | .enc => 0x03#8
  | .dec => 0x04#8

/-- The command word of an instruction: RSV = 0 and R72's OPC. -/
def encode (i : Instr) : Word := CmdWord.toWord { rsv := 0#24, opc := i.opc }

/-- The decoder read through spec/opcode_table.json's numbering of bits: a command is exactly one
32-bit word whose bit 0 is its least significant bit, so the word is given to `decode` as it is
(the block moves whole words and has no byte order, R51). -/
def decodeTableWord (nbits w : Nat) : Option Instr :=
  if nbits ≤ 32 then (decode (BitVec.ofNat 32 (w % 2 ^ nbits))).toOption else none

end Sys2Proof
end

