-- ==== Sys2Proof/Machine/State.lean ====
section
/-! DEFINITION. The state of the block (spec/10_state.md), the reasons a step can stop, and the state
right after reset (R42). Everything here is plain data. -/

namespace Sys2Proof.Machine

/-- A buffer: the bytes written since the last reset as (index, byte) pairs, indexes strictly rising.
An unlisted index holds nothing that was written; what it reads as is `Config.freeIn` for IBUF
(log entry 3). IBUF and OBUF are two separate memories (R52). -/
abbrev Memory := List Host.Cell

/-- PH, the sequencer's phase, the block's program counter (R31). Its values 5 to 7 are never taken. -/
inductive Phase where
  /-- 0: no command in progress. -/
  | idle
  /-- 1: a command word was accepted and is decoded by the next micro-step (R73). -/
  | dispatch
  /-- 2: the encoder's run (R117 to R121). -/
  | encRun
  /-- 3: the decoder's validation scan (R142, R143). -/
  | decVal
  /-- 4: the decoder's run (R144 to R146). -/
  | decRun
  deriving DecidableEq, Repr

/-- The decoder's scan flags (R39). -/
structure ScanFlags where
  /-- SEENPAD, 1 bit: a `=` has been seen in the final block. -/
  seenPad : Bool
  /-- PADCNT, 4 bits: the number of `=` seen in the final block; an unbounded natural as R30 allows. -/
  padCnt : Nat
  /-- PADERR, 1 bit: the placement of the padding is violated. -/
  padErr : Bool
  /-- CHRERR, 1 bit: a data character outside the alphabet was seen. -/
  chrErr : Bool
  /-- LASTV, 5 bits: the value of the most recent valid data character. -/
  lastV : Sym
  deriving DecidableEq, Repr

/-- The scan flags after reset and where DEC_VAL is entered: all 0 (R39, R42, R141). -/
def ScanFlags.zero : ScanFlags :=
  { seenPad := false, padCnt := 0, padErr := false, chrErr := false, lastV := 0#5 }

/-- How far the sequencer goes in one step of the model (log entry 2). The spec fixes no number of
cycles for a micro-step (R192, U3) and describes each command at two levels (R11). -/
inductive Pace where
  /-- The sequencer stalls at this clock edge (R192). -/
  | stall
  /-- The sequencer takes its one enabled micro-step at this clock edge (R54, R192). -/
  | micro
  /-- The operation level (R11): a command at its DISPATCH step runs to its completion in this one
  step of the model, which then stands for all the clock edges up to the completion. -/
  | whole
  deriving DecidableEq, Repr

/-- What the outside presents at one step: the port's inputs (R55), and how far the sequencer goes. -/
structure Edge where
  /-- rst, 1 bit: reset, active high (R180). -/
  rst : Bool
  /-- h_sel, 2 bits: 0 none, 1 REG, 2 IBUF, 3 OBUF. -/
  sel : BitVec 2
  /-- h_we, 1 bit: 1 = write. -/
  we : Bool
  /-- h_addr, 32 bits. -/
  addr : Word
  /-- h_wdata, 32 bits. -/
  wdata : Word
  /-- The sequencer's pace at this step; not a signal of the port. -/
  pace : Pace
  deriving DecidableEq, Repr

/-- An edge at which the host presents nothing and the sequencer runs at the operation level: what a
step reads when no edge is listed any more. -/
def Edge.quiet : Edge :=
  { rst := false, sel := 0#2, we := false, addr := 0#32, wdata := 0#32, pace := .whole }

/-- The state of the block: the register window's storage, the sequencer's state of R30, the two
buffers, and after them the model's own fields. -/
structure State where
  /-- STATUS, offset 0x04, 32 bits: BUSY, DONE, ERR, ECODE (R23). -/
  status : Word
  /-- ILEN, offset 0x08, 32 bits: the operand (R24). -/
  ilen : Word
  /-- OLEN, offset 0x0C, 32 bits: the result (R25). -/
  olen : Word
  /-- PH, the phase (R31). -/
  ph : Phase
  /-- CMDR, 32 bits: the command word latched at acceptance (R32). -/
  cmdr : Word
  /-- IP, 32 bits: the next IBUF index to read (R33); a natural as R30 allows. -/
  ip : Nat
  /-- OPTR, 32 bits: the next OBUF index to write (R34); a natural as R30 allows. -/
  optr : Nat
  /-- ACC, 12 bits: the bit accumulator (R35). -/
  acc : AccWord
  /-- CNT, 4 bits: the number of valid bits in ACC (R35). -/
  cnt : CntWord
  /-- SEENPAD, PADCNT, PADERR, CHRERR, LASTV (R39). -/
  scan : ScanFlags
  /-- IBUF, CAP_I bytes (R36): those written by the host since the last reset. -/
  ibuf : Memory
  /-- OBUF, CAP_O bytes (R37): those written by the sequencer since the last reset. -/
  obuf : Memory
  /-- The model's own: CAP_I and CAP_O of this instance (R7, R41); CAPI and CAPO read them (R26). -/
  cfg : Config
  /-- The model's own: what the outside presents at the steps to come, the next first. -/
  edges : List Edge
  /-- The model's own: which draw of IBUF's unwritten bytes holds, advanced by every reset (U1). -/
  resets : Nat
  /-- The model's own: which draw of OBUF's unspecified read values holds, advanced by every
  acceptance and every reset (U2). -/
  draws : Nat
  /-- The model's own: OBUF[0..OLEN) is the result of the last command, so the host may read it
  (R57, U2). -/
  outValid : Bool
  deriving DecidableEq, Repr

/-- Why a step stops with a fault. The spec has no access the sequencer makes outside a buffer
(R33, R34) and no symbol DEC_RUN cannot map (R145), so each of these is raised only in states that
no run reaches; the statements say so. -/
inductive Fault where
  /-- Raised by the sequencer's read of IBUF at an index at or above CAP_I, an address that does not
  exist. Safe: nothing can be proved of a run past it. -/
  | ibufRange
  /-- Raised by the sequencer's write of OBUF at an index at or above CAP_O, an address that does
  not exist. Safe. -/
  | obufRange
  /-- Raised by DEC_RUN's absorb step where the character has no value, which the scan excludes
  (R145). Safe. -/
  | unmappedSymbol
  deriving DecidableEq, Repr

/-- Why a step is refused. No step of this model is: every command has its meaning and every other
word ends in IllegalCommand (R73). -/
inductive Refusal where
  /-- An instruction whose meaning is not written yet, by its mnemonic. Raised by no arm of `exec`.
  Safe. -/
  | notModelled (mnemonic : String)
  deriving DecidableEq, Repr

/-- The state right after reset of an instance with the given capacities (R42). -/
def State.resetWith (cfg : Config) : State :=
  { status := 0#32, ilen := 0#32, olen := 0#32, ph := .idle, cmdr := 0#32, ip := 0, optr := 0,
    acc := 0#12, cnt := 0#4, scan := ScanFlags.zero, ibuf := [], obuf := [], cfg := cfg,
    edges := [], resets := 0, draws := 0, outValid := false }

/-- The machine right after reset (R42), at R7's reference capacities, with no input presented. -/
def State.reset : State := State.resetWith Config.reference

end Sys2Proof.Machine
end

