-- ==== Sys2Proof/Machine/Alphabet.lean ====
section
/-! DEFINITION. The Alphabet Table (spec/40_alphabet.md), both directions, and the classes of character
codes (spec/30_encoding.md R79). The ROM is a constant of the design, not state (R38, R41). -/

namespace Sys2Proof.Machine

/-- The pad character `=`, code 0x3D (R90). -/
def padChar : Byte := 0x3D#8

/-- The alphabet ROM: entry `v` is the code of the character at position `v` of
`ABCDEFGHIJKLMNOPQRSTUVWXYZ234567` (R38, R91). -/
def alphabetRom : List Byte :=
  [0x41, 0x42, 0x43, 0x44, 0x45, 0x46, 0x47, 0x48, 0x49, 0x4A, 0x4B, 0x4C, 0x4D, 0x4E, 0x4F, 0x50,
   0x51, 0x52, 0x53, 0x54, 0x55, 0x56, 0x57, 0x58, 0x59, 0x5A, 0x32, 0x33, 0x34, 0x35, 0x36, 0x37]

/-- `value_to_char(v) = ROM[v]` (R91); the ROM has an entry for each of the 32 values. -/
def valueToChar (v : Sym) : Byte := alphabetRom.getD v.toNat 0#8

/-- `char_to_value(c)`, `none` for the verdict invalid (R92); the three ranges in R92's order. -/
def charToValue (c : Byte) : Option Sym :=
  if 0x41 ≤ c.toNat ∧ c.toNat ≤ 0x5A then some (BitVec.ofNat 5 (c.toNat - 0x41))
  else if Config.caseFold = true ∧ 0x61 ≤ c.toNat ∧ c.toNat ≤ 0x7A then
    some (BitVec.ofNat 5 (c.toNat - 0x61))
  else if 0x32 ≤ c.toNat ∧ c.toNat ≤ 0x37 then some (BitVec.ofNat 5 (c.toNat - 0x32 + 26))
  else none

/-- The class of a character code (R79). -/
inductive CharClass where
  | digit | upper | lower | pad | invalid
  deriving DecidableEq, Repr

/-- R79's table, row by row. -/
def classOf (c : Byte) : CharClass :=
  if c.toNat ≤ 0x31 then .invalid
  else if c.toNat ≤ 0x37 then .digit
  else if c.toNat ≤ 0x3C then .invalid
  else if c.toNat = 0x3D then .pad
  else if c.toNat ≤ 0x40 then .invalid
  else if c.toNat ≤ 0x5A then .upper
  else if c.toNat ≤ 0x60 then .invalid
  else if c.toNat ≤ 0x7A then .lower
  else .invalid

end Sys2Proof.Machine
end

