-- ==== Sys2Proof/Machine/Flags.lean ====
section
/-! DEFINITION. The flags: the fields of STATUS (spec/10_state.md R23), the error codes
(spec/60_exceptions.md R160), the scan flags (spec/43_decoder.md R142) and the padding tables
(spec/30_encoding.md R76 to R78). -/

namespace Sys2Proof.Machine

/-- The five errors (R160). -/
inductive Err where
  /-- InvalidLength (R162). -/
  | invalidLength
  /-- InvalidCharacter (R163). -/
  | invalidCharacter
  /-- InvalidPadding (R164). -/
  | invalidPadding
  /-- IllegalCommand (R165). -/
  | illegalCommand
  /-- CapacityExceeded (R165). -/
  | capacityExceeded
  deriving DecidableEq, Repr

/-- `code(E)`, the ECODE of an error (R160). -/
def Err.code : Err → BitVec 4
  | .invalidLength => 0x1#4
  | .invalidCharacter => 0x2#4
  | .invalidPadding => 0x3#4
  | .illegalCommand => 0x8#4
  | .capacityExceeded => 0x9#4

/-- STATUS from its fields: BUSY bit 0, DONE bit 1, ERR bit 2, ECODE bits 7:4; bits 3 and 31:8 are
reserved and 0 (R23). -/
def statusWord (busy done err : Bool) (ecode : BitVec 4) : Word :=
  0#24 ++ ecode ++ 0#1 ++ BitVec.ofBool err ++ BitVec.ofBool done ++ BitVec.ofBool busy

/-- STATUS from acceptance to completion: BUSY alone (R71). -/
def statusBusy : Word := statusWord true false false 0#4

/-- STATUS after a normal completion (R167). -/
def statusDone : Word := statusWord false true false 0#4

/-- STATUS after an error completion (R168). -/
def statusError (e : Err) : Word := statusWord false true true e.code

/-- `x[STATUS].BUSY` (R23). -/
def State.busy (s : State) : Bool := s.status.getLsbD 0

/-- `x[STATUS].DONE` (R23). -/
def State.done (s : State) : Bool := s.status.getLsbD 1

/-- `x[STATUS].ERR` (R23). -/
def State.err (s : State) : Bool := s.status.getLsbD 2

/-- `x[STATUS].ECODE` (R23). -/
def State.ecode (s : State) : BitVec 4 := s.status.extractLsb' 4 4

/-- `u(p)`: the unused low bits of the last data symbol of a text with `p` pad characters
(R77, R137). -/
def unusedBits : Nat → Nat
  | 1 => 3
  | 3 => 1
  | 4 => 4
  | 6 => 2
  | _ => 0

/-- `d(p)`: by how many bytes `p` pad characters shorten the decoded text (R78). -/
def padLoss : Nat → Nat
  | 1 => 1
  | 3 => 2
  | 4 => 3
  | 6 => 4
  | _ => 0

/-- The valid padding counts {0,1,3,4,6} (R77, R133). -/
def padCountOk (p : Nat) : Bool := p == 0 || p == 1 || p == 3 || p == 4 || p == 6

/-- `(v & (2^u(p) - 1)) != 0`: the last data symbol has a non-zero unused bit, which STRICT_PAD
rejects (R137). -/
def strictViolation (v : Sym) (p : Nat) : Bool :=
  Config.strictPad && ((v &&& BitVec.ofNat 5 (2 ^ unusedBits p - 1)) != 0#5)

end Sys2Proof.Machine
end

