-- ==== Sys2Proof/Machine/Ops.lean ====
section
/-! DEFINITION. The named operations over the buffers and the registers: reading and writing a buffer
byte (spec/20_memory.md R53, R60), acceptance (spec/30_encoding.md R71), the two completions
(spec/60_exceptions.md R167, R168) and reset (spec/70_reset_and_hazards.md R180). -/

namespace Sys2Proof.Machine

/-! ## The buffers -/

/-- The byte written at an index, `none` where nothing was written since reset. -/
def Memory.lookup : Memory → Nat → Option Byte
  | [], _ => none
  | (a, v) :: rest, i =>
    if i = a then some v else if i < a then none else Memory.lookup rest i

/-- Store a byte, keeping the indexes strictly rising. -/
def Memory.store : Memory → Nat → Byte → Memory
  | [], i, v => [(i, v)]
  | (a, w) :: rest, i, v =>
    if i < a then (i, v) :: (a, w) :: rest
    else if i = a then (i, v) :: rest
    else (a, w) :: Memory.store rest i v

/-- Store the bytes of a list at ascending indexes from `i` on. -/
def Memory.storeList (m : Memory) (i : Nat) : List Byte → Memory
  | [] => m
  | v :: rest => Memory.storeList (Memory.store m i v) (i + 1) rest

/-- Every index of the rest lies above `a`, and so on: strictly rising indexes after `a`. -/
def Memory.risingFrom (a : Nat) : Memory → Bool
  | [] => true
  | (b, _) :: rest => decide (a < b) && Memory.risingFrom b rest

/-- The canonical form: indexes strictly rising, so no index twice (log entry 3 says why no entry is
compared with what an unlisted index reads as). -/
def Memory.wf : Memory → Bool
  | [] => true
  | (a, _) :: rest => Memory.risingFrom a rest

/-- The byte at index `i` of IBUF: what the host last wrote, and for an index never written since
reset the free byte drawn at that reset (R36, R61, U1). -/
def State.ibufByte (s : State) (i : Nat) : Byte :=
  match Memory.lookup s.ibuf i with
  | some v => v
  | none => Config.freeIn s.resets i

/-- The byte at index `j` of OBUF, for the model's own account of what the buffer holds: what the
sequencer last wrote there since reset, if anything (R37, R66). -/
def State.obufCell (s : State) (j : Nat) : Option Byte := Memory.lookup s.obuf j

/-- IBUF[0..n), the input of ENC and DEC (R110, R130). -/
def State.ibufBytes (s : State) (n : Nat) : List Byte := (List.range n).map s.ibufByte

/-- MemWrite of the bytes of a list to OBUF[0], OBUF[1], …, in ascending order (R37, R110, R130). -/
def State.writeOut (s : State) (out : List Byte) : State :=
  { s with obuf := Memory.storeList s.obuf 0 out }

/-- `MemRead(IBUF:x[IP], 1)` followed by `x[IP] <- x[IP] + 1`, handing the byte on (R60). -/
def State.readIn (s : State) (k : Byte → State → Host.Outcome State Fault Refusal) :
    Host.Outcome State Fault Refusal :=
  if s.ip < s.cfg.capI then k (s.ibufByte s.ip) { s with ip := s.ip + 1 } else .fault .ibufRange

/-- `MemWrite(OBUF:x[OPTR], 1, v)` followed by `x[OPTR] <- x[OPTR] + 1` (R60). -/
def State.putOut (s : State) (v : Byte) : Host.Outcome State Fault Refusal :=
  if s.optr < s.cfg.capO then
    .next { s with obuf := Memory.store s.obuf s.optr v, optr := s.optr + 1 }
  else .fault .obufRange

/-! ## Acceptance, completion, reset -/

/-- Acceptance of a command word (R71). The model's own: a new draw of OBUF's unspecified read values,
and OBUF no longer holds a result the host may read. -/
def State.accept (s : State) (w : Word) : State :=
  { s with cmdr := w, status := statusBusy, olen := 0#32, ph := .dispatch,
           draws := s.draws + 1, outValid := false }

/-- Normal completion, `complete(len)` (R167). -/
def State.complete (s : State) (len : Nat) : State :=
  { s with olen := BitVec.ofNat 32 len, status := statusDone, acc := 0#12, cnt := 0#4,
           ph := .idle }

/-- Normal completion of ENC or DEC: `complete(len)`, and OBUF[0..len) is now a result the host may
read (R57, R64). -/
def State.completeOut (s : State) (len : Nat) : State :=
  { s.complete len with outValid := true }

/-- Error completion, `raise E()`: the block's one way of taking an exception (R168). STATUS takes the
error, OLEN stays as acceptance left it, and nothing is saved anywhere else. The return from it is
the acceptance of the next command (R169). -/
def State.raise (s : State) (e : Err) : State :=
  { s with status := statusError e, acc := 0#12, cnt := 0#4, ph := .idle }

/-- Reset at a clock edge (R180, R181): every element takes its value of R42. The parameters and the
inputs still to come are no state of the block and stay; the buffers hold nothing written, and new
draws of their unspecified bytes are made (U1, U2). -/
def State.resetEdge (s : State) : State :=
  { State.resetWith s.cfg with
      edges := s.edges, resets := s.resets + 1, draws := s.draws + 1 }

/-! ## The index registers and the accumulator -/

/-- `x[IP] <- 0 ; x[OPTR] <- 0 ; x[ACC] <- 0 ; x[CNT] <- 0` and the phase of a run (R116, R143). -/
def State.enterRun (s : State) (ph : Phase) : State :=
  { s with ip := 0, optr := 0, acc := 0#12, cnt := 0#4, ph := ph }

/-- Shift `k` bits in below the pending bits: `x[ACC] <- ((x[ACC] << k) | v) mod 2^12`,
`x[CNT] <- x[CNT] + k` (R118, R145). -/
def State.shiftIn (s : State) (k : Nat) (v : AccWord) : State :=
  { s with acc := (s.acc <<< k) ||| v, cnt := s.cnt + BitVec.ofNat 4 k }

/-- The top `k` of the CNT valid bits: `x[ACC][c-1 : c-k]` (R117, R144). -/
def State.topBits (s : State) (k : Nat) : BitVec k := s.acc.extractLsb' (s.cnt.toNat - k) k

/-- Drop the top `k` valid bits: `x[CNT] <- c - k`, `x[ACC] <- x[ACC] mod 2^(c-k)` (R117, R144). -/
def State.dropBits (s : State) (k : Nat) : State :=
  { s with acc := BitVec.ofNat 12 (s.acc.toNat % 2 ^ (s.cnt.toNat - k)),
           cnt := BitVec.ofNat 4 (s.cnt.toNat - k) }

end Sys2Proof.Machine
end

