-- ==== Sys2Proof/Machine/Operands.lean ====
section
/-! DEFINITION. What a command reads and the bit fields it is cut into: the length operand ILEN
(spec/30_encoding.md R70), the length formulas (spec/41_size_commands.md R101, R102), and the 40-bit
chunk and block (spec/30_encoding.md R75 to R77). -/

namespace Sys2Proof.Machine

/-- The one operand of every command, `x[ILEN]` as a natural number, with no extension, scaling or
shift (R70). -/
abbrev State.lenOperand (s : State) : Nat := s.ilen.toNat

/-- `encoded_length(n) = ceil(n/5)*8`, on naturals (R78, R101). -/
def encodedLength (n : Nat) : Nat := (n + 4) / 5 * 8

/-- `decoded_length_upper_bound(m) = floor(m/8)*5` (R102). -/
def decodedBound (m : Nat) : Nat := m / 8 * 5

/-- The interface check of ENC fails: CapacityExceeded (R111). -/
def State.encTooBig (s : State) : Bool :=
  decide (s.cfg.capI < s.lenOperand) || decide (s.cfg.capO < encodedLength s.lenOperand)

/-- The interface check of DEC fails: CapacityExceeded (R131). -/
def State.decTooBig (s : State) : Bool :=
  decide (s.cfg.capI < s.lenOperand) || decide (s.cfg.capO < decodedBound s.lenOperand)

/-- `W = B0 : B1 : B2 : B3 : B4` of a chunk, B0 highest; the bytes a partial chunk lacks are zero
(R75, R76). -/
def chunkWord (c : List Byte) : Word40 :=
  c.getD 0 0#8 ++ c.getD 1 0#8 ++ c.getD 2 0#8 ++ c.getD 3 0#8 ++ c.getD 4 0#8

/-- `Sj = W[39-5j : 35-5j]` (R75). -/
def symbolAt (w : Word40) (j : Nat) : Sym := w.extractLsb' (35 - 5 * j) 5

/-- `W[39-8i : 32-8i]`, byte `i` of a block (R138). -/
def byteAt (w : Word40) (i : Nat) : Byte := w.extractLsb' (32 - 8 * i) 8

/-- `k(r) = ceil(8r/5)`: the data characters of a chunk of `r` bytes (R76, R113). -/
def dataChars (r : Nat) : Nat := (8 * r + 4) / 5

/-- `nb = floor(5k/8)`: the bytes of a block with `k` data characters (R77, R138). -/
def blockBytes (k : Nat) : Nat := 5 * k / 8

/-- The value of a data character that the checks have passed (R138). -/
def symOf (c : Byte) : Sym := (charToValue c).getD 0#5

/-- The 40 bits of a block from its data characters: `W <- (W << 5) | char_to_value(t)` for each, and
then the missing symbols as zero (R138). -/
def blockWord (data : List Byte) : Word40 :=
  let w : Word40 := data.foldl (fun (w : Word40) c => (w <<< 5) ||| (symOf c).setWidth 40) 0#40
  w <<< (5 * (8 - data.length))

end Sys2Proof.Machine
end

