-- ==== Sys2Proof/Machine/Decoder.lean ====
section
/-! DEFINITION. The decoder command DEC (spec/43_decoder.md): the operation level (R130 to R139), which
is the contract, and the micro-steps (R141 to R147). -/

namespace Sys2Proof.Machine

/-! ## The operation level -/

/-- `padcount(t)`: the length of the longest run of `=` that ends the text (R132). -/
def padCount (t : List Byte) : Nat := (t.reverse.takeWhile (· == padChar)).length

/-- The data positions `t[0..m-p)` (R132). -/
def dataPart (t : List Byte) : List Byte := t.take (t.length - padCount t)

/-- Check 2 fails: a padding count outside {0,1,3,4,6} or a `=` in a data position (R133). -/
def paddingBad (t : List Byte) : Bool :=
  !padCountOk (padCount t) || (dataPart t).any (· == padChar)

/-- Check 3 fails: a data position holds a character outside the alphabet (R135). -/
def characterBad (t : List Byte) : Bool := (dataPart t).any fun c => (charToValue c).isNone

/-- The strict check fails: a non-zero unused bit in the last data character (R137). -/
def strictBad (t : List Byte) : Bool :=
  match (dataPart t).getLast? with
  | some c => strictViolation (symOf c) (padCount t)
  | none => false

/-- The bytes of one block from its data characters (R138). -/
def decodeBlock (data : List Byte) : List Byte :=
  (List.range (blockBytes data.length)).map (byteAt (blockWord data))

/-- `decode_bits` over the data characters of a text: blocks of eight, the last one of as many as
there are (R138). -/
def decodeBits : List Byte → List Byte
  | c0 :: c1 :: c2 :: c3 :: c4 :: c5 :: c6 :: c7 :: rest =>
    decodeBlock [c0, c1, c2, c3, c4, c5, c6, c7] ++ decodeBits rest
  | [] => []
  | c => decodeBlock c

/-- `decode` (R130): the checks in R136's order, then the bytes. -/
def base32Decode (t : List Byte) : Except Err (List Byte) :=
  if t.length % 8 ≠ 0 then .error .invalidLength
  else if paddingBad t then .error .invalidPadding
  else if characterBad t then .error .invalidCharacter
  else if strictBad t then .error .invalidPadding
  else .ok (decodeBits (dataPart t))

/-- The scan flags after one more character `c` at index `i` of a text of `m` characters (R142). -/
def scanChar (m i : Nat) (c : Byte) (f : ScanFlags) : ScanFlags :=
  if c = padChar then
    if i + 8 < m then { f with padErr := true }
    else { f with seenPad := true, padCnt := f.padCnt + 1 }
  else if f.seenPad then { f with padErr := true }
  else
    match charToValue c with
    | none => { f with chrErr := true }
    | some v => { f with lastV := v }

/-- The scan flags after the characters of a list that begins at index `i` (R142). -/
def scanText (m : Nat) : Nat → List Byte → ScanFlags → ScanFlags
  | _, [], f => f
  | i, c :: rest, f => scanText m (i + 1) rest (scanChar m i c f)

/-- DEC from its DISPATCH step to its completion (R130). IP, OPTR, ACC, CNT and the scan flags are
left as the micro-steps leave them (R141 to R146, U6). -/
def execDec (s : State) : Host.Outcome State Fault Refusal :=
  if s.decTooBig then .next (s.raise .capacityExceeded)
  else if s.lenOperand % 8 ≠ 0 then .next (s.raise .invalidLength)
  else
    let m := s.lenOperand
    let t := s.ibufBytes m
    let scanned := { s with ip := m, scan := scanText m 0 t ScanFlags.zero }
    match base32Decode t with
    | .error e => .next (scanned.raise e)
    | .ok out =>
      .next ({ scanned.writeOut out with ip := m - padCount t, optr := out.length }.completeOut
        out.length)

/-! ## The micro-steps -/

/-- DEC in the DISPATCH step (R141). -/
def decDispatch (s : State) : Host.Outcome State Fault Refusal :=
  if s.decTooBig then .next (s.raise .capacityExceeded)
  else if s.lenOperand % 8 ≠ 0 then .next (s.raise .invalidLength)
  else .next { s with ip := 0, scan := ScanFlags.zero, ph := .decVal }

/-- Step scan, the character validator (R142). -/
def decScan (s : State) : Host.Outcome State Fault Refusal :=
  s.readIn fun c s' => .next { s' with scan := scanChar s.lenOperand s.ip c s.scan }

/-- Step verdict (R143). -/
def decVerdict (s : State) : Host.Outcome State Fault Refusal :=
  if s.scan.padErr = true ∨ padCountOk s.scan.padCnt = false then .next (s.raise .invalidPadding)
  else if s.scan.chrErr then .next (s.raise .invalidCharacter)
  else if 0 < s.lenOperand ∧ strictViolation s.scan.lastV s.scan.padCnt = true then
    .next (s.raise .invalidPadding)
  else .next (s.enterRun .decRun)

/-- Step emit byte, the bit-accumulator reconstruction (R144). -/
def decEmit (s : State) : Host.Outcome State Fault Refusal :=
  (s.dropBits 8).putOut (s.topBits 8)

/-- Step absorb symbol, the symbol unmapper (R145). -/
def decAbsorb (s : State) : Host.Outcome State Fault Refusal :=
  s.readIn fun c s' =>
    match charToValue c with
    | some v => .next (s'.shiftIn 5 (v.setWidth 12))
    | none => .fault .unmappedSymbol

/-- Step finish: the leftover bits are dropped (R146). -/
def decFinish (s : State) : Host.Outcome State Fault Refusal := .next (s.completeOut s.optr)

/-- The one enabled step in phase DEC_VAL (R147). -/
def decValStep (s : State) : Host.Outcome State Fault Refusal :=
  if s.ip < s.lenOperand then decScan s else decVerdict s

/-- The one enabled step in phase DEC_RUN, in R147's order. -/
def decRunStep (s : State) : Host.Outcome State Fault Refusal :=
  if 8 ≤ s.cnt.toNat then decEmit s
  else if s.ip < s.lenOperand - s.scan.padCnt then decAbsorb s
  else decFinish s

end Sys2Proof.Machine
end

