-- ==== Sys2Proof/Machine/Encoder.lean ====
section
/-! DEFINITION. The encoder command ENC (spec/42_encoder.md): the operation level (R110 to R115), which
is the contract, and the micro-steps (R116 to R122). -/

namespace Sys2Proof.Machine

/-! ## The operation level -/

/-- One block from a chunk of 1 to 5 bytes: `k(r)` data characters, then pad characters up to 8
(R75, R76, R113). -/
def encodeBlock (c : List Byte) : List Byte :=
  (List.range (dataChars c.length)).map (fun j => valueToChar (symbolAt (chunkWord c) j)) ++
    List.replicate (8 - dataChars c.length) padChar

/-- `encode` (R113): chunk by chunk; total, with no mode and no state (R114). -/
def base32Encode : List Byte → List Byte
  | b0 :: b1 :: b2 :: b3 :: b4 :: rest => encodeBlock [b0, b1, b2, b3, b4] ++ base32Encode rest
  | [] => []
  | c => encodeBlock c

/-- ENC from its DISPATCH step to its completion (R110). IP, OPTR, ACC and CNT are left as the
micro-steps leave them (R116 to R121, U6). -/
def execEnc (s : State) : Host.Outcome State Fault Refusal :=
  if s.encTooBig then .next (s.raise .capacityExceeded)
  else
    let t := base32Encode (s.ibufBytes s.lenOperand)
    .next ({ s.writeOut t with ip := s.lenOperand, optr := t.length }.completeOut t.length)

/-! ## The micro-steps -/

/-- ENC in the DISPATCH step (R116). -/
def encDispatch (s : State) : Host.Outcome State Fault Refusal :=
  if s.encTooBig then .next (s.raise .capacityExceeded) else .next (s.enterRun .encRun)

/-- Step emit, the 5-bit-symbol mapper (R117). -/
def encEmit (s : State) : Host.Outcome State Fault Refusal :=
  (s.dropBits 5).putOut (valueToChar (s.topBits 5))

/-- Step absorb (R118). -/
def encAbsorb (s : State) : Host.Outcome State Fault Refusal :=
  s.readIn fun b s' => .next (s'.shiftIn 8 (b.setWidth 12))

/-- Step flush: `v <- (x[ACC] << (5 - c)) mod 2^5`, the last, zero-filled symbol (R119). -/
def encFlush (s : State) : Host.Outcome State Fault Refusal :=
  { s with acc := 0#12, cnt := 0#4 }.putOut
    (valueToChar ((s.acc <<< (5 - s.cnt.toNat)).setWidth 5))

/-- Step pad, the padding logic (R120). -/
def encPad (s : State) : Host.Outcome State Fault Refusal := s.putOut padChar

/-- Step finish (R121). -/
def encFinish (s : State) : Host.Outcome State Fault Refusal := .next (s.completeOut s.optr)

/-- The one enabled step in phase ENC_RUN, in R122's order. -/
def encRunStep (s : State) : Host.Outcome State Fault Refusal :=
  if 5 ≤ s.cnt.toNat then encEmit s
  else if s.ip < s.lenOperand then encAbsorb s
  else if 0 < s.cnt.toNat then encFlush s
  else if s.optr % 8 ≠ 0 then encPad s
  else encFinish s

end Sys2Proof.Machine
end

