-- ==== Sys2Proof/Machine/Size.lean ====
section
/-! DEFINITION. The size commands ENCLEN and DECLEN (spec/41_size_commands.md R101, R102). Each executes
wholly in its DISPATCH step and touches neither buffer (R100, R104). -/

namespace Sys2Proof.Machine

/-- The largest `n` with `ceil(n/5)*8 <= 2^32 - 1` (R101). -/
def enclenMax : Nat := 0x9FFFFFFB

/-- ENCLEN (R101). -/
def execEnclen (s : State) : Host.Outcome State Fault Refusal :=
  if enclenMax < s.lenOperand then .next (s.raise .invalidLength)
  else .next (s.complete (encodedLength s.lenOperand))

/-- DECLEN (R102). -/
def execDeclen (s : State) : Host.Outcome State Fault Refusal :=
  if s.lenOperand % 8 ≠ 0 then .next (s.raise .invalidLength)
  else .next (s.complete (decodedBound s.lenOperand))

end Sys2Proof.Machine
end

