-- ==== Sys2Proof/Machine/Port.lean ====
section
/-! DEFINITION. The host port (spec/20_memory.md R52 to R59): the register window
(spec/10_state.md R21 to R28), the two buffers as the host sees them, and the host's notation
(spec/30_encoding.md R80). -/

namespace Sys2Proof.Machine

/-- ID: block identifier 0xB32C, version 1, bits 7:2 zero, CASE_FOLD, STRICT_PAD (R27). -/
def idWord : Word :=
  0xB32C#16 ++ 0x01#8 ++ 0#6 ++ BitVec.ofBool Config.caseFold ++ BitVec.ofBool Config.strictPad

/-- A host read of the REG space at a byte offset (R21 to R28): CMD reads 0, an unassigned or
misaligned offset reads 0 (R58). -/
def State.regRead (s : State) (off : Word) : Word :=
  if off = 0x04#32 then s.status
  else if off = 0x08#32 then s.ilen
  else if off = 0x0C#32 then s.olen
  else if off = 0x10#32 then idWord
  else if off = 0x14#32 then BitVec.ofNat 32 s.cfg.capI
  else if off = 0x18#32 then BitVec.ofNat 32 s.cfg.capO
  else 0#32

/-- The byte a host read of OBUF gets while BUSY = 0 at `j < CAP_O` (R57): the result of the last
command at `j < OLEN` after a normal completion of ENC or DEC, and else a free value (U2). -/
def State.obufHostByte (s : State) (j : Nat) : Byte :=
  if s.outValid = true ∧ j < s.olen.toNat then (s.obufCell j).getD (Config.freeOut s.draws j)
  else Config.freeOut s.draws j

/-- A host read of the OBUF space (R57). -/
def State.outRead (s : State) (j : Word) : Word :=
  if s.busy = false ∧ j.toNat < s.cfg.capO then (s.obufHostByte j.toNat).setWidth 32 else 0#32

/-- `h_rdata`, a combinational function of the port's inputs and the current state (R55); a read
changes no state (R59). -/
def State.readPort (s : State) (e : Edge) : Word :=
  if e.we then 0#32
  else if e.sel = 1#2 then s.regRead e.addr
  else if e.sel = 3#2 then s.outRead e.addr
  else 0#32

/-- A host write of the REG space (R22, R24): CMD and ILEN take it while BUSY = 0; every other
offset ignores it (R23, R25 to R28, R58). -/
def State.regWrite (s : State) (off w : Word) : State :=
  if s.busy then s
  else if off = 0x00#32 then s.accept w
  else if off = 0x08#32 then { s with ilen := w }
  else s

/-- A host write of the IBUF space (R56). -/
def State.inWrite (s : State) (i : Word) (v : Byte) : State :=
  if s.busy = false ∧ i.toNat < s.cfg.capI then { s with ibuf := Memory.store s.ibuf i.toNat v }
  else s

/-- What the host's access does to the state at the edge (R55 to R59): only a write to the REG or the
IBUF space can change anything; a buffer write uses bits 7:0 of the data. -/
def State.writePort (s : State) (e : Edge) : State :=
  if e.we = false then s
  else if e.sel = 1#2 then s.regWrite e.addr e.wdata
  else if e.sel = 2#2 then s.inWrite e.addr (e.wdata.setWidth 8)
  else s

/-! ## The host's notation (R80) -/

/-- The offset of a register of the window (R21). -/
def regOffset : RegName → Word
  | .cmd => 0x00#32
  | .status => 0x04#32
  | .ilen => 0x08#32
  | .olen => 0x0C#32
  | .id => 0x10#32
  | .capi => 0x14#32
  | .capo => 0x18#32
  | .unassigned => 0x1C#32

/-- The port transaction of a host operation, `(h_sel, h_we, h_addr, h_wdata)` (R55, R80), at a
pace of the sequencer. -/
def hostEdge (op : HostOp) (pace : Pace) : Edge :=
  match op with
  | .nop => { Edge.quiet with pace := pace }
  | .regRead off => { Edge.quiet with sel := 1#2, addr := off, pace := pace }
  | .regWrite off w =>
    { Edge.quiet with sel := 1#2, we := true, addr := off, wdata := w, pace := pace }
  | .inWrite i v =>
    { Edge.quiet with sel := 2#2, we := true, addr := i, wdata := v.setWidth 32, pace := pace }
  | .inRead i => { Edge.quiet with sel := 2#2, addr := i, pace := pace }
  | .outRead j => { Edge.quiet with sel := 3#2, addr := j, pace := pace }
  | .outWrite j v =>
    { Edge.quiet with sel := 3#2, we := true, addr := j, wdata := v.setWidth 32, pace := pace }

/-- `wr ILEN, v`. -/
def opWrIlen (v : Word) : HostOp := .regWrite (regOffset .ilen) v

/-- `cmd MNEMONIC`. -/
def opCmd (i : Instr) : HostOp := .regWrite (regOffset .cmd) (encode i)

/-- `cmdw w`. -/
def opCmdw (w : Word) : HostOp := .regWrite (regOffset .cmd) w

/-- `rd REG`. -/
def opRd (r : RegName) : HostOp := .regRead (regOffset r)

/-- `load [b0, b1, …]`: one `in` per byte, from index 0 on. -/
def opLoad (bs : List Byte) : List HostOp :=
  bs.mapIdx fun i v => .inWrite (BitVec.ofNat 32 i) v

/-- `fetch k`: `out 0 ; … ; out k-1`. -/
def opFetch (k : Nat) : List HostOp := (List.range k).map fun j => .outRead (BitVec.ofNat 32 j)

/-- `wait` with a given number of polls of STATUS: `repeat rd STATUS` until DONE, whose number of
polls the timing decides (R192). -/
def opWait (polls : Nat) : List HostOp := List.replicate polls (opRd .status)

/-- `call MNEMONIC, n`: `wr ILEN, n ; cmd MNEMONIC ; wait`. -/
def opCall (i : Instr) (n : Word) (polls : Nat) : List HostOp :=
  [opWrIlen n, opCmd i] ++ opWait polls

end Sys2Proof.Machine
end

