-- ==== Sys2Proof/Machine/Sequencer.lean ====
section
/-! DEFINITION. The sequencer (spec/10_state.md R31, spec/30_encoding.md R73) at both levels of R11, and
one clock edge of the block (spec/20_memory.md R54, spec/70_reset_and_hazards.md R180, R192). -/

namespace Sys2Proof.Machine

/-- The DISPATCH step of a command at the micro-step level: the size commands complete in it, ENC and
DEC enter a run phase (R31, R73). -/
def microDispatch (i : Instr) (s : State) : Host.Outcome State Fault Refusal :=
  match i with
  | .enclen => execEnclen s
  | .declen => execDeclen s
  | .enc => encDispatch s
  | .dec => decDispatch s

/-- The DISPATCH step (R73): CMDR is decoded, and a word that selects no command ends in
IllegalCommand (R74). `run` is what a command does in the step. -/
def dispatchWith (run : Instr → State → Host.Outcome State Fault Refusal) (s : State) :
    Host.Outcome State Fault Refusal :=
  match decode s.cmdr with
  | .ok i => run i s
  | .error _ => .next (s.raise .illegalCommand)

/-- The one enabled micro-step in every phase (R31, R73, R122, R147); in IDLE there is none
(R20). -/
def microStep (s : State) : Host.Outcome State Fault Refusal :=
  match s.ph with
  | .idle => .next s
  | .dispatch => dispatchWith microDispatch s
  | .encRun => encRunStep s
  | .decVal => decValStep s
  | .decRun => decRunStep s

/-- What the sequencer does at one step, at the given pace (R11, R192): at the operation level a
command at its DISPATCH step runs to its completion; past DISPATCH every pace but a stall is one
micro-step. -/
def sequencer (pace : Pace) (s : State) : Host.Outcome State Fault Refusal :=
  match pace, s.ph with
  | .stall, _ => .next s
  | .whole, .dispatch => dispatchWith exec s
  | _, _ => microStep s

/-- What is presented at the next step: the first listed edge, or a quiet one. -/
def State.edge (s : State) : Edge := s.edges.headD Edge.quiet

/-- The same state with that edge consumed. -/
def State.popEdge (s : State) : State := { s with edges := s.edges.tail }

/-- `h_rdata` at the next step (R55): the access is presented and judged against the state before the
edge, also where `rst = 1` (R180). -/
def State.hRdata (s : State) : Word := s.readPort s.edge

/-- One clock edge (R54): reset first (R181); else the host's access, which takes effect only while
BUSY = 0, and the sequencer's step, which is taken only while PH is not IDLE, both judged against
the state before the edge. -/
def clockEdge (e : Edge) (s : State) : Host.Outcome State Fault Refusal :=
  if e.rst then .next s.resetEdge
  else if s.ph = .idle then .next (s.writePort e)
  else sequencer e.pace (s.writePort e)

end Sys2Proof.Machine
end

