-- ==== Sys2Proof/Machine/Step.lean ====
section
/-! DEFINITION. The step of the machine, and where it fetches its next command. -/

namespace Sys2Proof.Machine

/-- One step: the next edge is consumed and applied (R54). -/
def step (s : State) : Host.Outcome State Fault Refusal := clockEdge s.edge s.popEdge

/-- `s` with a command word where `step` fetches its next command: the word is in CMDR as its
acceptance leaves it (R71), the sequencer is at DISPATCH, and nothing is presented at the edges to
come, so the very next step decodes CMDR and runs the command (log entry 6). -/
def State.withFetchWord (s : State) (nbits w : Nat) : State :=
  { s.accept (BitVec.ofNat 32 (w % 2 ^ nbits)) with edges := [] }

end Sys2Proof.Machine
end

