-- ==== Sys2Proof/Safety.lean ====
section
/-! DEFINITION. What counts as a good state and a safe run (spec/10_state.md R45, spec/20_memory.md R58,
spec/70_reset_and_hazards.md R190), in the terms the statements use. -/

namespace Sys2Proof.Machine

/-- The eight values STATUS takes (R23). -/
def legalStatus : List Word :=
  [0x00000000#32, 0x00000001#32, 0x00000002#32, 0x00000016#32, 0x00000026#32, 0x00000036#32,
   0x00000086#32, 0x00000096#32]

/-- A buffer in its canonical form whose every listed index lies below the capacity (R36, R37, R53). -/
def Memory.fits (m : Memory) (cap : Nat) : Prop := Memory.wf m = true ∧ ∀ c ∈ m, c.1 < cap

/-- The invariants of R45, (a) to (h), with the ranges of the parameters (R7), the closed list of
STATUS values (R23), OLEN while BUSY (R25), the empty accumulator outside the two run phases (R35)
and the canonical form of the buffers. -/
structure State.Inv (s : State) : Prop where
  /-- R7. -/
  capacities : s.cfg.wf = true
  /-- R23: STATUS takes exactly eight values. -/
  statusLegal : s.status ∈ legalStatus
  /-- R45(a). -/
  busyIff : s.busy = true ↔ s.ph ≠ .idle
  /-- R45(b). -/
  busyNotDone : ¬(s.busy = true ∧ s.done = true)
  /-- R45(c). -/
  errDone : s.err = true → s.done = true
  /-- R45(d). -/
  ecodeErr : s.ecode ≠ 0#4 ↔ s.err = true
  /-- R45(e). -/
  accFits : s.acc.toNat < 2 ^ s.cnt.toNat ∧ s.cnt.toNat ≤ 12
  /-- R45(f), which holds in every phase but the two that use the accumulator (R35). -/
  accEmpty : s.ph ≠ .encRun → s.ph ≠ .decRun → s.acc = 0#12 ∧ s.cnt = 0#4
  /-- R45(g). -/
  errorOlen : s.done = true → s.err = true → s.olen = 0#32
  /-- R25: while BUSY = 1, OLEN reads 0. -/
  busyOlen : s.busy = true → s.olen = 0#32
  /-- R45(h), IP. -/
  ipBound : s.ph = .encRun ∨ s.ph = .decVal ∨ s.ph = .decRun → s.ip ≤ s.ilen.toNat
  /-- R45(h), OPTR. -/
  optrBound : s.optr ≤ s.cfg.capO
  /-- IBUF holds bytes at indexes below CAP_I only (R36). -/
  ibufFits : Memory.fits s.ibuf s.cfg.capI
  /-- OBUF holds bytes at indexes below CAP_O only (R37). -/
  obufFits : Memory.fits s.obuf s.cfg.capO

/-- What more is true of a command in progress, phase by phase: the checks it has passed and how the
index registers, the accumulator and the scan flags stand to each other. It rules out the states
from which the sequencer would leave a buffer or meet a character without a value. -/
def State.runOk (s : State) : Prop :=
  match s.ph with
  | .idle => True
  | .dispatch => True
  | .encRun =>
    s.encTooBig = false ∧ s.ip ≤ s.lenOperand ∧
      (5 * s.optr + s.cnt.toNat = 8 * s.ip ∨
        (s.ip = s.lenOperand ∧ s.cnt.toNat = 0 ∧ 8 * s.lenOperand ≤ 5 * s.optr ∧
          s.optr ≤ encodedLength s.lenOperand))
  | .decVal =>
    s.decTooBig = false ∧ s.lenOperand % 8 = 0 ∧ s.ip ≤ s.lenOperand ∧
      s.scan = scanText s.lenOperand 0 (s.ibufBytes s.ip) ScanFlags.zero
  | .decRun =>
    s.decTooBig = false ∧ s.lenOperand % 8 = 0 ∧
      s.scan.padCnt = padCount (s.ibufBytes s.lenOperand) ∧
      characterBad (s.ibufBytes s.lenOperand) = false ∧
      s.ip ≤ s.lenOperand - s.scan.padCnt ∧ 8 * s.optr + s.cnt.toNat = 5 * s.ip

/-- A good state: R45's invariants, and a command in progress stands as its steps leave it. -/
def State.Good (s : State) : Prop := s.Inv ∧ s.runOk

/-- The edges over which a command in progress takes exactly `k` micro-steps, the last of them at the
last edge: no reset, any host access, any finite number of stalls (R192). -/
def busyEdges (k : Nat) (es : List Edge) : Prop :=
  (∀ e ∈ es, e.rst = false ∧ e.pace ≠ .whole) ∧
    (es.filter fun e => e.pace == .micro).length = k ∧
    (es.getLast?.map fun e => e.pace) = some .micro

/-- A character folded to upper case: a lower-case letter becomes the upper-case letter, every other
character stays (R79, R93(c), R140). -/
def upperCase (c : Byte) : Byte := if classOf c = .lower then c - 0x20#8 else c

/-- Two states a host cannot tell apart by any read, now (R43): equal in everything a read uses. -/
def State.sameView (s t : State) : Prop :=
  s.status = t.status ∧ s.ilen = t.ilen ∧ s.olen = t.olen ∧ s.cfg = t.cfg ∧ s.draws = t.draws ∧
    s.outValid = t.outValid ∧ ∀ j, j < s.olen.toNat → s.obufCell j = t.obufCell j

end Sys2Proof.Machine
end

