-- ==== Sys2Proof/Certificates/Slice0/Obligations.lean ====
section
/-! DEFINITION. The statements about the model, for the provers. Each formalises numbered rules of spec/
or rests on the sections its entry in OBLIGATIONS.json cites. -/

open Sys2Proof Sys2Proof.Machine

/-! ## Command words (spec/30_encoding.md R70 to R74) -/

/-- R72 and R73's totality: a word selects a command when all 32 bits match, and every other word of
the 2^32 is rejected. -/
def Obligations.CommandWordsSelectTheFourCommands : Prop :=
  (∀ w, decode w = .ok .enclen ↔ w = 0x00000001#32) ∧
    (∀ w, decode w = .ok .declen ↔ w = 0x00000002#32) ∧
    (∀ w, decode w = .ok .enc ↔ w = 0x00000003#32) ∧
    (∀ w, decode w = .ok .dec ↔ w = 0x00000004#32) ∧
    (∀ w, (∃ e, decode w = .error e) ↔
      w ≠ 0x00000001#32 ∧ w ≠ 0x00000002#32 ∧ w ≠ 0x00000003#32 ∧ w ≠ 0x00000004#32)

/-- Decoding the encoding of a well-formed command gives it back, and a word that decodes to a command
is that command's encoding (R70, R72). -/
def Obligations.DecodeAndEncodeAgree : Prop :=
  ∀ i : Instr, i.wf = true →
    decode (encode i) = .ok i ∧ decodeTableWord 32 (encode i).toNat = some i ∧
      ∀ w, decode w = .ok i → encode i = w

/-- Sample words of R72 and R74's table, as numbers. -/
def Obligations.SampleWordsDecode : Prop :=
  decodeTableWord 32 0x00000001 = some .enclen ∧ decodeTableWord 32 0x00000002 = some .declen ∧
    decodeTableWord 32 0x00000003 = some .enc ∧ decodeTableWord 32 0x00000004 = some .dec ∧
    decodeTableWord 32 0x00000000 = none ∧ decodeTableWord 32 0x00000005 = none ∧
    decodeTableWord 32 0x00000103 = none ∧ decodeTableWord 32 0x80000003 = none

/-- R74: an illegal word is accepted like any other and then ends at its DISPATCH step by error
completion with IllegalCommand; IBUF and OBUF are untouched. The second edge may carry any host
access. -/
def Obligations.IllegalWordEndsInIllegalCommand : Prop :=
  ∀ (s : State) (w : Word) (p : Pace) (e : Edge) (rest : List Edge),
    s.busy = false → s.ph = .idle →
    w ≠ 0x00000001#32 → w ≠ 0x00000002#32 → w ≠ 0x00000003#32 → w ≠ 0x00000004#32 →
    e.rst = false → e.pace ≠ .stall →
    ∃ u t, step { s with edges := hostEdge (opCmdw w) p :: e :: rest } = .next u ∧
      u.busy = true ∧ u.olen = 0#32 ∧
      step u = .next t ∧ t.status = 0x00000086#32 ∧ t.olen = 0#32 ∧ t.ilen = s.ilen ∧
      t.ph = .idle ∧
      (∀ i, t.ibufByte i = s.ibufByte i) ∧ (∀ j, t.obufCell j = s.obufCell j)

/-! ## The step (spec/20_memory.md R54, spec/30_encoding.md R73) -/

/-- A step at DISPATCH decodes CMDR and runs the decoded command: at the operation level the whole of
it (`exec`), at the micro-step level its DISPATCH step, and a stalled edge changes nothing. The word
`withFetchWord` places is the one the next step runs. That a step may stand for a whole command is
the model's choice (log entry 2). -/
def Obligations.StepRunsTheDecodedCommand : Prop :=
  (∀ (s : State) (i : Instr), s.ph = .dispatch → s.busy = true → decode s.cmdr = .ok i →
    i.wf = true → s.edge.rst = false →
    (s.edge.pace = .whole → step s = exec i s.popEdge) ∧
      (s.edge.pace = .micro → step s = microDispatch i s.popEdge) ∧
      (s.edge.pace = .stall → step s = .next s.popEdge)) ∧
  (∀ (s : State) (i : Instr), i.wf = true →
    step (s.withFetchWord 32 (encode i).toNat) =
      exec i (s.withFetchWord 32 (encode i).toNat))

/-- R116 and R141, with R100: what the DISPATCH step of each command does at the micro-step level. The
size commands complete in it; ENC and DEC make their interface checks, DEC also the length check,
and enter a run phase without an access to a buffer. -/
def Obligations.DispatchMicroSteps : Prop :=
  ∀ s : State,
    microDispatch .enclen s = exec .enclen s ∧ microDispatch .declen s = exec .declen s ∧
    (s.cfg.capI < s.ilen.toNat ∨ s.cfg.capO < (s.ilen.toNat + 4) / 5 * 8 →
      microDispatch .enc s = .next
        { s with status := 0x00000096#32, acc := 0#12, cnt := 0#4, ph := .idle }) ∧
    (s.ilen.toNat ≤ s.cfg.capI → (s.ilen.toNat + 4) / 5 * 8 ≤ s.cfg.capO →
      microDispatch .enc s = .next
        { s with ip := 0, optr := 0, acc := 0#12, cnt := 0#4, ph := .encRun }) ∧
    (s.cfg.capI < s.ilen.toNat ∨ s.cfg.capO < s.ilen.toNat / 8 * 5 →
      microDispatch .dec s = .next
        { s with status := 0x00000096#32, acc := 0#12, cnt := 0#4, ph := .idle }) ∧
    (s.ilen.toNat ≤ s.cfg.capI → s.ilen.toNat / 8 * 5 ≤ s.cfg.capO → s.ilen.toNat % 8 ≠ 0 →
      microDispatch .dec s = .next
        { s with status := 0x00000016#32, acc := 0#12, cnt := 0#4, ph := .idle }) ∧
    (s.ilen.toNat ≤ s.cfg.capI → s.ilen.toNat / 8 * 5 ≤ s.cfg.capO → s.ilen.toNat % 8 = 0 →
      microDispatch .dec s = .next
        { s with ip := 0, ph := .decVal,
                 scan := { seenPad := false, padCnt := 0, padErr := false, chrErr := false,
                           lastV := 0#5 } })

/-! ## The host port (spec/20_memory.md, spec/10_state.md R21 to R28) -/

/-- R71: a word written to CMD while BUSY = 0 is accepted whatever it is, and nothing but the listed
elements changes (`draws` and `outValid` are the model's own, log entry 4); while BUSY = 1 the
write is ignored. -/
def Obligations.AcceptanceOfACommandWord : Prop :=
  ∀ (s : State) (w : Word) (p : Pace) (rest : List Edge),
    (s.busy = false → s.ph = .idle →
      step { s with edges := hostEdge (opCmdw w) p :: rest } = .next
        { s with cmdr := w, status := 0x00000001#32, olen := 0#32, ph := .dispatch,
                 draws := s.draws + 1, outValid := false, edges := rest }) ∧
    (s.busy = true → s.ph ≠ .idle →
      s.writePort (hostEdge (opCmdw w) p) = s ∧
      step { s with edges := hostEdge (opCmdw w) .stall :: rest } =
        .next { s with edges := rest })

/-- R21, R22, R24 to R27: what a host read of each register returns, with ID the constant 0xB32C0103
and CAPI and CAPO the two capacities as numbers. -/
def Obligations.RegisterWindowReads : Prop :=
  ∀ (s : State) (p : Pace), s.cfg.wf = true →
    s.readPort (hostEdge (opRd .cmd) p) = 0#32 ∧
    s.readPort (hostEdge (opRd .status) p) = s.status ∧
    s.readPort (hostEdge (opRd .ilen) p) = s.ilen ∧
    s.readPort (hostEdge (opRd .olen) p) = s.olen ∧
    s.readPort (hostEdge (opRd .id) p) = 0xB32C0103#32 ∧
    (s.readPort (hostEdge (opRd .capi) p)).toNat = s.cfg.capI ∧
    (s.readPort (hostEdge (opRd .capo) p)).toNat = s.cfg.capO ∧
    s.readPort (hostEdge (opRd .unassigned) p) = 0#32

/-- R28: offset 0x1C, every offset above it, and every misaligned offset read 0 and ignore writes. -/
def Obligations.UnassignedAndMisalignedOffsets : Prop :=
  ∀ (s : State) (off w : Word) (p : Pace), 0x1C ≤ off.toNat ∨ off.toNat % 4 ≠ 0 →
    s.readPort (hostEdge (.regRead off) p) = 0#32 ∧
      s.writePort (hostEdge (.regWrite off w) p) = s

/-- R22 to R28 and R186: of the REG space only CMD and ILEN take a write, and only while BUSY = 0; a
write to ILEN stores any 32-bit word, changes nothing else, and is read back. -/
def Obligations.OnlyCmdAndIlenTakeWrites : Prop :=
  ∀ (s : State) (p : Pace),
    (∀ off w, off ≠ regOffset .cmd → off ≠ regOffset .ilen →
      s.writePort (hostEdge (.regWrite off w) p) = s) ∧
    (s.busy = true → ∀ off w, s.writePort (hostEdge (.regWrite off w) p) = s) ∧
    (s.busy = false → ∀ v,
      s.writePort (hostEdge (opWrIlen v) p) = { s with ilen := v } ∧
      (s.writePort (hostEdge (opWrIlen v) p)).readPort (hostEdge (opRd .ilen) p) = v)

/-- R56: a host write stores its low byte in IBUF while BUSY = 0 and the index is below CAP_I, and
else changes nothing; a host read of IBUF returns 0 and changes nothing. -/
def Obligations.IbufHostSide : Prop :=
  ∀ (s : State) (i w : Word) (p : Pace),
    (s.busy = false → i.toNat < s.cfg.capI →
      ∃ t, s.writePort ⟨false, 2#2, true, i, w, p⟩ = t ∧
        t.ibufByte i.toNat = w.extractLsb' 0 8 ∧
        (∀ k, k ≠ i.toNat → t.ibufByte k = s.ibufByte k) ∧ t = { s with ibuf := t.ibuf }) ∧
    (s.busy = true ∨ s.cfg.capI ≤ i.toNat → s.writePort ⟨false, 2#2, true, i, w, p⟩ = s) ∧
    s.readPort ⟨false, 2#2, false, i, w, p⟩ = 0#32 ∧
    s.writePort ⟨false, 2#2, false, i, w, p⟩ = s

/-- R57: a host read of OBUF returns 0 while BUSY = 1 or at an index at or above CAP_O, and else a byte
with 0 above it: the byte of the last result below OLEN where there is one, a free value elsewhere
(`freeOut`, log entry 4). A host write of OBUF changes nothing. -/
def Obligations.ObufHostSide : Prop :=
  ∀ (s : State) (j : Word) (p : Pace),
    (s.busy = true ∨ s.cfg.capO ≤ j.toNat → s.readPort (hostEdge (.outRead j) p) = 0#32) ∧
    (s.busy = false → j.toNat < s.cfg.capO →
      (∀ b, s.outValid = true → j.toNat < s.olen.toNat → s.obufCell j.toNat = some b →
        s.readPort (hostEdge (.outRead j) p) = b.setWidth 32) ∧
      (s.outValid = false ∨ s.olen.toNat ≤ j.toNat →
        s.readPort (hostEdge (.outRead j) p) = (Config.freeOut s.draws j.toNat).setWidth 32)) ∧
    (∀ v, s.writePort (hostEdge (.outWrite j v) p) = s)

/-- R59 and R55: while the block is idle, a read, a write of OBUF and no access change nothing but the
inputs still to come. -/
def Obligations.ReadsHaveNoSideEffect : Prop :=
  ∀ (s : State) (e : Edge) (rest : List Edge), s.ph = .idle → e.rst = false →
    e.we = false ∨ e.sel = 0#2 ∨ e.sel = 3#2 →
    step { s with edges := e :: rest } = .next { s with edges := rest }

/-- R186: while a command is in progress the host's access at an edge makes no difference to the state
after it. -/
def Obligations.AccessesWhileBusyMakeNoDifference : Prop :=
  ∀ (s : State) (e e' : Edge) (rest : List Edge), s.busy = true → s.ph ≠ .idle →
    e.rst = false → e'.rst = false → e.pace = e'.pace →
    step { s with edges := e :: rest } = step { s with edges := e' :: rest }

/-- R43: the host sees STATUS, ILEN, OLEN, the capacities and the result in OBUF and nothing else: two
states equal in these answer every access alike, whatever their phase, CMDR, index registers,
accumulator and scan flags. -/
def Obligations.InternalStateIsInvisible : Prop :=
  ∀ (s t : State), s.sameView t → ∀ e : Edge, s.readPort e = t.readPort e

/-- R43, R25 and R57: while a command is in progress STATUS reads 0x00000001 and OLEN and OBUF read 0,
so no intermediate result is visible. The premise is the invariant of the model. -/
def Obligations.NoIntermediateResultIsVisible : Prop :=
  ∀ (s : State) (p : Pace), s.Inv → s.ph ≠ .idle →
    s.readPort (hostEdge (opRd .status) p) = 0x00000001#32 ∧
      s.readPort (hostEdge (opRd .olen) p) = 0#32 ∧
      ∀ j, s.readPort (hostEdge (.outRead j) p) = 0#32

/-! ## Reset (spec/10_state.md R42, spec/70_reset_and_hazards.md R180, R181) -/

/-- R42 by R180's edge, from any state: every element takes its value of the table, a byte of IBUF is
the free value of a new draw, no byte of OBUF is a result, and the constants read as ever. A read
presented at the edge is answered from the state before it. -/
def Obligations.ResetEdgeGivesTheResetTable : Prop :=
  ∀ (s : State) (e : Edge) (rest : List Edge), e.rst = true → s.cfg.wf = true →
    State.hRdata { s with edges := e :: rest } = s.readPort e ∧
    ∃ t, step { s with edges := e :: rest } = .next t ∧
      t.status = 0#32 ∧ t.busy = false ∧ t.done = false ∧ t.err = false ∧ t.ecode = 0#4 ∧
      t.ilen = 0#32 ∧ t.olen = 0#32 ∧
      t.readPort (hostEdge (opRd .cmd) .micro) = 0#32 ∧
      t.readPort (hostEdge (opRd .id) .micro) = 0xB32C0103#32 ∧
      (t.readPort (hostEdge (opRd .capi) .micro)).toNat = s.cfg.capI ∧
      (t.readPort (hostEdge (opRd .capo) .micro)).toNat = s.cfg.capO ∧
      t.ph = .idle ∧ t.cmdr = 0#32 ∧ t.ip = 0 ∧ t.optr = 0 ∧ t.acc = 0#12 ∧ t.cnt = 0#4 ∧
      t.scan.seenPad = false ∧ t.scan.padCnt = 0 ∧ t.scan.padErr = false ∧
      t.scan.chrErr = false ∧ t.scan.lastV = 0#5 ∧
      (∀ i, t.ibufByte i = Config.freeIn (s.resets + 1) i) ∧
      (∀ j, t.obufCell j = none) ∧ t.outValid = false ∧ t.edges = rest

/-! ## The size commands (spec/41_size_commands.md) -/

/-- R101: ENCLEN gives `ceil(n/5)*8` exactly, or InvalidLength exactly when that does not fit 32 bits;
nothing but STATUS, OLEN, the phase and the accumulator (which a completion empties) changes. -/
def Obligations.EnclenResult : Prop :=
  ∀ s : State,
    (s.ilen.toNat ≤ 0x9FFFFFFB → ∃ t, exec .enclen s = .next t ∧
      t.status = 0x00000002#32 ∧ t.olen.toNat = (s.ilen.toNat + 4) / 5 * 8 ∧
      t = { s with status := t.status, olen := t.olen, ph := .idle, acc := 0#12, cnt := 0#4 }) ∧
    (0x9FFFFFFB < s.ilen.toNat → s.olen = 0#32 → ∃ t, exec .enclen s = .next t ∧
      t.status = 0x00000016#32 ∧ t.olen = 0#32 ∧
      t = { s with status := t.status, ph := .idle, acc := 0#12, cnt := 0#4 }) ∧
    (s.ilen.toNat ≤ 0x9FFFFFFB ↔ (s.ilen.toNat + 4) / 5 * 8 ≤ 2 ^ 32 - 1)

/-- R102: DECLEN gives `floor(m/8)*5` exactly, or InvalidLength exactly when `m` is no multiple of 8. -/
def Obligations.DeclenResult : Prop :=
  ∀ s : State,
    (s.ilen.toNat % 8 = 0 → ∃ t, exec .declen s = .next t ∧
      t.status = 0x00000002#32 ∧ t.olen.toNat = s.ilen.toNat / 8 * 5 ∧
      t = { s with status := t.status, olen := t.olen, ph := .idle, acc := 0#12, cnt := 0#4 }) ∧
    (s.ilen.toNat % 8 ≠ 0 → s.olen = 0#32 → ∃ t, exec .declen s = .next t ∧
      t.status = 0x00000016#32 ∧ t.olen = 0#32 ∧
      t = { s with status := t.status, ph := .idle, acc := 0#12, cnt := 0#4 })

/-- R104: the size commands change STATUS, OLEN and the phase and nothing else, and the same ILEN gives
the same OLEN and STATUS whatever came before. The premises are those of an accepted command
(R71, R45(f)). -/
def Obligations.SizeCommandsArePure : Prop :=
  ∀ (i : Instr) (s s' : State), i = .enclen ∨ i = .declen →
    s.acc = 0#12 → s.cnt = 0#4 → s.olen = 0#32 → s'.olen = 0#32 → s.ilen = s'.ilen →
    ∃ t t', exec i s = .next t ∧ exec i s' = .next t' ∧
      t.olen = t'.olen ∧ t.status = t'.status ∧
      t = { s with status := t.status, olen := t.olen, ph := .idle } ∧
      (∀ k, t.ibufByte k = s.ibufByte k) ∧ (∀ j, t.obufCell j = s.obufCell j)

/-! ## The encoder command (spec/42_encoder.md) -/

/-- R110: ENC within the capacities completes normally with OLEN = `ceil(n/5)*8` and OBUF[0..OLEN) the
encoding of IBUF[0..n), which the host can read; every other byte of OBUF, ILEN, IBUF and every
other element are unchanged but for the sequencer's own. -/
def Obligations.EncResult : Prop :=
  ∀ s : State, s.cfg.wf = true → s.ilen.toNat ≤ s.cfg.capI →
    (s.ilen.toNat + 4) / 5 * 8 ≤ s.cfg.capO →
    ∃ t, exec .enc s = .next t ∧ t.status = 0x00000002#32 ∧
      t.olen.toNat = (s.ilen.toNat + 4) / 5 * 8 ∧
      (base32Encode (s.ibufBytes s.ilen.toNat)).length = t.olen.toNat ∧
      (∀ j, j < t.olen.toNat →
        t.obufCell j = (base32Encode (s.ibufBytes s.ilen.toNat))[j]?) ∧
      (∀ (j : Word) (p : Pace) (c : Byte), j.toNat < t.olen.toNat →
        (base32Encode (s.ibufBytes s.ilen.toNat))[j.toNat]? = some c →
        t.readPort (hostEdge (.outRead j) p) = c.setWidth 32) ∧
      (∀ j, t.olen.toNat ≤ j → t.obufCell j = s.obufCell j) ∧
      (∀ i, t.ibufByte i = s.ibufByte i) ∧
      t = { s with status := t.status, olen := t.olen, obuf := t.obuf, ph := .idle,
                   ip := s.ilen.toNat, optr := t.olen.toNat, acc := 0#12, cnt := 0#4,
                   outValid := true }

/-- R111: ENC is refused with CapacityExceeded exactly when the input or the output does not fit; a
refused ENC changes nothing but STATUS, the phase and the accumulator. -/
def Obligations.EncRefusedExactlyBeyondCapacity : Prop :=
  ∀ s : State, ∃ t, exec .enc s = .next t ∧
    (t.status = 0x00000096#32 ↔
      s.cfg.capI < s.ilen.toNat ∨ s.cfg.capO < (s.ilen.toNat + 4) / 5 * 8) ∧
    (t.status = 0x00000096#32 →
      t = { s with status := t.status, ph := .idle, acc := 0#12, cnt := 0#4 } ∧
      ∀ j, t.obufCell j = s.obufCell j)

/-- R112: the shape of the output: its length, its characters, and pads only at the end of the final
block, at most six of them. -/
def Obligations.EncodeShape : Prop :=
  ∀ b : List Byte,
    (base32Encode b).length = (b.length + 4) / 5 * 8 ∧
    (∀ c ∈ base32Encode b, classOf c = .upper ∨ classOf c = .digit ∨ classOf c = .pad) ∧
    (∀ j k : Nat, j ≤ k → k < (base32Encode b).length →
      (base32Encode b)[j]? = some 0x3D#8 →
      (base32Encode b)[k]? = some 0x3D#8 ∧ (base32Encode b).length ≤ j + 6)

/-- R113: `encode` index by index: chunk `c` of five bytes gives `t[8c+j] = value_to_char(W[39-5j:35-5j])`
and a final partial chunk of `r` bytes gives `ceil(8r/5)` such characters and then `=`; there are no
further characters. -/
def Obligations.EncodeIndexByIndex : Prop :=
  ∀ b : List Byte,
    (base32Encode b).length = 8 * (b.length / 5) + (if b.length % 5 = 0 then 0 else 8) ∧
    (∀ c j, c < b.length / 5 → j < 8 →
      (base32Encode b)[8 * c + j]? = some (valueToChar (BitVec.extractLsb' (35 - 5 * j) 5
        (b.getD (5 * c) 0#8 ++ b.getD (5 * c + 1) 0#8 ++ b.getD (5 * c + 2) 0#8 ++
          b.getD (5 * c + 3) 0#8 ++ b.getD (5 * c + 4) 0#8)))) ∧
    (∀ j, b.length % 5 ≠ 0 → j < 8 →
      (base32Encode b)[8 * (b.length / 5) + j]? = some (
        if j < (8 * (b.length % 5) + 4) / 5 then
          valueToChar (BitVec.extractLsb' (35 - 5 * j) 5
            (b.getD (5 * (b.length / 5)) 0#8 ++ b.getD (5 * (b.length / 5) + 1) 0#8 ++
              b.getD (5 * (b.length / 5) + 2) 0#8 ++ b.getD (5 * (b.length / 5) + 3) 0#8 ++
              b.getD (5 * (b.length / 5) + 4) 0#8))
        else 0x3D#8))

/-- R75: the bit layout of a block, symbol by symbol and byte by byte. -/
def Obligations.BlockBitLayout : Prop :=
  (∀ b0 b1 b2 b3 b4 : Byte,
    symbolAt (chunkWord [b0, b1, b2, b3, b4]) 0 = b0.extractLsb' 3 5 ∧
    symbolAt (chunkWord [b0, b1, b2, b3, b4]) 1 = b0.extractLsb' 0 3 ++ b1.extractLsb' 6 2 ∧
    symbolAt (chunkWord [b0, b1, b2, b3, b4]) 2 = b1.extractLsb' 1 5 ∧
    symbolAt (chunkWord [b0, b1, b2, b3, b4]) 3 = b1.extractLsb' 0 1 ++ b2.extractLsb' 4 4 ∧
    symbolAt (chunkWord [b0, b1, b2, b3, b4]) 4 = b2.extractLsb' 0 4 ++ b3.extractLsb' 7 1 ∧
    symbolAt (chunkWord [b0, b1, b2, b3, b4]) 5 = b3.extractLsb' 2 5 ∧
    symbolAt (chunkWord [b0, b1, b2, b3, b4]) 6 = b3.extractLsb' 0 2 ++ b4.extractLsb' 5 3 ∧
    symbolAt (chunkWord [b0, b1, b2, b3, b4]) 7 = b4.extractLsb' 0 5) ∧
  (∀ c0 c1 c2 c3 c4 c5 c6 c7 : Byte,
    byteAt (blockWord [c0, c1, c2, c3, c4, c5, c6, c7]) 0 =
      symOf c0 ++ (symOf c1).extractLsb' 2 3 ∧
    byteAt (blockWord [c0, c1, c2, c3, c4, c5, c6, c7]) 1 =
      (symOf c1).extractLsb' 0 2 ++ symOf c2 ++ (symOf c3).extractLsb' 4 1 ∧
    byteAt (blockWord [c0, c1, c2, c3, c4, c5, c6, c7]) 2 =
      (symOf c3).extractLsb' 0 4 ++ (symOf c4).extractLsb' 1 4 ∧
    byteAt (blockWord [c0, c1, c2, c3, c4, c5, c6, c7]) 3 =
      (symOf c4).extractLsb' 0 1 ++ symOf c5 ++ (symOf c6).extractLsb' 3 2 ∧
    byteAt (blockWord [c0, c1, c2, c3, c4, c5, c6, c7]) 4 =
      (symOf c6).extractLsb' 0 3 ++ symOf c7)

/-- The prefix law of R115. -/
def Obligations.EncodePrefixLaw : Prop :=
  ∀ b c : List Byte, b.length % 5 = 0 → base32Encode (b ++ c) = base32Encode b ++ base32Encode c

/-- The round trip of R115 and R140: for all byte sequences, decode of encode is the sequence. -/
def Obligations.DecodeOfEncodeIsIdentity : Prop :=
  ∀ b : List Byte, base32Decode (base32Encode b) = .ok b

/-- R117 to R121 in R122's order: one micro-step in phase ENC_RUN. The accesses are inside the buffers
(that they always are is another statement); the edge may carry any host access. -/
def Obligations.EncoderMicroSteps : Prop :=
  ∀ (s : State) (e : Edge) (rest : List Edge), s.ph = .encRun → s.busy = true →
    e.rst = false → e.pace ≠ .stall → s.cnt.toNat ≤ 12 →
    (5 ≤ s.cnt.toNat → s.optr < s.cfg.capO →
      ∃ t, step { s with edges := e :: rest } = .next t ∧
        t.obufCell s.optr =
          some (valueToChar (BitVec.ofNat 5 (s.acc.toNat / 2 ^ (s.cnt.toNat - 5)))) ∧
        (∀ j, j ≠ s.optr → t.obufCell j = s.obufCell j) ∧
        t.cnt.toNat = s.cnt.toNat - 5 ∧ t.acc.toNat = s.acc.toNat % 2 ^ (s.cnt.toNat - 5) ∧
        t = { s with edges := rest, obuf := t.obuf, optr := s.optr + 1, acc := t.acc,
                     cnt := t.cnt }) ∧
    (s.cnt.toNat < 5 → s.ip < s.ilen.toNat → s.ip < s.cfg.capI →
      ∃ t, step { s with edges := e :: rest } = .next t ∧
        t.acc.toNat = (s.acc.toNat <<< 8 ||| (s.ibufByte s.ip).toNat) % 2 ^ 12 ∧
        t.cnt.toNat = s.cnt.toNat + 8 ∧
        t = { s with edges := rest, ip := s.ip + 1, acc := t.acc, cnt := t.cnt }) ∧
    (s.cnt.toNat < 5 → s.ip = s.ilen.toNat → 0 < s.cnt.toNat → s.optr < s.cfg.capO →
      ∃ t, step { s with edges := e :: rest } = .next t ∧
        t.obufCell s.optr =
          some (valueToChar (BitVec.ofNat 5 (s.acc.toNat <<< (5 - s.cnt.toNat) % 2 ^ 5))) ∧
        (∀ j, j ≠ s.optr → t.obufCell j = s.obufCell j) ∧
        t = { s with edges := rest, obuf := t.obuf, optr := s.optr + 1, acc := 0#12,
                     cnt := 0#4 }) ∧
    (s.cnt.toNat = 0 → s.ip = s.ilen.toNat → s.optr % 8 ≠ 0 → s.optr < s.cfg.capO →
      ∃ t, step { s with edges := e :: rest } = .next t ∧
        t.obufCell s.optr = some 0x3D#8 ∧
        (∀ j, j ≠ s.optr → t.obufCell j = s.obufCell j) ∧
        t = { s with edges := rest, obuf := t.obuf, optr := s.optr + 1 }) ∧
    (s.cnt.toNat = 0 → s.ip = s.ilen.toNat → s.optr % 8 = 0 →
      step { s with edges := e :: rest } = .next
        { s with edges := rest, olen := BitVec.ofNat 32 s.optr, status := 0x00000002#32,
                 acc := 0#12, cnt := 0#4, ph := .idle, outValid := true })

/-- R123 with R190's count and R192: over any edges without reset that hold `n + L + 2` micro-steps,
the last at the last edge, whatever the host presents and however often the sequencer stalls, the
micro-steps of ENC leave exactly what the operation level gives: the whole state. -/
def Obligations.EncMicroStepsGiveTheOperationLevel : Prop :=
  ∀ (s : State) (es rest : List Edge), s.ph = .dispatch → s.busy = true →
    decode s.cmdr = .ok .enc → s.ilen.toNat ≤ s.cfg.capI →
    (s.ilen.toNat + 4) / 5 * 8 ≤ s.cfg.capO →
    busyEdges (s.ilen.toNat + (s.ilen.toNat + 4) / 5 * 8 + 2) es →
    Host.Core.run core es.length { s with edges := es ++ rest } =
      exec .enc { s with edges := rest }

/-! ## The decoder command (spec/43_decoder.md) -/

/-- R130: DEC of a text that fits and passes the checks completes normally with OLEN the number of
bytes and OBUF[0..OLEN) the decoded bytes, which the host can read; every other byte of OBUF, ILEN,
IBUF and every other element are unchanged but for the sequencer's own. -/
def Obligations.DecResult : Prop :=
  ∀ (s : State) (out : List Byte), s.cfg.wf = true → s.ilen.toNat ≤ s.cfg.capI →
    s.ilen.toNat / 8 * 5 ≤ s.cfg.capO → base32Decode (s.ibufBytes s.ilen.toNat) = .ok out →
    ∃ t, exec .dec s = .next t ∧ t.status = 0x00000002#32 ∧ t.olen.toNat = out.length ∧
      (∀ j, j < out.length → t.obufCell j = out[j]?) ∧
      (∀ (j : Word) (p : Pace) (v : Byte), out[j.toNat]? = some v →
        t.readPort (hostEdge (.outRead j) p) = v.setWidth 32) ∧
      (∀ j, out.length ≤ j → t.obufCell j = s.obufCell j) ∧
      (∀ i, t.ibufByte i = s.ibufByte i) ∧
      t = { s with status := t.status, olen := t.olen, obuf := t.obuf, ph := .idle,
                   ip := s.ilen.toNat - padCount (s.ibufBytes s.ilen.toNat),
                   optr := out.length, acc := 0#12, cnt := 0#4, scan := t.scan,
                   outValid := true }

/-- R166: a command reports exactly one error, the first that applies in R166's order. A step of the
operation level from DISPATCH. -/
def Obligations.FirstErrorInOrder : Prop :=
  ∀ s : State, s.ph = .dispatch → s.busy = true → s.edge.rst = false → s.edge.pace = .whole →
    ∃ t, step s = .next t ∧ t.ph = .idle ∧
      t.status =
        if s.cmdr ∉ [0x00000001#32, 0x00000002#32, 0x00000003#32, 0x00000004#32] then
          0x00000086#32
        else if (s.cmdr = 0x00000003#32 ∧
              (s.cfg.capI < s.ilen.toNat ∨ s.cfg.capO < (s.ilen.toNat + 4) / 5 * 8)) ∨
            (s.cmdr = 0x00000004#32 ∧
              (s.cfg.capI < s.ilen.toNat ∨ s.cfg.capO < s.ilen.toNat / 8 * 5)) then
          0x00000096#32
        else if (s.cmdr = 0x00000001#32 ∧ 0x9FFFFFFB < s.ilen.toNat) ∨
            ((s.cmdr = 0x00000002#32 ∨ s.cmdr = 0x00000004#32) ∧ s.ilen.toNat % 8 ≠ 0) then
          0x00000016#32
        else if s.cmdr = 0x00000004#32 ∧ paddingBad (s.ibufBytes s.ilen.toNat) = true then
          0x00000036#32
        else if s.cmdr = 0x00000004#32 ∧ characterBad (s.ibufBytes s.ilen.toNat) = true then
          0x00000026#32
        else if s.cmdr = 0x00000004#32 ∧ strictBad (s.ibufBytes s.ilen.toNat) = true then
          0x00000036#32
        else 0x00000002#32

/-- R139 and R168: an error completion of any command leaves no effect but STATUS, with OLEN as
acceptance left it, and has written no byte of OBUF. -/
def Obligations.ErrorsLeaveNoPartialOutput : Prop :=
  ∀ (i : Instr) (s : State), ∃ t, exec i s = .next t ∧
    (t.err = true →
      t.done = true ∧ t.busy = false ∧ t.olen = s.olen ∧ t.ilen = s.ilen ∧
      (∀ j, t.obufCell j = s.obufCell j) ∧ (∀ k, t.ibufByte k = s.ibufByte k) ∧
      t = { s with status := t.status, ph := .idle, acc := 0#12, cnt := 0#4, ip := t.ip,
                   scan := t.scan })

/-- R132: the padding count is the length of the longest run of `=` that ends the text. -/
def Obligations.PadCountIsTheLongestEndingRun : Prop :=
  ∀ t : List Byte, padCount t ≤ t.length ∧
    (∀ k, t.length - padCount t ≤ k → k < t.length → t[k]? = some 0x3D#8) ∧
    (padCount t < t.length → t[t.length - padCount t - 1]? ≠ some 0x3D#8)

/-- R133: check 2 passes exactly when the count is valid and no data position holds `=`; then every `=`
of a text of whole blocks is followed by `=` only, lies in the final block, and at least two data
characters precede it there. -/
def Obligations.PaddingCheckMeaning : Prop :=
  ∀ t : List Byte,
    (paddingBad t = false ↔
      (padCount t = 0 ∨ padCount t = 1 ∨ padCount t = 3 ∨ padCount t = 4 ∨ padCount t = 6) ∧
        ∀ k, k < t.length - padCount t → t[k]? ≠ some 0x3D#8) ∧
    (paddingBad t = false → t.length % 8 = 0 → ∀ j, t[j]? = some 0x3D#8 →
      t.length - 6 ≤ j ∧ ∀ k, j ≤ k → k < t.length → t[k]? = some 0x3D#8)

/-- R135 and R137: of a text of whole blocks that passes check 2, DEC accepts exactly those whose data
characters all have a value and whose last data character has zero in its unused low bits. -/
def Obligations.AcceptedTexts : Prop :=
  ∀ t : List Byte, t.length % 8 = 0 → paddingBad t = false →
    ((∃ out, base32Decode t = .ok out) ↔
      (∀ k c, k < t.length - padCount t → t[k]? = some c → (charToValue c).isSome = true) ∧
      ∀ c v, t[t.length - padCount t - 1]? = some c → charToValue c = some v →
        (padCount t = 1 → v.toNat % 8 = 0) ∧ (padCount t = 3 → v.toNat % 2 = 0) ∧
        (padCount t = 4 → v.toNat % 16 = 0) ∧ (padCount t = 6 → v.toNat % 4 = 0))

/-- R78: the length laws of both directions. -/
def Obligations.LengthLaws : Prop :=
  (∀ b : List Byte, (base32Encode b).length = (b.length + 4) / 5 * 8 ∧
    (base32Encode b).length % 8 = 0) ∧
  (∀ t out : List Byte, base32Decode t = .ok out →
    out.length + (if padCount t = 1 then 1 else if padCount t = 3 then 2
        else if padCount t = 4 then 3 else if padCount t = 6 then 4 else 0) =
      t.length / 8 * 5 ∧
    out.length ≤ t.length / 8 * 5 ∧ t.length / 8 * 5 - 4 ≤ out.length)

/-- R138: `decode_bits` index by index: block `c` with `k` data characters gives `floor(5k/8)` bytes,
byte `i` of them `W[39-8i:32-8i]` of the block's 40 bits. -/
def Obligations.DecodeIndexByIndex : Prop :=
  ∀ t out : List Byte, base32Decode t = .ok out →
    ∀ c k i, c < t.length / 8 → k = (if c < t.length / 8 - 1 then 8 else 8 - padCount t) →
      i < 5 * k / 8 →
      out[5 * c + i]? = some (BitVec.extractLsb' (32 - 8 * i) 8
        (BitVec.ofNat 40 ((((t.drop (8 * c)).take k).foldl
          (fun w x => w * 32 + ((charToValue x).getD 0#5).toNat) 0) * 2 ^ (5 * (8 - k)))))

/-- R140, R150: decoding does not depend on the case of the letters. -/
def Obligations.DecodeIgnoresCase : Prop :=
  ∀ t : List Byte, base32Decode (t.map upperCase) = base32Decode t

/-- R140: encode of decode is the text folded to upper case, so decode is injective on texts without
lower-case letters. -/
def Obligations.EncodeOfDecodeIsTheText : Prop :=
  ∀ t out : List Byte, base32Decode t = .ok out → base32Encode out = t.map upperCase

/-- R142 to R146 in R147's order: one micro-step in the phases DEC_VAL and DEC_RUN. The accesses are
inside the buffers and the characters absorbed have values (that they always are and do is another
statement); the edge may carry any host access. -/
def Obligations.DecoderMicroSteps : Prop :=
  ∀ (s : State) (e : Edge) (rest : List Edge), s.busy = true → e.rst = false → e.pace ≠ .stall →
    (s.ph = .decVal → s.ip < s.ilen.toNat → s.ip < s.cfg.capI →
      step { s with edges := e :: rest } = .next
        { s with edges := rest, ip := s.ip + 1, scan :=
          if s.ibufByte s.ip = 0x3D#8 then
            if s.ip + 8 < s.ilen.toNat then { s.scan with padErr := true }
            else { s.scan with seenPad := true, padCnt := s.scan.padCnt + 1 }
          else if s.scan.seenPad = true then { s.scan with padErr := true }
          else match charToValue (s.ibufByte s.ip) with
            | none => { s.scan with chrErr := true }
            | some v => { s.scan with lastV := v } }) ∧
    (s.ph = .decVal → s.ip = s.ilen.toNat →
      ∃ t, step { s with edges := e :: rest } = .next t ∧
        (s.scan.padErr = true ∨ s.scan.padCnt ∉ [0, 1, 3, 4, 6] →
          t = { s with edges := rest, status := 0x00000036#32, acc := 0#12, cnt := 0#4,
                       ph := .idle }) ∧
        (s.scan.padErr = false → s.scan.padCnt ∈ [0, 1, 3, 4, 6] → s.scan.chrErr = true →
          t = { s with edges := rest, status := 0x00000026#32, acc := 0#12, cnt := 0#4,
                       ph := .idle }) ∧
        (s.scan.padErr = false → s.scan.padCnt ∈ [0, 1, 3, 4, 6] → s.scan.chrErr = false →
          0 < s.ilen.toNat → s.scan.lastV.toNat % 2 ^ unusedBits s.scan.padCnt ≠ 0 →
          t = { s with edges := rest, status := 0x00000036#32, acc := 0#12, cnt := 0#4,
                       ph := .idle }) ∧
        (s.scan.padErr = false → s.scan.padCnt ∈ [0, 1, 3, 4, 6] → s.scan.chrErr = false →
          s.ilen.toNat = 0 ∨ s.scan.lastV.toNat % 2 ^ unusedBits s.scan.padCnt = 0 →
          t = { s with edges := rest, ip := 0, optr := 0, acc := 0#12, cnt := 0#4,
                       ph := .decRun })) ∧
    (s.ph = .decRun → 8 ≤ s.cnt.toNat → s.optr < s.cfg.capO →
      ∃ t, step { s with edges := e :: rest } = .next t ∧
        t.obufCell s.optr = some (BitVec.ofNat 8 (s.acc.toNat / 2 ^ (s.cnt.toNat - 8))) ∧
        (∀ j, j ≠ s.optr → t.obufCell j = s.obufCell j) ∧
        t.cnt.toNat = s.cnt.toNat - 8 ∧ t.acc.toNat = s.acc.toNat % 2 ^ (s.cnt.toNat - 8) ∧
        t = { s with edges := rest, obuf := t.obuf, optr := s.optr + 1, acc := t.acc,
                     cnt := t.cnt }) ∧
    (∀ v, s.ph = .decRun → s.cnt.toNat < 8 → s.ip < s.ilen.toNat - s.scan.padCnt →
      s.ip < s.cfg.capI → charToValue (s.ibufByte s.ip) = some v →
      ∃ t, step { s with edges := e :: rest } = .next t ∧
        t.acc.toNat = (s.acc.toNat <<< 5 ||| v.toNat) % 2 ^ 12 ∧
        t.cnt.toNat = s.cnt.toNat + 5 ∧
        t = { s with edges := rest, ip := s.ip + 1, acc := t.acc, cnt := t.cnt }) ∧
    (s.ph = .decRun → s.cnt.toNat < 8 → s.ip = s.ilen.toNat - s.scan.padCnt →
      step { s with edges := e :: rest } = .next
        { s with edges := rest, olen := BitVec.ofNat 32 s.optr, status := 0x00000002#32,
                 acc := 0#12, cnt := 0#4, ph := .idle, outValid := true })

/-- R148 with R190's counts and R192: over any edges without reset that hold the micro-steps R190
counts, the last at the last edge, whatever the host presents and however often the sequencer
stalls, the micro-steps of DEC leave exactly what the operation level gives: the whole state. -/
def Obligations.DecMicroStepsGiveTheOperationLevel : Prop :=
  ∀ (s : State) (es rest : List Edge), s.ph = .dispatch → s.busy = true →
    decode s.cmdr = .ok .dec → s.ilen.toNat ≤ s.cfg.capI →
    s.ilen.toNat / 8 * 5 ≤ s.cfg.capO → s.ilen.toNat % 8 = 0 →
    (∀ out, base32Decode (s.ibufBytes s.ilen.toNat) = .ok out →
      busyEdges (2 * s.ilen.toNat - padCount (s.ibufBytes s.ilen.toNat) + out.length + 3) es →
      Host.Core.run core es.length { s with edges := es ++ rest } =
        exec .dec { s with edges := rest }) ∧
    (∀ r, base32Decode (s.ibufBytes s.ilen.toNat) = .error r →
      busyEdges (s.ilen.toNat + 2) es →
      Host.Core.run core es.length { s with edges := es ++ rest } =
        exec .dec { s with edges := rest })

/-! ## The Alphabet Table (spec/40_alphabet.md) -/

/-- R91: the table in arithmetic form. -/
def Obligations.ValueToCharArithmetic : Prop :=
  ∀ v : Sym, valueToChar v =
    if v.toNat ≤ 25 then BitVec.ofNat 8 (0x41 + v.toNat)
    else BitVec.ofNat 8 (0x32 + (v.toNat - 26))

/-- R93(a) to (d): the table is injective, `char_to_value` inverts it, the other composition is the
identity on upper-case letters and digits and gives the upper-case letter on lower-case ones, and
58 of the 256 codes are valid, one is the pad, 197 are invalid. -/
def Obligations.AlphabetProperties : Prop :=
  (∀ v w : Sym, valueToChar v = valueToChar w → v = w) ∧
  (∀ v : Sym, charToValue (valueToChar v) = some v) ∧
  (∀ (c : Byte) (v : Sym), charToValue c = some v →
    ((classOf c = .upper ∨ classOf c = .digit) → valueToChar v = c) ∧
    (classOf c = .lower → valueToChar v = c - 0x20#8)) ∧
  ((List.range 256).filter fun n => (charToValue (BitVec.ofNat 8 n)).isSome).length = 58 ∧
  ((List.range 256).filter fun n => classOf (BitVec.ofNat 8 n) == .invalid).length = 197 ∧
  ((List.range 256).filter fun n => classOf (BitVec.ofNat 8 n) == .pad).length = 1

/-- R79 and R92: the class of every code by its range, and the value `char_to_value` gives it. -/
def Obligations.ClassesAgreeWithTheTable : Prop :=
  ∀ c : Byte,
    (classOf c = .digit ↔ 0x32 ≤ c.toNat ∧ c.toNat ≤ 0x37) ∧
    (classOf c = .upper ↔ 0x41 ≤ c.toNat ∧ c.toNat ≤ 0x5A) ∧
    (classOf c = .lower ↔ 0x61 ≤ c.toNat ∧ c.toNat ≤ 0x7A) ∧
    (classOf c = .pad ↔ c.toNat = 0x3D) ∧
    (classOf c = .invalid ↔ ¬(0x32 ≤ c.toNat ∧ c.toNat ≤ 0x37) ∧
      ¬(0x41 ≤ c.toNat ∧ c.toNat ≤ 0x5A) ∧ ¬(0x61 ≤ c.toNat ∧ c.toNat ≤ 0x7A) ∧
      c.toNat ≠ 0x3D) ∧
    (classOf c = .upper → charToValue c = some (BitVec.ofNat 5 (c.toNat - 0x41))) ∧
    (classOf c = .lower → charToValue c = some (BitVec.ofNat 5 (c.toNat - 0x61))) ∧
    (classOf c = .digit → charToValue c = some (BitVec.ofNat 5 (c.toNat - 0x32 + 26))) ∧
    (classOf c = .invalid ∨ classOf c = .pad → charToValue c = none)

/-! ## Completion (spec/60_exceptions.md) -/

/-- R167: what normal completion writes, and that nothing else changes. -/
def Obligations.NormalCompletion : Prop :=
  ∀ (s : State) (len : Nat), s.complete len =
    { s with olen := BitVec.ofNat 32 len, status := 0x00000002#32, acc := 0#12, cnt := 0#4,
             ph := .idle }

/-- R168: what error completion writes for each error, and that nothing else changes. -/
def Obligations.ErrorCompletion : Prop :=
  ∀ (s : State) (e : Err), s.raise e =
    { s with acc := 0#12, cnt := 0#4, ph := .idle,
             status := match e with
               | .invalidLength => 0x00000016#32
               | .invalidCharacter => 0x00000026#32
               | .invalidPadding => 0x00000036#32
               | .illegalCommand => 0x00000086#32
               | .capacityExceeded => 0x00000096#32 }

/-- R178: from every state each command completes, and in one of the ways of its closed list. -/
def Obligations.OutcomesAreClosed : Prop :=
  ∀ s : State,
    (∃ t, exec .enclen s = .next t ∧ t.ph = .idle ∧
      t.status ∈ [0x00000002#32, 0x00000016#32]) ∧
    (∃ t, exec .declen s = .next t ∧ t.ph = .idle ∧
      t.status ∈ [0x00000002#32, 0x00000016#32]) ∧
    (∃ t, exec .enc s = .next t ∧ t.ph = .idle ∧
      t.status ∈ [0x00000002#32, 0x00000096#32]) ∧
    (∃ t, exec .dec s = .next t ∧ t.ph = .idle ∧
      t.status ∈ [0x00000002#32, 0x00000096#32, 0x00000016#32, 0x00000036#32,
        0x00000026#32])

/-- R190, first part: the size commands, an illegal word, a capacity refusal and a DEC length error
take one micro-step, and leave what the operation level gives. -/
def Obligations.OneMicroStepCommands : Prop :=
  ∀ (s : State) (es rest : List Edge), s.ph = .dispatch → s.busy = true → busyEdges 1 es →
    (∀ i, decode s.cmdr = .ok i →
      (i = .enclen ∨ i = .declen ∨
        (i = .enc ∧ (s.cfg.capI < s.ilen.toNat ∨ s.cfg.capO < (s.ilen.toNat + 4) / 5 * 8)) ∨
        (i = .dec ∧ (s.cfg.capI < s.ilen.toNat ∨ s.cfg.capO < s.ilen.toNat / 8 * 5 ∨
          s.ilen.toNat % 8 ≠ 0))) →
      Host.Core.run core es.length { s with edges := es ++ rest } =
        exec i { s with edges := rest }) ∧
    (∀ r, decode s.cmdr = .error r →
      Host.Core.run core es.length { s with edges := es ++ rest } =
        .next { s with edges := rest, status := 0x00000086#32, acc := 0#12, cnt := 0#4,
                       ph := .idle })

/-! ## The whole machine -/

/-- R31: the phase transitions, at a clock edge of at most one micro-step: reset gives IDLE, IDLE is
left by an accepted CMD write only, and a command's phases follow each other as in R31's table. -/
def Obligations.PhaseTransitions : Prop :=
  ∀ (s t : State) (e : Edge) (rest : List Edge), e.pace ≠ .whole →
    step { s with edges := e :: rest } = .next t →
    (e.rst = true → t.ph = .idle) ∧
    (e.rst = false → s.ph = .idle →
      t.ph = .idle ∨ (t.ph = .dispatch ∧ s.busy = false ∧ e.sel = 1#2 ∧ e.we = true ∧
        e.addr = 0#32 ∧ t.cmdr = e.wdata)) ∧
    (e.rst = false → s.busy = true → e.pace = .micro →
      (s.ph = .dispatch → t.ph = .idle ∨
        (t.ph = .encRun ∧ s.cmdr = 0x00000003#32) ∨ (t.ph = .decVal ∧ s.cmdr = 0x00000004#32)) ∧
      (s.ph = .encRun → t.ph = .encRun ∨ t.ph = .idle) ∧
      (s.ph = .decVal → t.ph = .decVal ∨ t.ph = .decRun ∨ t.ph = .idle) ∧
      (s.ph = .decRun → t.ph = .decRun ∨ t.ph = .idle)) ∧
    (e.rst = false → s.busy = true → s.ph ≠ .idle → e.pace = .stall → t.ph = s.ph)

/-- R24, R26, R36, R41: no step changes the parameters, and only the host changes the operands, by a
write while BUSY = 0, or reset. -/
def Obligations.OnlyHostAndResetChangeOperands : Prop :=
  ∀ s t : State, step s = .next t →
    t.cfg = s.cfg ∧
    (s.edge.rst = false →
      (t.ilen ≠ s.ilen → s.busy = false ∧ s.edge.we = true ∧ s.edge.sel = 1#2 ∧
        s.edge.addr = 0x08#32 ∧ t.ilen = s.edge.wdata) ∧
      (∀ k, t.ibufByte k ≠ s.ibufByte k → s.busy = false ∧ s.edge.we = true ∧
        s.edge.sel = 2#2 ∧ s.edge.addr.toNat = k))

/-- R44: the outcome of a command is a function of the command, ILEN, the capacities and, for ENC and
DEC, IBUF[0..ILEN): two states equal in these give the same STATUS and OLEN and the same result in
OBUF[0..OLEN), whatever else they hold. -/
def Obligations.CommandsAreStateless : Prop :=
  ∀ (i : Instr) (s s' : State), s.ilen = s'.ilen → s.cfg = s'.cfg →
    s.olen = 0#32 → s'.olen = 0#32 →
    (i = .enc ∨ i = .dec → ∀ k, k < s.ilen.toNat → s.ibufByte k = s'.ibufByte k) →
    ∃ t t', exec i s = .next t ∧ exec i s' = .next t' ∧
      t.status = t'.status ∧ t.olen = t'.olen ∧
      (i = .enc ∨ i = .dec → s.cfg.wf = true → ∀ j, j < t.olen.toNat →
        t.obufCell j = t'.obufCell j)

/-- The reset state of every instance, and `State.reset`, meet the invariants of R45 (R42). -/
def Obligations.ResetMeetsTheInvariants : Prop :=
  (∀ cfg : Config, cfg.wf = true → (State.resetWith cfg).Good) ∧ State.reset.Good

/-- R45: the invariants hold after every host access and every micro-step, and after a command run at
the operation level: every step keeps them. -/
def Obligations.EveryStepKeepsTheInvariants : Prop :=
  ∀ s t : State, s.Inv → step s = .next t → t.Inv

/-- R33, R34, R161, R190: from a good state every step answers a next state, which is good again: no
access of the sequencer leaves a buffer, no character it absorbs is without a value, and in every
phase there is an enabled step. -/
def Obligations.NoStepStops : Prop :=
  ∀ s : State, s.Good → ∃ t, step s = .next t ∧ t.Good
end

