-- ==== Sys2Proof/Laws/State.lean ====
section
/-! SUPPORT. The fields of State after each named update, one lemma per field, true by definition, so
that no later proof unfolds a record update. -/

namespace Sys2Proof.Machine

/-! ## After acceptance (R71) -/

@[simp] theorem accept_status (s : State) (w : Word) : (s.accept w).status = statusBusy := rfl
@[simp] theorem accept_ilen (s : State) (w : Word) : (s.accept w).ilen = s.ilen := rfl
@[simp] theorem accept_olen (s : State) (w : Word) : (s.accept w).olen = 0#32 := rfl
@[simp] theorem accept_ph (s : State) (w : Word) : (s.accept w).ph = .dispatch := rfl
@[simp] theorem accept_cmdr (s : State) (w : Word) : (s.accept w).cmdr = w := rfl
@[simp] theorem accept_ip (s : State) (w : Word) : (s.accept w).ip = s.ip := rfl
@[simp] theorem accept_optr (s : State) (w : Word) : (s.accept w).optr = s.optr := rfl
@[simp] theorem accept_acc (s : State) (w : Word) : (s.accept w).acc = s.acc := rfl
@[simp] theorem accept_cnt (s : State) (w : Word) : (s.accept w).cnt = s.cnt := rfl
@[simp] theorem accept_scan (s : State) (w : Word) : (s.accept w).scan = s.scan := rfl
@[simp] theorem accept_ibuf (s : State) (w : Word) : (s.accept w).ibuf = s.ibuf := rfl
@[simp] theorem accept_obuf (s : State) (w : Word) : (s.accept w).obuf = s.obuf := rfl
@[simp] theorem accept_cfg (s : State) (w : Word) : (s.accept w).cfg = s.cfg := rfl
@[simp] theorem accept_edges (s : State) (w : Word) : (s.accept w).edges = s.edges := rfl
@[simp] theorem accept_resets (s : State) (w : Word) : (s.accept w).resets = s.resets := rfl
@[simp] theorem accept_draws (s : State) (w : Word) : (s.accept w).draws = s.draws + 1 := rfl
@[simp] theorem accept_outValid (s : State) (w : Word) : (s.accept w).outValid = false := rfl

/-! ## After normal completion (R167) -/

@[simp] theorem complete_status (s : State) (n : Nat) : (s.complete n).status = statusDone := rfl
@[simp] theorem complete_ilen (s : State) (n : Nat) : (s.complete n).ilen = s.ilen := rfl
@[simp] theorem complete_olen (s : State) (n : Nat) : (s.complete n).olen = BitVec.ofNat 32 n := rfl
@[simp] theorem complete_ph (s : State) (n : Nat) : (s.complete n).ph = .idle := rfl
@[simp] theorem complete_cmdr (s : State) (n : Nat) : (s.complete n).cmdr = s.cmdr := rfl
@[simp] theorem complete_ip (s : State) (n : Nat) : (s.complete n).ip = s.ip := rfl
@[simp] theorem complete_optr (s : State) (n : Nat) : (s.complete n).optr = s.optr := rfl
@[simp] theorem complete_acc (s : State) (n : Nat) : (s.complete n).acc = 0#12 := rfl
@[simp] theorem complete_cnt (s : State) (n : Nat) : (s.complete n).cnt = 0#4 := rfl
@[simp] theorem complete_scan (s : State) (n : Nat) : (s.complete n).scan = s.scan := rfl
@[simp] theorem complete_ibuf (s : State) (n : Nat) : (s.complete n).ibuf = s.ibuf := rfl
@[simp] theorem complete_obuf (s : State) (n : Nat) : (s.complete n).obuf = s.obuf := rfl
@[simp] theorem complete_cfg (s : State) (n : Nat) : (s.complete n).cfg = s.cfg := rfl
@[simp] theorem complete_edges (s : State) (n : Nat) : (s.complete n).edges = s.edges := rfl
@[simp] theorem complete_resets (s : State) (n : Nat) : (s.complete n).resets = s.resets := rfl
@[simp] theorem complete_draws (s : State) (n : Nat) : (s.complete n).draws = s.draws := rfl
@[simp] theorem complete_outValid (s : State) (n : Nat) :
    (s.complete n).outValid = s.outValid := rfl

/-! ## After normal completion of ENC and DEC (R167, R57) -/

@[simp] theorem completeOut_status (s : State) (n : Nat) :
    (s.completeOut n).status = statusDone := rfl
@[simp] theorem completeOut_ilen (s : State) (n : Nat) : (s.completeOut n).ilen = s.ilen := rfl
@[simp] theorem completeOut_olen (s : State) (n : Nat) :
    (s.completeOut n).olen = BitVec.ofNat 32 n := rfl
@[simp] theorem completeOut_ph (s : State) (n : Nat) : (s.completeOut n).ph = .idle := rfl
@[simp] theorem completeOut_cmdr (s : State) (n : Nat) : (s.completeOut n).cmdr = s.cmdr := rfl
@[simp] theorem completeOut_ip (s : State) (n : Nat) : (s.completeOut n).ip = s.ip := rfl
@[simp] theorem completeOut_optr (s : State) (n : Nat) : (s.completeOut n).optr = s.optr := rfl
@[simp] theorem completeOut_acc (s : State) (n : Nat) : (s.completeOut n).acc = 0#12 := rfl
@[simp] theorem completeOut_cnt (s : State) (n : Nat) : (s.completeOut n).cnt = 0#4 := rfl
@[simp] theorem completeOut_scan (s : State) (n : Nat) : (s.completeOut n).scan = s.scan := rfl
@[simp] theorem completeOut_ibuf (s : State) (n : Nat) : (s.completeOut n).ibuf = s.ibuf := rfl
@[simp] theorem completeOut_obuf (s : State) (n : Nat) : (s.completeOut n).obuf = s.obuf := rfl
@[simp] theorem completeOut_cfg (s : State) (n : Nat) : (s.completeOut n).cfg = s.cfg := rfl
@[simp] theorem completeOut_edges (s : State) (n : Nat) : (s.completeOut n).edges = s.edges := rfl
@[simp] theorem completeOut_resets (s : State) (n : Nat) :
    (s.completeOut n).resets = s.resets := rfl
@[simp] theorem completeOut_draws (s : State) (n : Nat) : (s.completeOut n).draws = s.draws := rfl
@[simp] theorem completeOut_outValid (s : State) (n : Nat) :
    (s.completeOut n).outValid = true := rfl

/-! ## After error completion (R168) -/

@[simp] theorem raise_status (s : State) (e : Err) : (s.raise e).status = statusError e := rfl
@[simp] theorem raise_ilen (s : State) (e : Err) : (s.raise e).ilen = s.ilen := rfl
@[simp] theorem raise_olen (s : State) (e : Err) : (s.raise e).olen = s.olen := rfl
@[simp] theorem raise_ph (s : State) (e : Err) : (s.raise e).ph = .idle := rfl
@[simp] theorem raise_cmdr (s : State) (e : Err) : (s.raise e).cmdr = s.cmdr := rfl
@[simp] theorem raise_ip (s : State) (e : Err) : (s.raise e).ip = s.ip := rfl
@[simp] theorem raise_optr (s : State) (e : Err) : (s.raise e).optr = s.optr := rfl
@[simp] theorem raise_acc (s : State) (e : Err) : (s.raise e).acc = 0#12 := rfl
@[simp] theorem raise_cnt (s : State) (e : Err) : (s.raise e).cnt = 0#4 := rfl
@[simp] theorem raise_scan (s : State) (e : Err) : (s.raise e).scan = s.scan := rfl
@[simp] theorem raise_ibuf (s : State) (e : Err) : (s.raise e).ibuf = s.ibuf := rfl
@[simp] theorem raise_obuf (s : State) (e : Err) : (s.raise e).obuf = s.obuf := rfl
@[simp] theorem raise_cfg (s : State) (e : Err) : (s.raise e).cfg = s.cfg := rfl
@[simp] theorem raise_edges (s : State) (e : Err) : (s.raise e).edges = s.edges := rfl
@[simp] theorem raise_resets (s : State) (e : Err) : (s.raise e).resets = s.resets := rfl
@[simp] theorem raise_draws (s : State) (e : Err) : (s.raise e).draws = s.draws := rfl
@[simp] theorem raise_outValid (s : State) (e : Err) : (s.raise e).outValid = s.outValid := rfl

/-! ## After reset (R180) -/

@[simp] theorem resetEdge_status (s : State) : (s.resetEdge).status = 0#32 := rfl
@[simp] theorem resetEdge_ilen (s : State) : (s.resetEdge).ilen = 0#32 := rfl
@[simp] theorem resetEdge_olen (s : State) : (s.resetEdge).olen = 0#32 := rfl
@[simp] theorem resetEdge_ph (s : State) : (s.resetEdge).ph = .idle := rfl
@[simp] theorem resetEdge_cmdr (s : State) : (s.resetEdge).cmdr = 0#32 := rfl
@[simp] theorem resetEdge_ip (s : State) : (s.resetEdge).ip = 0 := rfl
@[simp] theorem resetEdge_optr (s : State) : (s.resetEdge).optr = 0 := rfl
@[simp] theorem resetEdge_acc (s : State) : (s.resetEdge).acc = 0#12 := rfl
@[simp] theorem resetEdge_cnt (s : State) : (s.resetEdge).cnt = 0#4 := rfl
@[simp] theorem resetEdge_scan (s : State) : (s.resetEdge).scan = ScanFlags.zero := rfl
@[simp] theorem resetEdge_ibuf (s : State) : (s.resetEdge).ibuf = [] := rfl
@[simp] theorem resetEdge_obuf (s : State) : (s.resetEdge).obuf = [] := rfl
@[simp] theorem resetEdge_cfg (s : State) : (s.resetEdge).cfg = s.cfg := rfl
@[simp] theorem resetEdge_edges (s : State) : (s.resetEdge).edges = s.edges := rfl
@[simp] theorem resetEdge_resets (s : State) : (s.resetEdge).resets = s.resets + 1 := rfl
@[simp] theorem resetEdge_draws (s : State) : (s.resetEdge).draws = s.draws + 1 := rfl
@[simp] theorem resetEdge_outValid (s : State) : (s.resetEdge).outValid = false := rfl

/-! ## After entering a run phase (R116, R143) -/

@[simp] theorem enterRun_status (s : State) (p : Phase) : (s.enterRun p).status = s.status := rfl
@[simp] theorem enterRun_ilen (s : State) (p : Phase) : (s.enterRun p).ilen = s.ilen := rfl
@[simp] theorem enterRun_olen (s : State) (p : Phase) : (s.enterRun p).olen = s.olen := rfl
@[simp] theorem enterRun_ph (s : State) (p : Phase) : (s.enterRun p).ph = p := rfl
@[simp] theorem enterRun_cmdr (s : State) (p : Phase) : (s.enterRun p).cmdr = s.cmdr := rfl
@[simp] theorem enterRun_ip (s : State) (p : Phase) : (s.enterRun p).ip = 0 := rfl
@[simp] theorem enterRun_optr (s : State) (p : Phase) : (s.enterRun p).optr = 0 := rfl
@[simp] theorem enterRun_acc (s : State) (p : Phase) : (s.enterRun p).acc = 0#12 := rfl
@[simp] theorem enterRun_cnt (s : State) (p : Phase) : (s.enterRun p).cnt = 0#4 := rfl
@[simp] theorem enterRun_scan (s : State) (p : Phase) : (s.enterRun p).scan = s.scan := rfl
@[simp] theorem enterRun_ibuf (s : State) (p : Phase) : (s.enterRun p).ibuf = s.ibuf := rfl
@[simp] theorem enterRun_obuf (s : State) (p : Phase) : (s.enterRun p).obuf = s.obuf := rfl
@[simp] theorem enterRun_cfg (s : State) (p : Phase) : (s.enterRun p).cfg = s.cfg := rfl
@[simp] theorem enterRun_edges (s : State) (p : Phase) : (s.enterRun p).edges = s.edges := rfl
@[simp] theorem enterRun_resets (s : State) (p : Phase) : (s.enterRun p).resets = s.resets := rfl
@[simp] theorem enterRun_draws (s : State) (p : Phase) : (s.enterRun p).draws = s.draws := rfl
@[simp] theorem enterRun_outValid (s : State) (p : Phase) :
    (s.enterRun p).outValid = s.outValid := rfl

/-! ## After shifting bits in (R118, R145) -/

@[simp] theorem shiftIn_status (s : State) (k : Nat) (v : AccWord) :
    (s.shiftIn k v).status = s.status := rfl
@[simp] theorem shiftIn_ilen (s : State) (k : Nat) (v : AccWord) :
    (s.shiftIn k v).ilen = s.ilen := rfl
@[simp] theorem shiftIn_olen (s : State) (k : Nat) (v : AccWord) :
    (s.shiftIn k v).olen = s.olen := rfl
@[simp] theorem shiftIn_ph (s : State) (k : Nat) (v : AccWord) : (s.shiftIn k v).ph = s.ph := rfl
@[simp] theorem shiftIn_cmdr (s : State) (k : Nat) (v : AccWord) :
    (s.shiftIn k v).cmdr = s.cmdr := rfl
@[simp] theorem shiftIn_ip (s : State) (k : Nat) (v : AccWord) : (s.shiftIn k v).ip = s.ip := rfl
@[simp] theorem shiftIn_optr (s : State) (k : Nat) (v : AccWord) :
    (s.shiftIn k v).optr = s.optr := rfl
@[simp] theorem shiftIn_acc (s : State) (k : Nat) (v : AccWord) :
    (s.shiftIn k v).acc = (s.acc <<< k) ||| v := rfl
@[simp] theorem shiftIn_cnt (s : State) (k : Nat) (v : AccWord) :
    (s.shiftIn k v).cnt = s.cnt + BitVec.ofNat 4 k := rfl
@[simp] theorem shiftIn_scan (s : State) (k : Nat) (v : AccWord) :
    (s.shiftIn k v).scan = s.scan := rfl
@[simp] theorem shiftIn_ibuf (s : State) (k : Nat) (v : AccWord) :
    (s.shiftIn k v).ibuf = s.ibuf := rfl
@[simp] theorem shiftIn_obuf (s : State) (k : Nat) (v : AccWord) :
    (s.shiftIn k v).obuf = s.obuf := rfl
@[simp] theorem shiftIn_cfg (s : State) (k : Nat) (v : AccWord) : (s.shiftIn k v).cfg = s.cfg := rfl
@[simp] theorem shiftIn_edges (s : State) (k : Nat) (v : AccWord) :
    (s.shiftIn k v).edges = s.edges := rfl
@[simp] theorem shiftIn_resets (s : State) (k : Nat) (v : AccWord) :
    (s.shiftIn k v).resets = s.resets := rfl
@[simp] theorem shiftIn_draws (s : State) (k : Nat) (v : AccWord) :
    (s.shiftIn k v).draws = s.draws := rfl
@[simp] theorem shiftIn_outValid (s : State) (k : Nat) (v : AccWord) :
    (s.shiftIn k v).outValid = s.outValid := rfl

/-! ## After dropping the top bits (R117, R144) -/

@[simp] theorem dropBits_status (s : State) (k : Nat) : (s.dropBits k).status = s.status := rfl
@[simp] theorem dropBits_ilen (s : State) (k : Nat) : (s.dropBits k).ilen = s.ilen := rfl
@[simp] theorem dropBits_olen (s : State) (k : Nat) : (s.dropBits k).olen = s.olen := rfl
@[simp] theorem dropBits_ph (s : State) (k : Nat) : (s.dropBits k).ph = s.ph := rfl
@[simp] theorem dropBits_cmdr (s : State) (k : Nat) : (s.dropBits k).cmdr = s.cmdr := rfl
@[simp] theorem dropBits_ip (s : State) (k : Nat) : (s.dropBits k).ip = s.ip := rfl
@[simp] theorem dropBits_optr (s : State) (k : Nat) : (s.dropBits k).optr = s.optr := rfl
@[simp] theorem dropBits_acc (s : State) (k : Nat) :
    (s.dropBits k).acc = BitVec.ofNat 12 (s.acc.toNat % 2 ^ (s.cnt.toNat - k)) := rfl
@[simp] theorem dropBits_cnt (s : State) (k : Nat) :
    (s.dropBits k).cnt = BitVec.ofNat 4 (s.cnt.toNat - k) := rfl
@[simp] theorem dropBits_scan (s : State) (k : Nat) : (s.dropBits k).scan = s.scan := rfl
@[simp] theorem dropBits_ibuf (s : State) (k : Nat) : (s.dropBits k).ibuf = s.ibuf := rfl
@[simp] theorem dropBits_obuf (s : State) (k : Nat) : (s.dropBits k).obuf = s.obuf := rfl
@[simp] theorem dropBits_cfg (s : State) (k : Nat) : (s.dropBits k).cfg = s.cfg := rfl
@[simp] theorem dropBits_edges (s : State) (k : Nat) : (s.dropBits k).edges = s.edges := rfl
@[simp] theorem dropBits_resets (s : State) (k : Nat) : (s.dropBits k).resets = s.resets := rfl
@[simp] theorem dropBits_draws (s : State) (k : Nat) : (s.dropBits k).draws = s.draws := rfl
@[simp] theorem dropBits_outValid (s : State) (k : Nat) :
    (s.dropBits k).outValid = s.outValid := rfl

/-! ## After writing OBUF from index 0 on (R37) -/

@[simp] theorem writeOut_status (s : State) (l : List Byte) :
    (s.writeOut l).status = s.status := rfl
@[simp] theorem writeOut_ilen (s : State) (l : List Byte) : (s.writeOut l).ilen = s.ilen := rfl
@[simp] theorem writeOut_olen (s : State) (l : List Byte) : (s.writeOut l).olen = s.olen := rfl
@[simp] theorem writeOut_ph (s : State) (l : List Byte) : (s.writeOut l).ph = s.ph := rfl
@[simp] theorem writeOut_cmdr (s : State) (l : List Byte) : (s.writeOut l).cmdr = s.cmdr := rfl
@[simp] theorem writeOut_ip (s : State) (l : List Byte) : (s.writeOut l).ip = s.ip := rfl
@[simp] theorem writeOut_optr (s : State) (l : List Byte) : (s.writeOut l).optr = s.optr := rfl
@[simp] theorem writeOut_acc (s : State) (l : List Byte) : (s.writeOut l).acc = s.acc := rfl
@[simp] theorem writeOut_cnt (s : State) (l : List Byte) : (s.writeOut l).cnt = s.cnt := rfl
@[simp] theorem writeOut_scan (s : State) (l : List Byte) : (s.writeOut l).scan = s.scan := rfl
@[simp] theorem writeOut_ibuf (s : State) (l : List Byte) : (s.writeOut l).ibuf = s.ibuf := rfl
@[simp] theorem writeOut_obuf (s : State) (l : List Byte) :
    (s.writeOut l).obuf = Memory.storeList s.obuf 0 l := rfl
@[simp] theorem writeOut_cfg (s : State) (l : List Byte) : (s.writeOut l).cfg = s.cfg := rfl
@[simp] theorem writeOut_edges (s : State) (l : List Byte) : (s.writeOut l).edges = s.edges := rfl
@[simp] theorem writeOut_resets (s : State) (l : List Byte) :
    (s.writeOut l).resets = s.resets := rfl
@[simp] theorem writeOut_draws (s : State) (l : List Byte) : (s.writeOut l).draws = s.draws := rfl
@[simp] theorem writeOut_outValid (s : State) (l : List Byte) :
    (s.writeOut l).outValid = s.outValid := rfl

/-! ## After consuming an edge -/

@[simp] theorem popEdge_status (s : State) : (s.popEdge).status = s.status := rfl
@[simp] theorem popEdge_ilen (s : State) : (s.popEdge).ilen = s.ilen := rfl
@[simp] theorem popEdge_olen (s : State) : (s.popEdge).olen = s.olen := rfl
@[simp] theorem popEdge_ph (s : State) : (s.popEdge).ph = s.ph := rfl
@[simp] theorem popEdge_cmdr (s : State) : (s.popEdge).cmdr = s.cmdr := rfl
@[simp] theorem popEdge_ip (s : State) : (s.popEdge).ip = s.ip := rfl
@[simp] theorem popEdge_optr (s : State) : (s.popEdge).optr = s.optr := rfl
@[simp] theorem popEdge_acc (s : State) : (s.popEdge).acc = s.acc := rfl
@[simp] theorem popEdge_cnt (s : State) : (s.popEdge).cnt = s.cnt := rfl
@[simp] theorem popEdge_scan (s : State) : (s.popEdge).scan = s.scan := rfl
@[simp] theorem popEdge_ibuf (s : State) : (s.popEdge).ibuf = s.ibuf := rfl
@[simp] theorem popEdge_obuf (s : State) : (s.popEdge).obuf = s.obuf := rfl
@[simp] theorem popEdge_cfg (s : State) : (s.popEdge).cfg = s.cfg := rfl
@[simp] theorem popEdge_edges (s : State) : (s.popEdge).edges = s.edges.tail := rfl
@[simp] theorem popEdge_resets (s : State) : (s.popEdge).resets = s.resets := rfl
@[simp] theorem popEdge_draws (s : State) : (s.popEdge).draws = s.draws := rfl
@[simp] theorem popEdge_outValid (s : State) : (s.popEdge).outValid = s.outValid := rfl

end Sys2Proof.Machine
end

