-- ==== Sys2Proof/Laws/Memory.lean ====
section
/-! SUPPORT. The laws of a buffer: a read after a write, every other index unchanged, and the canonical
form kept by every operation. -/

namespace Sys2Proof.Machine

@[simp] theorem lookup_nil (i : Nat) : Memory.lookup [] i = none := rfl

theorem risingFrom_lookup_none {a i : Nat} {m : Memory} (h : Memory.risingFrom a m = true)
    (hi : i ≤ a) : Memory.lookup m i = none := by
  cases m with
  | nil => rfl
  | cons c rest =>
    obtain ⟨b, w⟩ := c
    simp only [Memory.risingFrom, Bool.and_eq_true, decide_eq_true_eq] at h
    simp only [Memory.lookup]
    rw [if_neg (by omega), if_pos (by omega)]

theorem lookup_store (m : Memory) (i j : Nat) (v : Byte) :
    Memory.lookup (Memory.store m i v) j = if j = i then some v else Memory.lookup m j := by
  induction m with
  | nil => simp only [Memory.store, Memory.lookup]; split <;> simp_all
  | cons c rest ih =>
    obtain ⟨a, w⟩ := c
    simp only [Memory.store]
    split
    · rename_i hia
      simp only [Memory.lookup]
      split
      · rfl
      · split
        · rw [if_neg (by omega), if_pos (by omega)]
        · rfl
    · split
      · rename_i hia
        subst hia
        simp only [Memory.lookup]
        split <;> rfl
      · simp only [Memory.lookup, ih]
        split
        · rw [if_neg (by omega)]
        · split
          · rw [if_neg (by omega)]
          · rfl

/-- A read after a write to the same index gives the value written. -/
@[simp] theorem lookup_store_same (m : Memory) (i : Nat) (v : Byte) :
    Memory.lookup (Memory.store m i v) i = some v := by simp [lookup_store]

/-- A write leaves every other index alone. -/
theorem lookup_store_other (m : Memory) {i j : Nat} (v : Byte) (h : j ≠ i) :
    Memory.lookup (Memory.store m i v) j = Memory.lookup m j := by simp [lookup_store, h]

theorem risingFrom_store {a i : Nat} {m : Memory} {v : Byte} (h : Memory.risingFrom a m = true)
    (hi : a < i) : Memory.risingFrom a (Memory.store m i v) = true := by
  induction m generalizing a with
  | nil => simp [Memory.store, Memory.risingFrom, hi]
  | cons c rest ih =>
    obtain ⟨b, w⟩ := c
    simp only [Memory.risingFrom, Bool.and_eq_true, decide_eq_true_eq] at h
    simp only [Memory.store]
    split
    · simp [Memory.risingFrom, h.2, hi]; omega
    · split
      · rename_i hib; subst hib; simp [Memory.risingFrom, h.2, hi]
      · simp [Memory.risingFrom, h.1, ih h.2 (by omega)]

/-- A store keeps the canonical form. -/
theorem store_wf {m : Memory} (h : Memory.wf m = true) (i : Nat) (v : Byte) :
    Memory.wf (Memory.store m i v) = true := by
  cases m with
  | nil => rfl
  | cons c rest =>
    obtain ⟨a, w⟩ := c
    simp only [Memory.wf] at h
    simp only [Memory.store]
    split
    · simp [Memory.wf, Memory.risingFrom, h]; omega
    · split
      · rename_i hia; subst hia; simpa [Memory.wf] using h
      · exact risingFrom_store h (by omega)

theorem mem_store {m : Memory} {i : Nat} {v : Byte} {c : Host.Cell}
    (h : c ∈ Memory.store m i v) : c = (i, v) ∨ c ∈ m := by
  induction m with
  | nil => left; simpa [Memory.store] using h
  | cons d rest ih =>
    obtain ⟨a, w⟩ := d
    simp only [Memory.store] at h
    split at h
    · simpa using h
    · split at h
      · rcases List.mem_cons.1 h with h | h
        · exact .inl h
        · exact .inr (List.mem_cons_of_mem _ h)
      · rcases List.mem_cons.1 h with h | h
        · exact .inr (h ▸ List.mem_cons_self)
        · exact (ih h).imp id (List.mem_cons_of_mem _)

/-- A store below the capacity keeps a buffer's form and range. -/
theorem store_fits {m : Memory} {cap i : Nat} (h : Memory.fits m cap) (hi : i < cap) (v : Byte) :
    Memory.fits (Memory.store m i v) cap := by
  refine ⟨store_wf h.1 i v, fun c hc => ?_⟩
  rcases mem_store hc with rfl | hc
  · exact hi
  · exact h.2 c hc

theorem storeList_fits {cap : Nat} (l : List Byte) (m : Memory) (i : Nat)
    (h : Memory.fits m cap) (hi : i + l.length ≤ cap) :
    Memory.fits (Memory.storeList m i l) cap := by
  induction l generalizing m i with
  | nil => exact h
  | cons v rest ih =>
    simp only [List.length_cons] at hi
    exact ih _ _ (store_fits h (by omega) v) (by omega)

theorem storeList_wf (l : List Byte) {m : Memory} (h : Memory.wf m = true) (i : Nat) :
    Memory.wf (Memory.storeList m i l) = true := by
  induction l generalizing m i with
  | nil => exact h
  | cons v rest ih => exact ih (store_wf h i v) (i + 1)

/-- What a buffer holds after a list is stored at `i`, `i + 1`, …. -/
theorem lookup_storeList (l : List Byte) (m : Memory) (i j : Nat) :
    Memory.lookup (Memory.storeList m i l) j =
      if i ≤ j ∧ j < i + l.length then l[j - i]? else Memory.lookup m j := by
  induction l generalizing m i with
  | nil =>
    simp only [Memory.storeList, List.length_nil, Nat.add_zero]
    rw [if_neg (by omega)]
  | cons v rest ih =>
    simp only [Memory.storeList, ih, List.length_cons, lookup_store]
    by_cases h1 : j = i
    · subst h1
      rw [if_neg (by omega), if_pos rfl, if_pos (by omega)]; simp
    · by_cases h2 : i + 1 ≤ j ∧ j < i + 1 + rest.length
      · rw [if_pos h2, if_pos (by omega)]
        obtain ⟨k, rfl⟩ : ∃ k, j = i + 1 + k := ⟨j - (i + 1), by omega⟩
        rw [show i + 1 + k - i = k + 1 by omega, show i + 1 + k - (i + 1) = k by omega]
        simp
      · rw [if_neg h2, if_neg h1, if_neg (by omega)]

/-- Storing a list is storing a front part and then the rest behind it. -/
theorem storeList_append (l₁ l₂ : List Byte) (m : Memory) (i : Nat) :
    Memory.storeList m i (l₁ ++ l₂) =
      Memory.storeList (Memory.storeList m i l₁) (i + l₁.length) l₂ := by
  induction l₁ generalizing m i with
  | nil => simp [Memory.storeList]
  | cons v rest ih =>
    simp only [List.cons_append, Memory.storeList, ih, List.length_cons]
    rw [show i + 1 + rest.length = i + (rest.length + 1) by omega]

theorem storeList_snoc (l : List Byte) (v : Byte) (m : Memory) (i : Nat) :
    Memory.storeList m i (l ++ [v]) =
      Memory.store (Memory.storeList m i l) (i + l.length) v := by
  rw [storeList_append]; rfl

/-- IBUF and OBUF at reset. -/
theorem fits_nil (cap : Nat) : Memory.fits [] cap := ⟨rfl, fun c h => by simp at h⟩

/-- Every byte below the length of the written list is the byte of the list (R37). -/
theorem writeOut_cell {s : State} {l : List Byte} {j : Nat} (h : j < l.length) :
    (s.writeOut l).obufCell j = some l[j] := by
  simp [State.obufCell, lookup_storeList, h]

/-- Every byte at or above the length of the written list is as before (R37). -/
theorem writeOut_cell_above {s : State} {l : List Byte} {j : Nat} (h : l.length ≤ j) :
    (s.writeOut l).obufCell j = s.obufCell j := by
  simp [State.obufCell, lookup_storeList, Nat.not_lt.2 h]

@[simp] theorem ibufBytes_length (s : State) (n : Nat) : (s.ibufBytes n).length = n := by
  simp [State.ibufBytes]

theorem ibufBytes_succ (s : State) (n : Nat) :
    s.ibufBytes (n + 1) = s.ibufBytes n ++ [s.ibufByte n] := by
  simp [State.ibufBytes, List.range_succ]

/-- What IBUF reads as depends on its written bytes and the draw alone. -/
theorem ibufByte_congr {s t : State} (h : s.ibuf = t.ibuf) (hr : s.resets = t.resets) (i : Nat) :
    s.ibufByte i = t.ibufByte i := by simp [State.ibufByte, h, hr]

theorem ibufBytes_congr {s t : State} (h : s.ibuf = t.ibuf) (hr : s.resets = t.resets) (n : Nat) :
    s.ibufBytes n = t.ibufBytes n := by
  simp only [State.ibufBytes]
  exact List.map_congr_left fun i _ => ibufByte_congr h hr i

/-! ## The interface checks -/

/-- The interface check of ENC fails (R111). -/
theorem encTooBig_true {s : State} : s.encTooBig = true ↔
    s.cfg.capI < s.ilen.toNat ∨ s.cfg.capO < (s.ilen.toNat + 4) / 5 * 8 := by
  simp only [State.encTooBig, Bool.or_eq_true, decide_eq_true_eq]
  rfl

/-- The interface check of ENC passes (R111). -/
theorem encTooBig_false {s : State} : s.encTooBig = false ↔
    s.ilen.toNat ≤ s.cfg.capI ∧ (s.ilen.toNat + 4) / 5 * 8 ≤ s.cfg.capO := by
  simp only [State.encTooBig, Bool.or_eq_false_iff, decide_eq_false_iff_not, Nat.not_lt]
  rfl

/-- The interface check of DEC fails (R131). -/
theorem decTooBig_true {s : State} : s.decTooBig = true ↔
    s.cfg.capI < s.ilen.toNat ∨ s.cfg.capO < s.ilen.toNat / 8 * 5 := by
  simp only [State.decTooBig, Bool.or_eq_true, decide_eq_true_eq]
  rfl

/-- The interface check of DEC passes (R131). -/
theorem decTooBig_false {s : State} : s.decTooBig = false ↔
    s.ilen.toNat ≤ s.cfg.capI ∧ s.ilen.toNat / 8 * 5 ≤ s.cfg.capO := by
  simp only [State.decTooBig, Bool.or_eq_false_iff, decide_eq_false_iff_not, Nat.not_lt]
  rfl

end Sys2Proof.Machine
end

