-- ==== Sys2Proof/Laws/Bits.lean ====
section
/-! SUPPORT. The bit fields and the accumulator as numbers. -/

namespace Sys2Proof.Machine

/-- The 40-bit word of a chunk as a number (R75). -/
theorem chunkWord_toNat (c : List Byte) : (chunkWord c).toNat =
    (c.getD 0 0#8).toNat * 2 ^ 32 + (c.getD 1 0#8).toNat * 2 ^ 24 + (c.getD 2 0#8).toNat * 2 ^ 16
      + (c.getD 3 0#8).toNat * 2 ^ 8 + (c.getD 4 0#8).toNat := by
  have app : ∀ {n : Nat} (x : BitVec n) (y : Byte), (x ++ y).toNat = x.toNat * 2 ^ 8 + y.toNat := by
    intro n x y
    rw [BitVec.toNat_append, ← Nat.shiftLeft_add_eq_or_of_lt y.isLt, Nat.shiftLeft_eq]
  simp only [chunkWord, app]
  omega

/-- `Sj` of a block as a number (R75). -/
theorem symbolAt_toNat (w : Word40) (j : Nat) :
    (symbolAt w j).toNat = w.toNat / 2 ^ (35 - 5 * j) % 32 := by
  simp [symbolAt, BitVec.extractLsb'_toNat, Nat.shiftRight_eq_div_pow]

/-- Byte `i` of a block as a number (R138). -/
theorem byteAt_toNat (w : Word40) (j : Nat) : (byteAt w j).toNat = w.toNat / 2 ^ (32 - 8 * j) % 256 := by
  simp [byteAt, BitVec.extractLsb'_toNat, Nat.shiftRight_eq_div_pow]

/-- The top `k` valid bits of the accumulator as a number. -/
theorem topBits_toNat (s : State) (k : Nat) :
    (s.topBits k).toNat = s.acc.toNat / 2 ^ (s.cnt.toNat - k) % 2 ^ k := by
  simp [State.topBits, BitVec.extractLsb'_toNat, Nat.shiftRight_eq_div_pow]

/-- Shifting bits in loses no pending bit while the result fits 12 bits (R103(d)). -/
theorem shiftIn_acc_toNat {s : State} {w : Nat} (k : Nat) (b : BitVec w) (hk : b.toNat < 2 ^ k)
    (h : s.acc.toNat * 2 ^ k + b.toNat < 2 ^ 12) :
    (s.shiftIn k (b.setWidth 12)).acc.toNat = s.acc.toNat * 2 ^ k + b.toNat := by
  have hb : b.toNat < 2 ^ 12 := by omega
  have hs : (s.acc <<< k).toNat = s.acc.toNat <<< k := by
    rw [BitVec.toNat_shiftLeft, Nat.mod_eq_of_lt]; rw [Nat.shiftLeft_eq]; omega
  rw [shiftIn_acc, BitVec.toNat_or, hs, BitVec.toNat_setWidth, Nat.mod_eq_of_lt hb,
    ← Nat.shiftLeft_add_eq_or_of_lt hk, Nat.shiftLeft_eq]

/-- CNT after a shift-in, which does not wrap. -/
theorem shiftIn_cnt_toNat {s : State} (k : Nat) (v : AccWord) (h : s.cnt.toNat + k < 16) :
    (s.shiftIn k v).cnt.toNat = s.cnt.toNat + k := by
  rw [shiftIn_cnt, BitVec.toNat_add, BitVec.toNat_ofNat]
  omega

/-- ACC after its top bits are taken. -/
theorem dropBits_acc_toNat (s : State) (k : Nat) :
    (s.dropBits k).acc.toNat = s.acc.toNat % 2 ^ (s.cnt.toNat - k) := by
  have := s.acc.isLt
  have := Nat.mod_le s.acc.toNat (2 ^ (s.cnt.toNat - k))
  rw [dropBits_acc, BitVec.toNat_ofNat]
  exact Nat.mod_eq_of_lt (by omega)

/-- CNT after its top bits are taken. -/
theorem dropBits_cnt_toNat (s : State) (k : Nat) :
    (s.dropBits k).cnt.toNat = s.cnt.toNat - k := by
  have := s.cnt.isLt
  rw [dropBits_cnt, BitVec.toNat_ofNat]
  exact Nat.mod_eq_of_lt (by omega)

theorem ofNat5_eq {x : Nat} {v : Sym} (h : x % 32 = v.toNat) : BitVec.ofNat 5 x = v :=
  BitVec.eq_of_toNat_eq (by simpa using h)

theorem ofNat8_eq {x : Nat} {v : Byte} (h : x % 256 = v.toNat) : BitVec.ofNat 8 x = v :=
  BitVec.eq_of_toNat_eq (by simpa using h)

/-- The values of a list of data characters, read as base-32 digits. -/
def symVal (cs : List Byte) : Nat := cs.foldl (fun a c => a * 32 + (symOf c).toNat) 0

theorem symVal_lt (cs : List Byte) : ∀ a k, a < 2 ^ (5 * k) → cs.foldl (fun a c => a * 32 + (symOf c).toNat) a < 2 ^ (5 * (k + cs.length)) := by
  induction cs with
  | nil => intro a k h; simpa using h
  | cons c r ih =>
    intro a k h
    have hv := (symOf c).isLt
    rw [List.foldl_cons, List.length_cons, show k + (r.length + 1) = (k + 1) + r.length by omega]
    apply ih
    rw [Nat.mul_add, Nat.pow_add]; omega

theorem blockFold_toNat (cs : List Byte) : ∀ (w : Word40) k, w.toNat < 2 ^ (5 * k) → k + cs.length ≤ 8 →
    (cs.foldl (fun (w : Word40) c => (w <<< 5) ||| (symOf c).setWidth 40) w).toNat = cs.foldl (fun a c => a * 32 + (symOf c).toNat) w.toNat := by
  induction cs with
  | nil => intro w k _ _; rfl
  | cons c r ih =>
    intro w k h hk
    have hv := (symOf c).isLt
    simp only [List.length_cons] at hk
    have h40 : w.toNat * 32 + (symOf c).toNat < 2 ^ (5 * (k + 1)) := by rw [Nat.mul_add, Nat.pow_add]; omega
    have hle : 2 ^ (5 * (k + 1)) ≤ 2 ^ 40 := Nat.pow_le_pow_right (by omega) (by omega)
    have e : ((w <<< 5) ||| (symOf c).setWidth 40).toNat = w.toNat * 32 + (symOf c).toNat := by
      have hs : (w <<< 5).toNat = w.toNat <<< 5 := by
        rw [BitVec.toNat_shiftLeft, Nat.mod_eq_of_lt]; rw [Nat.shiftLeft_eq]; omega
      rw [BitVec.toNat_or, hs, BitVec.toNat_setWidth, Nat.mod_eq_of_lt (by omega), ← Nat.shiftLeft_add_eq_or_of_lt hv, Nat.shiftLeft_eq]
    rw [List.foldl_cons, List.foldl_cons, ih _ (k + 1) (by rw [e]; exact h40) (by omega), e]

/-- The 40-bit word of a block as a number (R138). -/
theorem blockWord_toNat (cs : List Byte) (h : cs.length ≤ 8) :
    (blockWord cs).toNat = symVal cs * 2 ^ (5 * (8 - cs.length)) := by
  have e := blockFold_toNat cs 0#40 0 (by simp) (by omega)
  have b := symVal_lt cs 0 0 (by simp)
  simp only [blockWord, BitVec.toNat_shiftLeft, Nat.shiftLeft_eq]
  rw [e, Nat.mod_eq_of_lt]
  · rfl
  · calc _ < 2 ^ (5 * (0 + cs.length)) * 2 ^ (5 * (8 - cs.length)) := Nat.mul_lt_mul_of_pos_right b (by positivity)
      _ = 2 ^ 40 := by rw [← Nat.pow_add]; congr 1; omega

end Sys2Proof.Machine
end

