-- ==== Sys2Proof/Laws/Decode.lean ====
section
/-! SUPPORT. `decode_bits` as a stream of bytes, and what an accepted text is. -/

namespace Sys2Proof.Machine

/-- The bytes that an accumulator of value `a` with `c` valid bits (fewer than 8) and the data characters
still to come give (R144, R145). -/
def decStream : Nat → Nat → List Byte → List Byte
  | _, _, [] => []
  | a, c, x :: rest =>
    let a1 := a * 32 + (symOf x).toNat
    if c + 5 < 8 then decStream a1 (c + 5) rest
    else BitVec.ofNat 8 (a1 / 2 ^ (c - 3)) :: decStream (a1 % 2 ^ (c - 3)) (c - 3) rest

theorem decodeBlock_stream_2 (c0 c1 : Byte) :
    decodeBlock [c0, c1] = decStream 0 0 [c0, c1] := by
  have hw := blockWord_toNat [c0, c1] (by simp)
  have h0 := (symOf c0).isLt
  have h1 := (symOf c1).isLt
  simp only [decStream, decodeBlock, blockBytes, List.length_cons, List.length_nil, List.range,
    List.range.loop, List.map_cons, List.map_nil, Nat.reduceAdd, Nat.reduceMul, Nat.reduceDiv,
    Nat.reduceSub, Nat.reduceLT, ↓reduceIte]
  simp only [symVal, List.foldl_cons, List.foldl_nil, List.length_cons, List.length_nil,
    Nat.reduceAdd, Nat.reduceSub, Nat.reduceMul] at hw
  repeat' apply congr_arg₂
  all_goals first
    | rfl
    | (symm; apply ofNat8_eq; rw [byteAt_toNat, hw]; omega)

theorem decodeBlock_stream_3 (c0 c1 c2 : Byte) :
    decodeBlock [c0, c1, c2] = decStream 0 0 [c0, c1, c2] := by
  have hw := blockWord_toNat [c0, c1, c2] (by simp)
  have h0 := (symOf c0).isLt
  have h1 := (symOf c1).isLt
  have h2 := (symOf c2).isLt
  simp only [decStream, decodeBlock, blockBytes, List.length_cons, List.length_nil, List.range,
    List.range.loop, List.map_cons, List.map_nil, Nat.reduceAdd, Nat.reduceMul, Nat.reduceDiv,
    Nat.reduceSub, Nat.reduceLT, ↓reduceIte]
  simp only [symVal, List.foldl_cons, List.foldl_nil, List.length_cons, List.length_nil,
    Nat.reduceAdd, Nat.reduceSub, Nat.reduceMul] at hw
  repeat' apply congr_arg₂
  all_goals first
    | rfl
    | (symm; apply ofNat8_eq; rw [byteAt_toNat, hw]; omega)

theorem decodeBlock_stream_4 (c0 c1 c2 c3 : Byte) :
    decodeBlock [c0, c1, c2, c3] = decStream 0 0 [c0, c1, c2, c3] := by
  have hw := blockWord_toNat [c0, c1, c2, c3] (by simp)
  have h0 := (symOf c0).isLt
  have h1 := (symOf c1).isLt
  have h2 := (symOf c2).isLt
  have h3 := (symOf c3).isLt
  simp only [decStream, decodeBlock, blockBytes, List.length_cons, List.length_nil, List.range,
    List.range.loop, List.map_cons, List.map_nil, Nat.reduceAdd, Nat.reduceMul, Nat.reduceDiv,
    Nat.reduceSub, Nat.reduceLT, ↓reduceIte]
  simp only [symVal, List.foldl_cons, List.foldl_nil, List.length_cons, List.length_nil,
    Nat.reduceAdd, Nat.reduceSub, Nat.reduceMul] at hw
  repeat' apply congr_arg₂
  all_goals first
    | rfl
    | (symm; apply ofNat8_eq; rw [byteAt_toNat, hw]; omega)

theorem decodeBlock_stream_5 (c0 c1 c2 c3 c4 : Byte) :
    decodeBlock [c0, c1, c2, c3, c4] = decStream 0 0 [c0, c1, c2, c3, c4] := by
  have hw := blockWord_toNat [c0, c1, c2, c3, c4] (by simp)
  have h0 := (symOf c0).isLt
  have h1 := (symOf c1).isLt
  have h2 := (symOf c2).isLt
  have h3 := (symOf c3).isLt
  have h4 := (symOf c4).isLt
  simp only [decStream, decodeBlock, blockBytes, List.length_cons, List.length_nil, List.range,
    List.range.loop, List.map_cons, List.map_nil, Nat.reduceAdd, Nat.reduceMul, Nat.reduceDiv,
    Nat.reduceSub, Nat.reduceLT, ↓reduceIte]
  simp only [symVal, List.foldl_cons, List.foldl_nil, List.length_cons, List.length_nil,
    Nat.reduceAdd, Nat.reduceSub, Nat.reduceMul] at hw
  repeat' apply congr_arg₂
  all_goals first
    | rfl
    | (symm; apply ofNat8_eq; rw [byteAt_toNat, hw]; omega)

theorem decodeBlock_stream_6 (c0 c1 c2 c3 c4 c5 : Byte) :
    decodeBlock [c0, c1, c2, c3, c4, c5] = decStream 0 0 [c0, c1, c2, c3, c4, c5] := by
  have hw := blockWord_toNat [c0, c1, c2, c3, c4, c5] (by simp)
  have h0 := (symOf c0).isLt
  have h1 := (symOf c1).isLt
  have h2 := (symOf c2).isLt
  have h3 := (symOf c3).isLt
  have h4 := (symOf c4).isLt
  have h5 := (symOf c5).isLt
  simp only [decStream, decodeBlock, blockBytes, List.length_cons, List.length_nil, List.range,
    List.range.loop, List.map_cons, List.map_nil, Nat.reduceAdd, Nat.reduceMul, Nat.reduceDiv,
    Nat.reduceSub, Nat.reduceLT, ↓reduceIte]
  simp only [symVal, List.foldl_cons, List.foldl_nil, List.length_cons, List.length_nil,
    Nat.reduceAdd, Nat.reduceSub, Nat.reduceMul] at hw
  repeat' apply congr_arg₂
  all_goals first
    | rfl
    | (symm; apply ofNat8_eq; rw [byteAt_toNat, hw]; omega)

theorem decodeBlock_stream_7 (c0 c1 c2 c3 c4 c5 c6 : Byte) :
    decodeBlock [c0, c1, c2, c3, c4, c5, c6] = decStream 0 0 [c0, c1, c2, c3, c4, c5, c6] := by
  have hw := blockWord_toNat [c0, c1, c2, c3, c4, c5, c6] (by simp)
  have h0 := (symOf c0).isLt
  have h1 := (symOf c1).isLt
  have h2 := (symOf c2).isLt
  have h3 := (symOf c3).isLt
  have h4 := (symOf c4).isLt
  have h5 := (symOf c5).isLt
  have h6 := (symOf c6).isLt
  simp only [decStream, decodeBlock, blockBytes, List.length_cons, List.length_nil, List.range,
    List.range.loop, List.map_cons, List.map_nil, Nat.reduceAdd, Nat.reduceMul, Nat.reduceDiv,
    Nat.reduceSub, Nat.reduceLT, ↓reduceIte]
  simp only [symVal, List.foldl_cons, List.foldl_nil, List.length_cons, List.length_nil,
    Nat.reduceAdd, Nat.reduceSub, Nat.reduceMul] at hw
  repeat' apply congr_arg₂
  all_goals first
    | rfl
    | (symm; apply ofNat8_eq; rw [byteAt_toNat, hw]; omega)

/-- A block of fewer than eight data characters gives its whole bytes (R77). -/
theorem decodeBlock_stream (cs : List Byte) (h : cs.length < 8) :
    decodeBlock cs = decStream 0 0 cs := by
  match cs, h with
  | [], _ => rfl
  | [_], _ => simp [decodeBlock, decStream, blockBytes]
  | [_, _], _ => exact decodeBlock_stream_2 ..
  | [_, _, _], _ => exact decodeBlock_stream_3 ..
  | [_, _, _, _], _ => exact decodeBlock_stream_4 ..
  | [_, _, _, _, _], _ => exact decodeBlock_stream_5 ..
  | [_, _, _, _, _, _], _ => exact decodeBlock_stream_6 ..
  | [_, _, _, _, _, _, _], _ => exact decodeBlock_stream_7 ..

/-- Eight symbols give five bytes and leave the accumulator empty (R75, R147). -/
theorem decStream_full (c0 c1 c2 c3 c4 c5 c6 c7 : Byte) (rest : List Byte) :
    decStream 0 0 (c0 :: c1 :: c2 :: c3 :: c4 :: c5 :: c6 :: c7 :: rest) =
      decodeBlock [c0, c1, c2, c3, c4, c5, c6, c7] ++ decStream 0 0 rest := by
  have hw := blockWord_toNat [c0, c1, c2, c3, c4, c5, c6, c7] (by simp)
  have hs : ∀ c, (symOf c).toNat < 32 := fun c => (symOf c).isLt
  have h0 := hs c0; have h1 := hs c1; have h2 := hs c2; have h3 := hs c3; have h4 := hs c4; have h5 := hs c5; have h6 := hs c6; have h7 := hs c7
  have tail : ∀ x, decStream (x % 2 ^ 0) 0 rest = decStream 0 0 rest := by
    intro x; rw [Nat.pow_zero, Nat.mod_one]
  simp only [decStream, decodeBlock, blockBytes, List.length_cons, List.length_nil, List.range, List.range.loop,
      List.map_cons, List.map_nil, Nat.reduceAdd, Nat.reduceMul, Nat.reduceDiv, Nat.reduceSub, Nat.reduceLT, ↓reduceIte,
      List.cons_append, List.nil_append]
  simp only [symVal, List.foldl_cons, List.foldl_nil, List.length_cons, List.length_nil, Nat.reduceAdd, Nat.reduceSub, Nat.reduceMul] at hw
  rw [tail]
  repeat' apply congr_arg₂
  all_goals first
    | rfl
    | (apply ofNat8_eq; rw [byteAt_toNat, hw]; omega)

/-- `decode_bits` is the stream of bytes (R138, R148). -/
theorem decodeBits_stream (cs : List Byte) : decodeBits cs = decStream 0 0 cs := by
  fun_induction decodeBits cs with
  | case1 c0 c1 c2 c3 c4 c5 c6 c7 rest ih => rw [decStream_full, ih]
  | case2 => rfl
  | case3 c h1 h2 =>
    apply decodeBlock_stream
    match c, h1 with
    | [], _ | [_], _ | [_, _], _ | [_, _, _], _ | [_, _, _, _], _ | [_, _, _, _, _], _ | [_, _, _, _, _, _], _
    | [_, _, _, _, _, _, _], _ => simp
    | _ :: _ :: _ :: _ :: _ :: _ :: _ :: _ :: _, h1 => exact absurd rfl (h1 _ _ _ _ _ _ _ _ _)

/-- `floor((5k + c)/8)` bytes. -/
theorem decStream_length (b : List Byte) : ∀ a c, c < 8 → (decStream a c b).length = (5 * b.length + c) / 8 := by
  induction b with
  | nil => intro a c h; simp [decStream]; omega
  | cons x r ih =>
    intro a c h
    simp only [decStream]
    split
    · rw [ih _ _ (by omega)]; simp only [List.length_cons]; omega
    · simp only [List.length_cons]; rw [ih _ _ (by omega)]; omega

/-- no `=` -/
def noPad (d : List Byte) : Bool := d.all (· != padChar)

/-- The padding count of data followed by pads (R132). -/
theorem padCount_split {d : List Byte} (h : noPad d = true) (p : Nat) :
    padCount (d ++ List.replicate p padChar) = p := by
  simp only [padCount, List.reverse_append, List.reverse_replicate]
  have hd : d.reverse.takeWhile (· == padChar) = [] := by
    cases hr : d.reverse with
    | nil => rfl
    | cons x r =>
      have hx : x ∈ d := by rw [← List.mem_reverse, hr]; exact List.mem_cons_self
      have := List.all_eq_true.1 h x hx
      simp only [bne_iff_ne] at this
      simp [this]
  rw [List.takeWhile_append_of_pos (by intro a ha; rw [List.eq_of_mem_replicate ha]; rfl), hd]
  simp

/-- The data positions of data followed by pads (R132). -/
theorem dataPart_split {d : List Byte} (h : noPad d = true) (p : Nat) :
    dataPart (d ++ List.replicate p padChar) = d := by
  simp [dataPart, padCount_split h]

theorem any_pad_of_noPad {d : List Byte} (h : noPad d = true) : d.any (· == padChar) = false := by
  simp only [noPad, List.all_eq_true, bne_iff_ne] at h
  simp only [List.any_eq_false, beq_iff_eq]
  exact h

/-- every text whose data positions hold no `=` is data and then pads -/
theorem split_of_clean (t : List Byte) (h : (dataPart t).any (· == padChar) = false) :
    ∃ d, noPad d = true ∧ t = d ++ List.replicate (padCount t) padChar := by
  refine ⟨dataPart t, ?_, ?_⟩
  · simp only [List.any_eq_false, beq_iff_eq] at h
    simp only [noPad, List.all_eq_true, bne_iff_ne]; exact h
  · have h1 : t.reverse = t.reverse.takeWhile (· == padChar) ++ t.reverse.dropWhile (· == padChar) :=
      (List.takeWhile_append_dropWhile).symm
    have h2 : t.reverse.takeWhile (· == padChar) = List.replicate (padCount t) padChar := by
      rw [List.eq_replicate_iff]
      refine ⟨rfl, fun b hb => ?_⟩
      simpa using List.mem_takeWhile_imp hb
    have h3 : t = (t.reverse.dropWhile (· == padChar)).reverse ++ List.replicate (padCount t) padChar := by
      rw [h2] at h1
      have := congrArg List.reverse h1
      simpa using this
    have h4 : dataPart t = (t.reverse.dropWhile (· == padChar)).reverse := by
      have hl := congrArg List.length h3
      rw [List.length_append, List.length_replicate] at hl
      calc dataPart t = t.take (t.reverse.dropWhile (· == padChar)).reverse.length := by
            rw [dataPart]; congr 1; omega
        _ = ((t.reverse.dropWhile (· == padChar)).reverse ++ List.replicate (padCount t) padChar).take
              (t.reverse.dropWhile (· == padChar)).reverse.length := by rw [← h3]
        _ = _ := List.take_left
    rw [h4]; exact h3

/-- A valid padding count is at most 6. -/
theorem padCountOk_le {p : Nat} (h : padCountOk p = true) : p ≤ 6 := by
  simp only [padCountOk, Bool.or_eq_true, beq_iff_eq] at h; omega

/-- what an accepted text is -/
theorem base32Decode_ok {t out : List Byte} (h : base32Decode t = .ok out) :
    t.length % 8 = 0 ∧ out = decodeBits (dataPart t) ∧ paddingBad t = false ∧ characterBad t = false ∧ strictBad t = false ∧
     ∃ d, noPad d = true ∧ t = d ++ List.replicate (padCount t) padChar ∧ dataPart t = d ∧ padCountOk (padCount t) = true := by
  simp only [base32Decode] at h
  split at h
  · simp at h
  · split at h
    · simp at h
    · split at h
      · simp at h
      · split at h
        · simp at h
        · rename_i h1 h2 h3 h4
          simp only [Except.ok.injEq] at h
          refine ⟨by omega, h.symm, by simpa using h2, by simpa using h3, by simpa using h4, ?_⟩
          simp only [paddingBad, Bool.or_eq_true, Bool.not_eq_true', not_or, Bool.not_eq_true, Bool.not_eq_false] at h2
          obtain ⟨d, hd, ht⟩ := split_of_clean t h2.2
          refine ⟨d, hd, ht, ?_, h2.1⟩
          conv_lhs => rw [ht]
          exact dataPart_split hd _

end Sys2Proof.Machine
end

