-- ==== Sys2Proof/Laws/Encode.lean ====
section
/-! SUPPORT. `encode` as a stream of symbols. -/

namespace Sys2Proof.Machine

/-- data characters emitted from the accumulators contents and the bytes still to come -/
def encStream : Nat → Nat → List Byte → List Byte
  | a, c, [] => if 0 < c then [valueToChar (BitVec.ofNat 5 (a * 2 ^ (5 - c)))] else []
  | a, c, b :: rest =>
    let a1 := a * 256 + b.toNat
    if c + 3 < 5 then valueToChar (BitVec.ofNat 5 (a1 / 2 ^ (c + 3))) :: encStream (a1 % 2 ^ (c + 3)) (c + 3) rest
    else valueToChar (BitVec.ofNat 5 (a1 / 2 ^ (c + 3))) :: valueToChar (BitVec.ofNat 5 (a1 % 2 ^ (c + 3) / 2 ^ (c - 2)))
      :: encStream (a1 % 2 ^ (c + 3) % 2 ^ (c - 2)) (c - 2) rest

/-- Five bytes give one full block and leave the accumulator empty (R75, R123). -/
theorem encStream_full (b0 b1 b2 b3 b4 : Byte) (rest : List Byte) :
    encStream 0 0 (b0 :: b1 :: b2 :: b3 :: b4 :: rest) = encodeBlock [b0, b1, b2, b3, b4] ++ encStream 0 0 rest := by
  have h0 := b0.isLt; have h1 := b1.isLt; have h2 := b2.isLt; have h3 := b3.isLt; have h4 := b4.isLt
  simp only [encStream, encodeBlock, dataChars, List.length_cons, List.length_nil, List.range, List.range.loop,
    List.map_cons, List.map_nil, List.replicate, Nat.reduceAdd, Nat.reduceMul, Nat.reduceDiv, Nat.reduceSub, Nat.reduceLT,
    List.cons_append, List.nil_append, List.append_nil, ↓reduceIte]
  have tail : ∀ x, encStream (x % 2 ^ 0) 0 rest = encStream 0 0 rest := by
    intro x; rw [Nat.pow_zero, Nat.mod_one]
  rw [tail]
  repeat' apply congr_arg₂
  all_goals first
    | rfl
    | (apply congr_arg; apply ofNat5_eq; rw [symbolAt_toNat, chunkWord_toNat]
       simp only [List.getD_cons_zero, List.getD_cons_succ]; omega)

/-- A partial chunk gives its data characters, then the pads (R76). -/
theorem encodeBlock_stream (c : List Byte) (h : c.length < 5) (h0 : 0 < c.length) :
    encodeBlock c = encStream 0 0 c ++ List.replicate (8 - dataChars c.length) padChar := by
  match c, h, h0 with
  | [b0], _, _ =>
    have h0 := b0.isLt
    simp only [encStream, encodeBlock, dataChars, List.length_cons, List.length_nil, List.range, List.range.loop,
      List.map_cons, List.map_nil, List.replicate, Nat.reduceAdd, Nat.reduceMul, Nat.reduceDiv, Nat.reduceSub, Nat.reduceLT,
      List.cons_append, List.nil_append, ↓reduceIte]
    repeat' apply congr_arg₂
    all_goals first
      | rfl
      | (apply congr_arg; symm; apply ofNat5_eq; rw [symbolAt_toNat, chunkWord_toNat]
         simp; omega)
  | [b0, b1], _, _ =>
    have h0 := b0.isLt; have h1 := b1.isLt
    simp only [encStream, encodeBlock, dataChars, List.length_cons, List.length_nil, List.range, List.range.loop,
      List.map_cons, List.map_nil, List.replicate, Nat.reduceAdd, Nat.reduceMul, Nat.reduceDiv, Nat.reduceSub, Nat.reduceLT,
      List.cons_append, List.nil_append, ↓reduceIte]
    repeat' apply congr_arg₂
    all_goals first
      | rfl
      | (apply congr_arg; symm; apply ofNat5_eq; rw [symbolAt_toNat, chunkWord_toNat]
         simp; omega)
  | [b0, b1, b2], _, _ =>
    have h0 := b0.isLt; have h1 := b1.isLt; have h2 := b2.isLt
    simp only [encStream, encodeBlock, dataChars, List.length_cons, List.length_nil, List.range, List.range.loop,
      List.map_cons, List.map_nil, List.replicate, Nat.reduceAdd, Nat.reduceMul, Nat.reduceDiv, Nat.reduceSub, Nat.reduceLT,
      List.cons_append, List.nil_append, ↓reduceIte]
    repeat' apply congr_arg₂
    all_goals first
      | rfl
      | (apply congr_arg; symm; apply ofNat5_eq; rw [symbolAt_toNat, chunkWord_toNat]
         simp; omega)
  | [b0, b1, b2, b3], _, _ =>
    have h0 := b0.isLt; have h1 := b1.isLt; have h2 := b2.isLt; have h3 := b3.isLt
    simp only [encStream, encodeBlock, dataChars, List.length_cons, List.length_nil, List.range, List.range.loop,
      List.map_cons, List.map_nil, List.replicate, Nat.reduceAdd, Nat.reduceMul, Nat.reduceDiv, Nat.reduceSub, Nat.reduceLT,
      List.cons_append, List.nil_append, ↓reduceIte]
    repeat' apply congr_arg₂
    all_goals first
      | rfl
      | (apply congr_arg; symm; apply ofNat5_eq; rw [symbolAt_toNat, chunkWord_toNat]
         simp; omega)

/-- `ceil((8n + c)/5)` data characters. -/
theorem encStream_length (b : List Byte) : ∀ a c, c < 5 → (encStream a c b).length = (8 * b.length + c + 4) / 5 := by
  induction b with
  | nil => intro a c h; simp only [encStream]; split <;> simp <;> omega
  | cons x r ih =>
    intro a c h
    simp only [encStream]
    split
    · simp only [List.length_cons]; rw [ih _ _ (by omega)]; omega
    · simp only [List.length_cons]; rw [ih _ _ (by omega)]; omega

/-- `encode` is the stream of data characters, then the pads (R113, R123). -/
theorem base32Encode_stream (b : List Byte) :
    base32Encode b = encStream 0 0 b ++ List.replicate (encodedLength b.length - (encStream 0 0 b).length) padChar := by
  rw [encStream_length _ _ _ (by omega)]
  fun_induction base32Encode b with
  | case1 b0 b1 b2 b3 b4 rest ih =>
    rw [encStream_full, ih, List.append_assoc]
    congr 3
    simp only [encodedLength, List.length_cons]; omega
  | case2 => simp [encStream, encodedLength]
  | case3 c h1 h2 =>
    have hl : c.length < 5 := by
      match c, h1 with
      | [], _ => simp
      | [_], _ => simp
      | [_, _], _ => simp
      | [_, _, _], _ => simp
      | [_, _, _, _], _ => simp
      | _ :: _ :: _ :: _ :: _ :: _, h1 => exact absurd rfl (h1 _ _ _ _ _ _)
    have h0 : 0 < c.length := List.length_pos_iff.2 h2
    rw [encodeBlock_stream c hl h0]
    congr 2
    simp only [dataChars, encodedLength]; omega

/-- The length of an encoding (R78). -/
theorem base32Encode_length (b : List Byte) : (base32Encode b).length = encodedLength b.length := by
  have h := encStream_length b 0 0 (by omega)
  rw [base32Encode_stream, List.length_append, List.length_replicate, h]
  simp only [encodedLength]; omega

end Sys2Proof.Machine
end

