-- ==== Sys2Proof/Laws/Scan.lean ====
section
/-! SUPPORT. The scan flags of a whole text and the verdict they give. -/

namespace Sys2Proof.Machine

/-- The scan of a text in two parts. -/
theorem scanText_append (m : Nat) (a b : List Byte) : ∀ i f,
    scanText m i (a ++ b) f = scanText m (i + a.length) b (scanText m i a f) := by
  induction a with
  | nil => intro i f; rfl
  | cons c r ih => intro i f; simp only [List.cons_append, scanText, ih, List.length_cons]; rw [show i + 1 + r.length = i + (r.length + 1) by omega]

/-- value of the last character of a list that has one -/
def lastValid (d : List Byte) (v : Sym) : Sym := d.foldl (fun v c => (charToValue c).getD v) v

/-- The scan of data characters before any `=`. -/
theorem scanText_data (m : Nat) (d : List Byte) (h : noPad d = true) : ∀ i f, f.seenPad = false →
    scanText m i d f = { f with chrErr := f.chrErr || d.any fun c => (charToValue c).isNone, lastV := lastValid d f.lastV } := by
  induction d with
  | nil => intro i f _; simp [scanText, lastValid]
  | cons c r ih =>
    intro i f hf
    simp only [noPad, List.all_cons, Bool.and_eq_true, bne_iff_ne] at h
    simp only [scanText]
    have e : scanChar m i c f = { f with chrErr := f.chrErr || (charToValue c).isNone, lastV := (charToValue c).getD f.lastV } := by
      simp only [scanChar, if_neg h.1, hf]
      cases charToValue c <;> simp
    rw [e, ih (by simpa [noPad] using h.2) _ _ (by exact hf)]
    simp [lastValid, Bool.or_assoc]

/-- The scan of `=` characters in the final block. -/
theorem scanText_pads (m p : Nat) : ∀ i f, m ≤ i + 8 →
    scanText m i (List.replicate p padChar) f =
      { f with seenPad := f.seenPad || decide (0 < p), padCnt := f.padCnt + p } := by
  induction p with
  | zero => intro i f _; simp [scanText]
  | succ p ih =>
    intro i f h
    simp only [List.replicate_succ, scanText]
    have e : scanChar m i padChar f = { f with seenPad := true, padCnt := f.padCnt + 1 } := by
      simp only [scanChar, if_true]; rw [if_neg (by omega)]
    rw [e, ih _ _ (by omega)]
    simp; omega

/-- The scan of data characters and then at most eight pads. -/
theorem scanText_split {m p : Nat} {d : List Byte} (h : noPad d = true) (hm : m ≤ d.length + 8) :
    scanText m 0 (d ++ List.replicate p padChar) ScanFlags.zero =
      { seenPad := decide (0 < p), padCnt := p, padErr := false,
        chrErr := d.any fun c => (charToValue c).isNone, lastV := lastValid d 0#5 } := by
  rw [scanText_append, scanText_data m d h _ _ rfl, scanText_pads _ _ _ _ (by omega)]
  simp [ScanFlags.zero]

/-- A scan without PADERR has read data characters and then pads of the final block only. -/
theorem scanText_padErr_split (m : Nat) (u : List Byte) :
    u.length ≤ m → (scanText m 0 u ScanFlags.zero).padErr = false →
    ∃ d p, noPad d = true ∧ u = d ++ List.replicate p padChar ∧ (0 < p → m ≤ d.length + 8) := by
  induction u using List.reverseRecOn with
  | nil => intro _ _; exact ⟨[], 0, rfl, rfl, by omega⟩
  | append_singleton u c ih =>
    intro hl he
    rw [scanText_append] at he
    simp only [List.length_append, List.length_singleton, scanText] at hl he
    have he' : (scanText m 0 u ScanFlags.zero).padErr = false := by
      simp only [scanChar] at he
      split at he
      · split at he <;> simp_all
      · split at he
        · simp_all
        · split at he <;> simp_all
    obtain ⟨d, p, hd, rfl, hp⟩ := ih (by omega) he'
    by_cases hc : c = padChar
    · subst hc
      refine ⟨d, p + 1, hd, by rw [List.replicate_succ', List.append_assoc], fun _ => ?_⟩
      by_cases h0 : 0 < p
      · exact hp h0
      · have : p = 0 := by omega
        subst this
        simp only [scanChar, if_true] at he
        split at he
        · simp at he
        · simp at hl ⊢; simp at *; omega
    · have h0 : p = 0 := by
        by_contra h0
        have hm := hp (by omega)
        rw [scanText_split hd hm] at he
        simp only [scanChar, if_neg hc] at he
        rw [if_pos (by simp; omega)] at he
        simp at he
      subst h0
      refine ⟨d ++ [c], 0, ?_, by simp, by omega⟩
      simp only [noPad, List.all_append, List.all_cons, List.all_nil, Bool.and_true, Bool.and_eq_true, bne_iff_ne] at hd ⊢
      exact ⟨hd, hc⟩

/-- LASTV after a list of valid characters. -/
theorem lastValid_getLast {d : List Byte} {v : Sym} (h : d.any (fun c => (charToValue c).isNone) = false) (h0 : d ≠ []) :
    lastValid d v = symOf (d.getLast h0) := by
  obtain ⟨r, c, rfl⟩ := (List.eq_nil_or_concat d).resolve_left h0
  simp only [List.concat_eq_append] at h ⊢
  simp only [List.any_append, List.any_cons, List.any_nil, Bool.or_false, Bool.or_eq_false_iff] at h
  simp only [lastValid, List.foldl_append, List.foldl_cons, List.foldl_nil, symOf, List.getLast_append, List.getLast_singleton]
  cases hc : charToValue c with
  | none => simp [hc] at h
  | some v => simp [hc]

/-- the verdict of a scan -/
def scanVerdict (m : Nat) (f : ScanFlags) : Option Err :=
  if f.padErr = true ∨ padCountOk f.padCnt = false then some .invalidPadding
  else if f.chrErr then some .invalidCharacter
  else if 0 < m ∧ strictViolation f.lastV f.padCnt = true then some .invalidPadding
  else none

/-- The first test of the verdict is check 2 (R133, R143). -/
theorem scan_ok_iff (t : List Byte) :
    ((scanText t.length 0 t ScanFlags.zero).padErr = true ∨
        padCountOk (scanText t.length 0 t ScanFlags.zero).padCnt = false) ↔ paddingBad t = true := by
  constructor
  · intro h
    by_contra hb
    simp only [paddingBad, Bool.or_eq_true, Bool.not_eq_true', not_or, Bool.not_eq_true, Bool.not_eq_false] at hb
    obtain ⟨d, hd, ht⟩ := split_of_clean t hb.2
    have hp := padCountOk_le hb.1
    have hl := congrArg List.length ht
    simp only [List.length_append, List.length_replicate] at hl
    have e := scanText_split (m := t.length) (p := padCount t) hd (by omega)
    rw [← ht] at e
    rw [e] at h
    simp [hb.1] at h
  · intro hb
    by_contra h
    simp only [not_or, Bool.not_eq_true, Bool.not_eq_false] at h
    obtain ⟨d, p, hd, ht, hp⟩ := scanText_padErr_split t.length t (le_refl _) h.1
    have hl := congrArg List.length ht
    simp only [List.length_append, List.length_replicate] at hl
    have e := scanText_split (m := t.length) (p := p) hd (by by_cases h0 : 0 < p <;> [exact hp h0; omega])
    rw [← ht] at e
    rw [e] at h
    rw [ht] at hb
    simp [paddingBad, padCount_split hd, dataPart_split hd, any_pad_of_noPad hd, h.2] at hb

/-- The verdict step raises what the checks of `decode` raise, in their order (R143, R148). -/
theorem scan_verdict (t : List Byte) (hm : t.length % 8 = 0) :
    scanVerdict t.length (scanText t.length 0 t ScanFlags.zero) =
      match base32Decode t with | .error e => some e | .ok _ => none := by
  simp only [scanVerdict, base32Decode]
  rw [if_neg (c := ¬ (t.length % 8 = 0)) (by omega)]
  have hi := scan_ok_iff t
  by_cases hb : paddingBad t = true
  · rw [if_pos (hi.2 hb), if_pos hb]
  · rw [if_neg (fun h => hb (hi.1 h)), if_neg hb]
    simp only [paddingBad, Bool.or_eq_true, Bool.not_eq_true', not_or, Bool.not_eq_true, Bool.not_eq_false] at hb
    obtain ⟨d, hd, ht⟩ := split_of_clean t hb.2
    have hp := padCountOk_le hb.1
    have hl := congrArg List.length ht
    simp only [List.length_append, List.length_replicate] at hl
    have e := scanText_split (m := t.length) (p := padCount t) hd (by omega)
    rw [← ht] at e
    have hdp : dataPart t = d := by rw [ht, dataPart_split hd]
    rw [e]
    simp only [characterBad, strictBad, hdp]
    by_cases hc : (d.any fun c => (charToValue c).isNone) = true
    · rw [if_pos hc, if_pos hc]
    · rw [if_neg hc, if_neg hc]
      simp only [Bool.not_eq_true] at hc
      by_cases h0 : d = []
      · subst h0
        simp only [List.length_nil] at hl
        rw [if_neg (by omega)]
        simp
      · have h8 : 0 < t.length := by have := List.length_pos_iff.2 h0; omega
        rw [lastValid_getLast hc h0, List.getLast?_eq_some_getLast h0]
        simp only [h8, true_and]
        split <;> rfl

end Sys2Proof.Machine
end

