-- ==== Sys2Proof/Laws/Micro.lean ====
section
/-! SUPPORT. The micro-steps one by one, and whole commands as runs of micro-steps. -/

namespace Sys2Proof.Machine

/-- `k` micro-steps, each taken in a phase other than IDLE. -/
def busyRun : Nat → State → Option State
  | 0, s => some s
  | k + 1, s =>
    if s.ph = .idle then none
    else
      match microStep s with
      | .next t => busyRun k t
      | _ => none

/-- One micro-step at the front of a run. -/
theorem busyRun_next {s t : State} {p : Phase} (k : Nat) (hp : s.ph = p) (h : microStep s = .next t)
    (hi : p ≠ .idle := by decide) : busyRun (k + 1) s = busyRun k t := by
  subst hp; simp [busyRun, h, hi]

/-- Two runs after each other. -/
theorem busyRun_add {s t : State} (j k : Nat) (h : busyRun j s = some t) :
    busyRun (j + k) s = busyRun k t := by
  induction j generalizing s with
  | zero => simp only [busyRun, Option.some.injEq] at h; subst h; simp
  | succ j ih =>
    rw [show j + 1 + k = j + k + 1 by omega]
    simp only [busyRun] at h ⊢
    split at h
    · simp at h
    · rename_i hi
      rw [if_neg hi]
      split at h <;> simp_all

/-- The input from index `i` on is the byte at `i` and the input from `i + 1` on. -/
theorem ibufBytes_drop {s : State} {n i : Nat} (h : i < n) :
    (s.ibufBytes n).drop i = s.ibufByte i :: (s.ibufBytes n).drop (i + 1) := by
  rw [List.drop_eq_getElem_cons (by simpa using h)]; simp [State.ibufBytes]

/-- A front part of the input. -/
theorem ibufBytes_take (s : State) {k n : Nat} (h : k ≤ n) : (s.ibufBytes n).take k = s.ibufBytes k := by
  simp [State.ibufBytes, ← List.map_take, List.take_range, Nat.min_eq_left h]

theorem state_ext_acc {s : State} {a : AccWord} {c : CntWord} (ha : s.acc = a) (hc : s.cnt = c) :
    s = { s with acc := a, cnt := c } := by subst ha hc; rfl

/-- Step absorb (R118). -/
theorem microStep_encAbsorb {s : State} (hp : s.ph = .encRun) (hc : s.cnt.toNat < 5) (hi : s.ip < s.lenOperand)
    (hcap : s.lenOperand ≤ s.cfg.capI) :
    microStep s = .next ({ s with ip := s.ip + 1 }.shiftIn 8 ((s.ibufByte s.ip).setWidth 12)) := by
  simp only [microStep, hp, encRunStep, encAbsorb, State.readIn]
  rw [if_neg (by omega), if_pos hi, if_pos (by omega)]

/-- Step emit (R117). -/
theorem microStep_encEmit {s : State} (hp : s.ph = .encRun) (hc : 5 ≤ s.cnt.toNat) (ho : s.optr < s.cfg.capO) :
    microStep s = .next { s.dropBits 5 with
      obuf := Memory.store s.obuf s.optr (valueToChar (s.topBits 5)), optr := s.optr + 1 } := by
  simp only [microStep, hp, encRunStep, encEmit, State.putOut]
  rw [if_pos hc, if_pos (by simpa using ho)]; rfl

/-- Step flush (R119). -/
theorem microStep_encFlush {s : State} (hp : s.ph = .encRun) (hc : s.cnt.toNat < 5) (hi : ¬ s.ip < s.lenOperand)
   (h0 : 0 < s.cnt.toNat) (ho : s.optr < s.cfg.capO) :
    microStep s = .next { s with
      acc := 0#12, cnt := 0#4, obuf := Memory.store s.obuf s.optr (valueToChar ((s.acc <<< (5 - s.cnt.toNat)).setWidth 5)), optr := s.optr + 1 } := by
  simp only [microStep, hp, encRunStep, encFlush, State.putOut]
  rw [if_neg (by omega), if_neg hi, if_pos h0, if_pos ho]

/-- Step pad (R120). -/
theorem microStep_encPad {s : State} (hp : s.ph = .encRun) (hc : s.cnt.toNat = 0) (hi : ¬ s.ip < s.lenOperand)
   (h0 : s.optr % 8 ≠ 0) (ho : s.optr < s.cfg.capO) :
    microStep s = .next { s with
      obuf := Memory.store s.obuf s.optr padChar, optr := s.optr + 1 } := by
  simp only [microStep, hp, encRunStep, encPad, State.putOut]
  rw [if_neg (by omega), if_neg hi, if_neg (by omega), if_pos h0, if_pos ho]

/-- Step finish (R121). -/
theorem microStep_encFinish {s : State} (hp : s.ph = .encRun) (hc : s.cnt.toNat = 0) (hi : ¬ s.ip < s.lenOperand)
   (h0 : s.optr % 8 = 0) :
    microStep s = .next (s.completeOut s.optr) := by
  simp only [microStep, hp, encRunStep, encFinish]
  rw [if_neg (by omega), if_neg hi, if_neg (by omega), if_neg (by omega)]

/-- The emit, absorb and flush steps of a command (R117 to R119). -/
theorem encRun_stream (k : Nat) : ∀ (s : State), s.ph = .encRun → s.lenOperand ≤ s.cfg.capI → s.ip + k = s.lenOperand →
    s.cnt.toNat < 5 → s.acc.toNat < 2 ^ s.cnt.toNat →
    ∀ l, l = encStream s.acc.toNat s.cnt.toNat ((s.ibufBytes s.lenOperand).drop s.ip) →
    s.optr + l.length ≤ s.cfg.capO →
    busyRun (k + l.length) s = some { s with
      ip := s.lenOperand, acc := 0#12, cnt := 0#4, optr := s.optr + l.length, obuf := Memory.storeList s.obuf s.optr l } := by
  induction k with
  | zero =>
    intro s hp hcap hk hc ha l hl ho
    have hd : (s.ibufBytes s.lenOperand).drop s.ip = [] := by
      rw [List.drop_eq_nil_iff]; simp; omega
    rw [hd] at hl
    simp only [encStream] at hl
    split at hl
    · rename_i h0
      subst hl
      have := microStep_encFlush hp hc (by omega) h0 (by simpa using ho)
      simp only [List.length_singleton, Nat.zero_add]
      rw [busyRun_next 0 hp this]
      simp only [busyRun, Memory.storeList]
      have hv : (s.acc <<< (5 - s.cnt.toNat)).setWidth 5 = BitVec.ofNat 5 (s.acc.toNat * 2 ^ (5 - s.cnt.toNat)) := by
        apply BitVec.eq_of_toNat_eq
        simp only [BitVec.toNat_setWidth, BitVec.toNat_shiftLeft, BitVec.toNat_ofNat, Nat.shiftLeft_eq]
        omega
      rw [hv, ← show s.ip = s.lenOperand by omega]
    · subst hl
      rename_i h0
      simp only [List.length_nil, Nat.add_zero, busyRun, Memory.storeList, ← show s.ip = s.lenOperand by omega]
      rw [state_ext_acc (s := s) (a := 0#12) (c := 0#4)]
      · apply BitVec.eq_of_toNat_eq; simp only [BitVec.toNat_ofNat]
        rw [show s.cnt.toNat = 0 by omega] at ha; simpa using ha
      · apply BitVec.eq_of_toNat_eq; simp; omega
  | succ k ih =>
    intro s hp hcap hk hc ha l hl ho
    have hb := (s.ibufByte s.ip).isLt
    have hac : s.acc.toNat < 16 := by
      have : 2 ^ s.cnt.toNat ≤ 2 ^ 4 := Nat.pow_le_pow_right (by omega) (by omega)
      omega
    have h1 := microStep_encAbsorb hp hc (by omega) hcap
    generalize hs1 : State.shiftIn { s with ip := s.ip + 1 } 8 ((s.ibufByte s.ip).setWidth 12) = s1 at h1
    have hp1 : s1.ph = .encRun := by subst hs1; exact hp
    have a1 : s1.acc.toNat = s.acc.toNat * 256 + (s.ibufByte s.ip).toNat := by
      subst hs1; exact shiftIn_acc_toNat (s := { s with ip := s.ip + 1 }) 8 _ hb (by simp only; omega)
    have c1 : s1.cnt.toNat = s.cnt.toNat + 8 := by
      subst hs1; exact shiftIn_cnt_toNat (s := { s with ip := s.ip + 1 }) 8 _ (by simp only; omega)
    rw [ibufBytes_drop (by omega)] at hl
    simp only [encStream] at hl
    have hl0 : 0 < l.length := by subst hl; split <;> simp
    have h2 := microStep_encEmit (s := s1) (by subst hs1; exact hp) (by omega) (by subst hs1; simp; omega)
    generalize hs2 : ({ s1.dropBits 5 with obuf := Memory.store s1.obuf s1.optr (valueToChar (s1.topBits 5)), optr := s1.optr + 1 } : State) = s2 at h2
    have hp2 : s2.ph = .encRun := by subst hs2; exact hp1
    have a2 : s2.acc.toNat = (s.acc.toNat * 256 + (s.ibufByte s.ip).toNat) % 2 ^ (s.cnt.toNat + 3) := by
      subst hs2; simp only [dropBits_acc_toNat, a1, c1]; rw [show s.cnt.toNat + 8 - 5 = s.cnt.toNat + 3 by omega]
    have c2 : s2.cnt.toNat = s.cnt.toNat + 3 := by
      subst hs2; simp only [dropBits_cnt_toNat, c1]; omega
    have v1 : s1.topBits 5 = BitVec.ofNat 5 ((s.acc.toNat * 256 + (s.ibufByte s.ip).toNat) / 2 ^ (s.cnt.toNat + 3)) := by
      apply BitVec.eq_of_toNat_eq
      rw [topBits_toNat, a1, c1, BitVec.toNat_ofNat, show s.cnt.toNat + 8 - 5 = s.cnt.toNat + 3 by omega]
    have m2 : s2.acc.toNat < 2 ^ s2.cnt.toNat := by rw [a2, c2]; exact Nat.mod_lt _ (by positivity)
    split at hl
    · rename_i hc2
      generalize hr : encStream _ _ _ = r at hl
      have h3 := ih s2 (by subst hs2 hs1; exact hp) (by subst hs2 hs1; exact hcap) (by subst hs2 hs1; simp only [State.lenOperand, dropBits_ip, dropBits_ilen, shiftIn_ip, shiftIn_ilen] at *; omega)
        (by omega) m2 r (by rw [← hr, a2, c2]; subst hs2 hs1; rfl) (by subst hl hs2 hs1; simp at ho ⊢; omega)
      subst hl
      rw [show k + 1 + (_ :: r : List Byte).length = (k + r.length) + 1 + 1 by simp; omega, busyRun_next _ hp h1, busyRun_next _ hp1 h2, h3, ← v1]
      subst hs2 hs1
      simp [Memory.storeList, State.lenOperand]
      omega
    · rename_i hc2
      generalize hr : encStream _ _ _ = r at hl
      have h3 := microStep_encEmit (s := s2) (by subst hs2 hs1; exact hp) (by omega) (by subst hl hs2 hs1; simp at ho ⊢; omega)
      generalize hs3 : ({ s2.dropBits 5 with obuf := Memory.store s2.obuf s2.optr (valueToChar (s2.topBits 5)), optr := s2.optr + 1 } : State) = s3 at h3
      have a3 : s3.acc.toNat = (s.acc.toNat * 256 + (s.ibufByte s.ip).toNat) % 2 ^ (s.cnt.toNat + 3) % 2 ^ (s.cnt.toNat - 2) := by
        subst hs3; simp only [dropBits_acc_toNat, a2, c2]; rw [show s.cnt.toNat + 3 - 5 = s.cnt.toNat - 2 by omega]
      have c3 : s3.cnt.toNat = s.cnt.toNat - 2 := by
        subst hs3; simp only [dropBits_cnt_toNat, c2]; omega
      have v2 : s2.topBits 5 = BitVec.ofNat 5 ((s.acc.toNat * 256 + (s.ibufByte s.ip).toNat) % 2 ^ (s.cnt.toNat + 3) / 2 ^ (s.cnt.toNat - 2)) := by
        apply BitVec.eq_of_toNat_eq
        rw [topBits_toNat, a2, c2, BitVec.toNat_ofNat, show s.cnt.toNat + 3 - 5 = s.cnt.toNat - 2 by omega]
      have m3 : s3.acc.toNat < 2 ^ s3.cnt.toNat := by rw [a3, c3]; exact Nat.mod_lt _ (by positivity)
      have h4 := ih s3 (by subst hs3 hs2 hs1; exact hp) (by subst hs3 hs2 hs1; exact hcap) (by subst hs3 hs2 hs1; simp only [State.lenOperand, dropBits_ip, dropBits_ilen, shiftIn_ip, shiftIn_ilen] at *; omega)
        (by omega) m3 r (by rw [← hr, a3, c3]; subst hs3 hs2 hs1; rfl) (by subst hl hs3 hs2 hs1; simp at ho ⊢; omega)
      subst hl
      rw [show k + 1 + (_ :: _ :: r : List Byte).length = (k + r.length) + 1 + 1 + 1 by simp; omega, busyRun_next _ hp h1, busyRun_next _ hp1 h2, busyRun_next _ hp2 h3, h4, ← v1, ← v2]
      subst hs3 hs2 hs1
      simp [Memory.storeList, State.lenOperand]
      omega

/-- The pad steps of a command (R120). -/
theorem encRun_pads (k : Nat) : ∀ (s : State), s.ph = .encRun → s.cnt.toNat = 0 → s.lenOperand ≤ s.ip → k < 8 →
    (s.optr + k) % 8 = 0 → s.optr + k ≤ s.cfg.capO →
    busyRun k s = some { s with
      optr := s.optr + k, obuf := Memory.storeList s.obuf s.optr (List.replicate k padChar) } := by
  induction k with
  | zero => intro s _ _ _ _ _ _; simp [busyRun, Memory.storeList]
  | succ k ih =>
    intro s hp hc hi hk hm ho
    have h1 := microStep_encPad hp hc (by omega) (by omega) (by omega)
    rw [busyRun_next _ hp h1, ih]
    · simp [List.replicate_succ, Memory.storeList, Nat.add_assoc, Nat.add_comm 1 k]
    · exact hp
    · exact hc
    · exact hi
    · omega
    · simp only; omega
    · simp only; omega

/-- ENC by micro-steps, from DISPATCH to the finish step (R122, R123). -/
theorem enc_busyRun (s : State) (hp : s.ph = .dispatch) (hd : decode s.cmdr = .ok .enc) (hfit : s.encTooBig = false) :
    busyRun (s.lenOperand + encodedLength s.lenOperand + 2) s = some
      ({ s.writeOut (base32Encode (s.ibufBytes s.lenOperand)) with
          ip := s.lenOperand, optr := encodedLength s.lenOperand }.completeOut (encodedLength s.lenOperand)) := by
  have hfit' := hfit
  simp only [State.encTooBig, Bool.or_eq_false_iff, decide_eq_false_iff_not, Nat.not_lt] at hfit
  have h0 : microStep s = .next (s.enterRun .encRun) := by
    simp [microStep, hp, dispatchWith, hd, microDispatch, encDispatch, hfit']
  set n := s.lenOperand with hn
  set b := s.ibufBytes n with hb
  have hbl : b.length = n := by simp [hb]
  have hsl := encStream_length b 0 0 (by omega)
  rw [hbl] at hsl
  have h1 := encRun_stream n (s.enterRun .encRun) rfl hfit.1 (by simp [State.lenOperand, hn]) (by simp) (by simp)
    (encStream 0 0 b) rfl (by rw [hsl]; simp [encodedLength] at *; omega)
  have h2 := encRun_pads (encodedLength n - (encStream 0 0 b).length)
     { s.enterRun .encRun with
        ip := n, acc := 0#12, cnt := 0#4, optr := 0 + (encStream 0 0 b).length,
        obuf := Memory.storeList s.obuf 0 (encStream 0 0 b) } rfl (by simp)
     (by simp [State.lenOperand, hn]) (by rw [hsl]; simp [encodedLength]; omega)
     (by rw [hsl]; simp [encodedLength]; omega)
     (by rw [hsl]; simp [encodedLength] at *; omega)
  have hL : 0 + (encStream 0 0 b).length + (encodedLength n - (encStream 0 0 b).length) = encodedLength n := by
    rw [hsl]; simp [encodedLength]; omega
  simp only [hL] at h2
  have hm : encodedLength n % 8 = 0 := by simp [encodedLength]
  rw [show n + encodedLength n + 2 = (n + (encStream 0 0 b).length) + ((encodedLength n - (encStream 0 0 b).length) + 1) + 1 by omega,
    busyRun_next _ hp h0, busyRun_add _ _ h1]
  refine (busyRun_add _ 1 h2).trans ?_
  rw [busyRun_next (p := .encRun) 0 rfl (microStep_encFinish rfl (by simp) (by simp [State.lenOperand, hn]) hm)]
  simp only [busyRun]
  rw [base32Encode_stream b, hbl]
  simp [State.completeOut, State.complete, State.writeOut, storeList_append, State.enterRun]

/-- Step scan (R142). -/
theorem microStep_scan {s : State} (hp : s.ph = .decVal) (hi : s.ip < s.lenOperand) (hcap : s.lenOperand ≤ s.cfg.capI) :
    microStep s = .next { s with
      ip := s.ip + 1, scan := scanChar s.lenOperand s.ip (s.ibufByte s.ip) s.scan } := by
  simp only [microStep, hp, decValStep, decScan, State.readIn]
  rw [if_pos hi, if_pos (by omega)]

/-- Step verdict (R143). -/
theorem microStep_verdict {s : State} (hp : s.ph = .decVal) (hi : ¬ s.ip < s.lenOperand) :
    microStep s = .next (match scanVerdict s.lenOperand s.scan with
      | some e => s.raise e
      | none => s.enterRun .decRun) := by
  simp only [microStep, hp, decValStep, decVerdict, scanVerdict]
  rw [if_neg hi]
  split
  · rfl
  · split
    · rfl
    · split <;> rfl

/-- Step emit byte (R144). -/
theorem microStep_decEmit {s : State} (hp : s.ph = .decRun) (hc : 8 ≤ s.cnt.toNat) (ho : s.optr < s.cfg.capO) :
    microStep s = .next { s.dropBits 8 with
      obuf := Memory.store s.obuf s.optr (s.topBits 8), optr := s.optr + 1 } := by
  simp only [microStep, hp, decRunStep, decEmit, State.putOut]
  rw [if_pos hc, if_pos (by simpa using ho)]; rfl

/-- Step absorb symbol (R145). -/
theorem microStep_decAbsorb {s : State} (hp : s.ph = .decRun) (hc : s.cnt.toNat < 8) (hi : s.ip < s.lenOperand - s.scan.padCnt)
    (hcap : s.lenOperand ≤ s.cfg.capI) (hv : (charToValue (s.ibufByte s.ip)).isNone = false) :
    microStep s = .next ({ s with ip := s.ip + 1 }.shiftIn 5 ((symOf (s.ibufByte s.ip)).setWidth 12)) := by
  simp only [microStep, hp, decRunStep, decAbsorb, State.readIn]
  rw [if_neg (by omega), if_pos hi, if_pos (by omega)]
  simp only [symOf]
  split <;> simp_all

/-- Step finish (R146). -/
theorem microStep_decFinish {s : State} (hp : s.ph = .decRun) (hc : s.cnt.toNat < 8) (hi : ¬ s.ip < s.lenOperand - s.scan.padCnt) :
    microStep s = .next (s.completeOut s.optr) := by
  simp only [microStep, hp, decRunStep, decFinish]
  rw [if_neg (by omega), if_neg hi]

/-- The scan steps of a command (R142). -/
theorem decVal_scan (k : Nat) : ∀ s : State, s.ph = .decVal → s.ip + k = s.lenOperand → s.lenOperand ≤ s.cfg.capI →
    busyRun k s = some { s with
      ip := s.lenOperand, scan := scanText s.lenOperand s.ip ((s.ibufBytes s.lenOperand).drop s.ip) s.scan } := by
  induction k with
  | zero =>
    intro s hp hk hcap
    have hd : (s.ibufBytes s.lenOperand).drop s.ip = [] := by
      rw [List.drop_eq_nil_iff]; simp; omega
    have hl : s.lenOperand = s.ip := by omega
    simp only [busyRun, hd, scanText]
    rw [hl]
  | succ k ih =>
    intro s hp hk hcap
    rw [busyRun_next _ hp (microStep_scan hp (by omega) hcap), ih]
    · rw [ibufBytes_drop (s := s) (i := s.ip) (by omega)]; rfl
    · exact hp
    · simp only [State.lenOperand] at *; omega
    · exact hcap

/-- The absorb and emit steps of a command (R144, R145). -/
theorem decRun_stream (k : Nat) : ∀ s : State, s.ph = .decRun → s.lenOperand ≤ s.cfg.capI → s.ip + k = s.lenOperand - s.scan.padCnt →
    (∀ i < s.lenOperand - s.scan.padCnt, (charToValue (s.ibufByte i)).isNone = false) →
    s.cnt.toNat < 8 → s.acc.toNat < 2 ^ s.cnt.toNat →
    ∀ l, l = decStream s.acc.toNat s.cnt.toNat ((s.ibufBytes (s.lenOperand - s.scan.padCnt)).drop s.ip) →
    s.optr + l.length ≤ s.cfg.capO →
    ∃ (a : AccWord) (c : CntWord), c.toNat < 8 ∧ busyRun (k + l.length) s = some { s with
      ip := s.lenOperand - s.scan.padCnt, acc := a, cnt := c,
      optr := s.optr + l.length, obuf := Memory.storeList s.obuf s.optr l } := by
  induction k with
  | zero =>
    intro s hp hcap hk hv hc ha l hl ho
    have hd : (s.ibufBytes (s.lenOperand - s.scan.padCnt)).drop s.ip = [] := by
      rw [List.drop_eq_nil_iff]; simp; omega
    rw [hd] at hl
    subst hl
    refine ⟨s.acc, s.cnt, hc, ?_⟩
    simp only [busyRun, decStream, List.length_nil, Nat.add_zero, Memory.storeList, ← show s.ip = s.lenOperand - s.scan.padCnt by omega]
  | succ k ih =>
    intro s hp hcap hk hv hc ha l hl ho
    have hb := (symOf (s.ibufByte s.ip)).isLt
    have hac : s.acc.toNat < 128 := by
      have : 2 ^ s.cnt.toNat ≤ 2 ^ 7 := Nat.pow_le_pow_right (by omega) (by omega)
      omega
    have h1 := microStep_decAbsorb hp hc (by omega) hcap (hv s.ip (by omega))
    generalize hs1 : State.shiftIn { s with ip := s.ip + 1 } 5 ((symOf (s.ibufByte s.ip)).setWidth 12) = s1 at h1
    have hp1 : s1.ph = .decRun := by subst hs1; exact hp
    have a1 : s1.acc.toNat = s.acc.toNat * 32 + (symOf (s.ibufByte s.ip)).toNat := by
      subst hs1; exact shiftIn_acc_toNat (s := { s with ip := s.ip + 1 }) 5 _ hb (by simp only; omega)
    have c1 : s1.cnt.toNat = s.cnt.toNat + 5 := by
      subst hs1; exact shiftIn_cnt_toNat (s := { s with ip := s.ip + 1 }) 5 _ (by simp only; omega)
    rw [ibufBytes_drop (by omega)] at hl
    simp only [decStream] at hl
    split at hl
    · have m1 : s1.acc.toNat < 2 ^ s1.cnt.toNat := by
        rw [a1, c1, Nat.pow_add]; omega
      obtain ⟨a, c, hc', h3⟩ := ih s1 hp1 (by subst hs1; exact hcap) (by subst hs1; simp only [State.lenOperand, shiftIn_ip, shiftIn_ilen, shiftIn_scan] at *; omega)
        (by subst hs1; exact hv) (by omega) m1 l (by rw [hl, a1, c1]; subst hs1; rfl) (by subst hs1; exact ho)
      refine ⟨a, c, hc', ?_⟩
      rw [show k + 1 + l.length = (k + l.length) + 1 by omega, busyRun_next _ hp h1, h3]
      subst hs1; rfl
    · rename_i hc2
      generalize hr : decStream _ _ _ = r at hl
      have h2 := microStep_decEmit (s := s1) hp1 (by omega) (by subst hl hs1; simp at ho ⊢; omega)
      generalize hs2 : ({ s1.dropBits 8 with obuf := Memory.store s1.obuf s1.optr (s1.topBits 8), optr := s1.optr + 1 } : State) = s2 at h2
      have hp2 : s2.ph = .decRun := by subst hs2; exact hp1
      have a2 : s2.acc.toNat = (s.acc.toNat * 32 + (symOf (s.ibufByte s.ip)).toNat) % 2 ^ (s.cnt.toNat - 3) := by
        subst hs2; simp only [dropBits_acc_toNat, a1, c1]; rw [show s.cnt.toNat + 5 - 8 = s.cnt.toNat - 3 by omega]
      have c2 : s2.cnt.toNat = s.cnt.toNat - 3 := by
        subst hs2; simp only [dropBits_cnt_toNat, c1]; omega
      have v1 : s1.topBits 8 = BitVec.ofNat 8 ((s.acc.toNat * 32 + (symOf (s.ibufByte s.ip)).toNat) / 2 ^ (s.cnt.toNat - 3)) := by
        apply BitVec.eq_of_toNat_eq
        rw [topBits_toNat, a1, c1, BitVec.toNat_ofNat, show s.cnt.toNat + 5 - 8 = s.cnt.toNat - 3 by omega]
      have m2 : s2.acc.toNat < 2 ^ s2.cnt.toNat := by rw [a2, c2]; exact Nat.mod_lt _ (by positivity)
      obtain ⟨a, c, hc', h3⟩ := ih s2 hp2 (by subst hs2 hs1; exact hcap) (by subst hs2 hs1; simp only [State.lenOperand, dropBits_ip, dropBits_ilen, dropBits_scan, shiftIn_ip, shiftIn_ilen, shiftIn_scan] at *; omega)
        (by subst hs2 hs1; exact hv) (by omega) m2 r (by rw [← hr, a2, c2]; subst hs2 hs1; rfl) (by subst hl hs2 hs1; simp at ho ⊢; omega)
      refine ⟨a, c, hc', ?_⟩
      subst hl
      rw [show k + 1 + (_ :: r : List Byte).length = (k + r.length) + 1 + 1 by simp; omega, busyRun_next _ hp h1, busyRun_next _ hp1 h2, h3, ← v1]
      subst hs2 hs1
      simp [Memory.storeList, State.lenOperand]
      omega

/-- DEC by micro-steps from DISPATCH through the verdict step (R141 to R143). -/
theorem dec_enter (s : State) (hp : s.ph = .dispatch) (hd : decode s.cmdr = .ok .dec) (hfit : s.decTooBig = false)
    (hm : s.lenOperand % 8 = 0) :
    busyRun (s.lenOperand + 2) s = some (
      match base32Decode (s.ibufBytes s.lenOperand) with
      | .error e => { s with ip := s.lenOperand, scan := scanText s.lenOperand 0 (s.ibufBytes s.lenOperand) ScanFlags.zero }.raise e
      | .ok _ => { s with scan := scanText s.lenOperand 0 (s.ibufBytes s.lenOperand) ScanFlags.zero }.enterRun .decRun) := by
  have hcap : s.lenOperand ≤ s.cfg.capI := by
    simp only [State.decTooBig, Bool.or_eq_false_iff, decide_eq_false_iff_not, Nat.not_lt] at hfit; exact hfit.1
  have h0 : microStep s = .next { s with ip := 0, scan := ScanFlags.zero, ph := .decVal } := by
    simp [microStep, hp, dispatchWith, hd, microDispatch, decDispatch, hfit, hm]
  rw [show s.lenOperand + 2 = s.lenOperand + 1 + 1 by omega, busyRun_next _ hp h0]
  refine (busyRun_add s.lenOperand 1 (decVal_scan s.lenOperand { s with ip := 0, scan := ScanFlags.zero, ph := .decVal } rfl (by simp [State.lenOperand]) hcap)).trans ?_
  rw [busyRun_next (p := .decVal) 0 rfl (microStep_verdict rfl (by simp [State.lenOperand]))]
  simp only [busyRun]
  have hv := scan_verdict (s.ibufBytes s.lenOperand) (by simpa using hm)
  rw [ibufBytes_length] at hv
  simp only [List.drop_zero, State.lenOperand] at hv ⊢
  have hb : ∀ k, State.ibufBytes { s with ip := 0, scan := ScanFlags.zero, ph := .decVal } k = s.ibufBytes k := fun _ => rfl
  simp only [hb, hv]
  cases base32Decode (s.ibufBytes s.ilen.toNat) <;> rfl

/-- DEC of an accepted text by micro-steps (R147, R148). -/
theorem dec_busyRun_ok (s : State) (hp : s.ph = .dispatch) (hd : decode s.cmdr = .ok .dec) (hfit : s.decTooBig = false)
    (out : List Byte) (h : base32Decode (s.ibufBytes s.lenOperand) = .ok out) :
    busyRun (2 * s.lenOperand - padCount (s.ibufBytes s.lenOperand) + out.length + 3) s = some
      ({ s.writeOut out with
          ip := s.lenOperand - padCount (s.ibufBytes s.lenOperand), optr := out.length,
          scan := scanText s.lenOperand 0 (s.ibufBytes s.lenOperand) ScanFlags.zero }.completeOut out.length) := by
  obtain ⟨hm, ho, hpb, hcb, hsb, d, hnd, ht, hdp, hpk⟩ := base32Decode_ok h
  rw [ibufBytes_length] at hm
  have he := dec_enter s hp hd hfit hm
  rw [h] at he
  simp only [State.decTooBig, Bool.or_eq_false_iff, decide_eq_false_iff_not, Nat.not_lt] at hfit
  set n := s.lenOperand with hn
  set t := s.ibufBytes n with htdef
  set p := padCount t with hpdef
  have htl : t.length = n := by simp [htdef]
  have hp6 := padCountOk_le hpk
  have hdl : d.length + p = n := by
    have := congrArg List.length ht
    rw [List.length_append, List.length_replicate, htl] at this; omega
  have hscan := scanText_split (m := n) (p := p) hnd (by omega)
  rw [← ht] at hscan
  have hpc : (scanText n 0 t ScanFlags.zero).padCnt = p := by rw [hscan]
  have hds : d = s.ibufBytes (n - p) := by
    rw [← hdp, dataPart, htl, ← hpdef, htdef, ibufBytes_take s (by omega)]
  have hol : out.length = 5 * d.length / 8 := by
    rw [ho, hdp, decodeBits_stream, decStream_length _ _ _ (by omega), Nat.add_zero]
  generalize hs1 : ({ s with scan := scanText n 0 t ScanFlags.zero } : State).enterRun .decRun = s1 at he
  have e1 : s1.lenOperand = n := by subst hs1; rfl
  have e2 : s1.scan.padCnt = p := by subst hs1; exact hpc
  have e3 : ∀ i, s1.ibufByte i = s.ibufByte i := by subst hs1; intro i; rfl
  have e4 : s1.ibufBytes (n - p) = d := by subst hs1; exact hds.symm
  have hrun := decRun_stream (n - p) s1 (by subst hs1; rfl) (by subst hs1; exact hfit.1)
    (by rw [e1, e2]; subst hs1; simp)
    (by
      intro i hi
      rw [e1, e2] at hi
      rw [e3]
      simp only [characterBad, hdp, List.any_eq_false] at hcb
      have := hcb (s.ibufByte i) (by rw [hds]; simp only [State.ibufBytes, List.mem_map, List.mem_range]; exact ⟨i, hi, rfl⟩)
      simpa only [Bool.not_eq_true] using this)
    (by subst hs1; simp) (by subst hs1; simp) out
    (by
      rw [e1, e2, e4, ho, hdp, decodeBits_stream]
      subst hs1; rfl)
    (by subst hs1; simp only [enterRun_optr, enterRun_cfg]; simp only [decodedBound] at hfit; omega)
  obtain ⟨a, c, hc, hr⟩ := hrun
  rw [e1, e2] at hr
  rw [show 2 * n - p + out.length + 3 = (n + 2) + ((n - p + out.length) + 1) by omega, busyRun_add _ _ he]
  refine (busyRun_add _ 1 hr).trans ?_
  rw [busyRun_next (p := .decRun) 0 (by subst hs1; rfl) (microStep_decFinish (by subst hs1; rfl) hc (by simp only [State.lenOperand] at e1 ⊢; rw [e1, e2]; omega))]
  subst hs1
  simp [busyRun, State.completeOut, State.complete, State.writeOut, State.enterRun]

/-- DEC of a text a codec check rejects, by micro-steps (R147, R148). -/
theorem dec_busyRun_error (s : State) (hp : s.ph = .dispatch) (hd : decode s.cmdr = .ok .dec) (hfit : s.decTooBig = false)
   (hm : s.lenOperand % 8 = 0)
    (e : Err) (h : base32Decode (s.ibufBytes s.lenOperand) = .error e) :
    busyRun (s.lenOperand + 2) s = some
      ({ s with ip := s.lenOperand, scan := scanText s.lenOperand 0 (s.ibufBytes s.lenOperand) ScanFlags.zero }.raise e) := by
  rw [dec_enter s hp hd hfit hm, h]

end Sys2Proof.Machine
end

