-- ==== Sys2Proof/Laws/Port.lean ====
section
/-! SUPPORT. The host port, access by access: what each operation of the host's notation reads and what
it does to the state (spec/20_memory.md R55 to R59). -/

namespace Sys2Proof.Machine

@[simp] theorem readPort_nop (s : State) (p : Pace) : s.readPort (hostEdge .nop p) = 0#32 := rfl
@[simp] theorem readPort_regRead (s : State) (off : Word) (p : Pace) :
    s.readPort (hostEdge (.regRead off) p) = s.regRead off := rfl
@[simp] theorem readPort_regWrite (s : State) (off w : Word) (p : Pace) :
    s.readPort (hostEdge (.regWrite off w) p) = 0#32 := rfl
@[simp] theorem readPort_inWrite (s : State) (i : Word) (v : Byte) (p : Pace) :
    s.readPort (hostEdge (.inWrite i v) p) = 0#32 := rfl
@[simp] theorem readPort_inRead (s : State) (i : Word) (p : Pace) :
    s.readPort (hostEdge (.inRead i) p) = 0#32 := rfl
@[simp] theorem readPort_outRead (s : State) (j : Word) (p : Pace) :
    s.readPort (hostEdge (.outRead j) p) = s.outRead j := rfl
@[simp] theorem readPort_outWrite (s : State) (j : Word) (v : Byte) (p : Pace) :
    s.readPort (hostEdge (.outWrite j v) p) = 0#32 := rfl
@[simp] theorem readPort_opRd (s : State) (r : RegName) (p : Pace) :
    s.readPort (hostEdge (opRd r) p) = s.regRead (regOffset r) := rfl

@[simp] theorem writePort_nop (s : State) (p : Pace) : s.writePort (hostEdge .nop p) = s := rfl
@[simp] theorem writePort_regRead (s : State) (off : Word) (p : Pace) :
    s.writePort (hostEdge (.regRead off) p) = s := rfl
@[simp] theorem writePort_regWrite (s : State) (off w : Word) (p : Pace) :
    s.writePort (hostEdge (.regWrite off w) p) = s.regWrite off w := rfl
@[simp] theorem writePort_inWrite (s : State) (i : Word) (v : Byte) (p : Pace) :
    s.writePort (hostEdge (.inWrite i v) p) = s.inWrite i v := by
  have h : (v.setWidth 32).setWidth 8 = v := by
    apply BitVec.eq_of_toNat_eq
    simp only [BitVec.toNat_setWidth]
    omega
  show s.inWrite i ((v.setWidth 32).setWidth 8) = _
  rw [h]
@[simp] theorem writePort_inRead (s : State) (i : Word) (p : Pace) :
    s.writePort (hostEdge (.inRead i) p) = s := rfl
@[simp] theorem writePort_outRead (s : State) (j : Word) (p : Pace) :
    s.writePort (hostEdge (.outRead j) p) = s := rfl
@[simp] theorem writePort_outWrite (s : State) (j : Word) (v : Byte) (p : Pace) :
    s.writePort (hostEdge (.outWrite j v) p) = s := rfl

/-- The edge of an operation never resets. -/
@[simp] theorem hostEdge_rst (op : HostOp) (p : Pace) : (hostEdge op p).rst = false := by
  cases op <;> rfl
@[simp] theorem hostEdge_pace (op : HostOp) (p : Pace) : (hostEdge op p).pace = p := by
  cases op <;> rfl

@[simp] theorem regRead_status (s : State) : s.regRead (regOffset .status) = s.status := rfl
@[simp] theorem regRead_ilen (s : State) : s.regRead (regOffset .ilen) = s.ilen := rfl
@[simp] theorem regRead_olen (s : State) : s.regRead (regOffset .olen) = s.olen := rfl

/-- A write of the REG space while BUSY = 1 is ignored (R22, R24). -/
theorem regWrite_busy {s : State} (h : s.busy = true) (off w : Word) : s.regWrite off w = s :=
  if_pos h

/-- A write to CMD while BUSY = 0 is the acceptance of its word (R22, R71). -/
theorem regWrite_cmd {s : State} (h : s.busy = false) (w : Word) :
    s.regWrite (regOffset .cmd) w = s.accept w := by
  simp [State.regWrite, h, regOffset]

/-- A write to ILEN while BUSY = 0 (R24). -/
theorem regWrite_ilen {s : State} (h : s.busy = false) (w : Word) :
    s.regWrite (regOffset .ilen) w = { s with ilen := w } := by
  simp [State.regWrite, h, regOffset]

end Sys2Proof.Machine
end

