-- ==== Sys2Proof/Laws/Step.lean ====
section
/-! SUPPORT. What one step can do: the step on a listed edge, the inversion of the two buffer accesses,
and the sequencer's independence of the inputs still to come. -/

namespace Sys2Proof.Machine

/-- A step on a state written out whose next edge is listed; it fires whatever a field has been
rewritten to. -/
@[simp] theorem step_mk (status ilen olen : Word) (ph : Phase) (cmdr : Word) (ip optr : Nat)
    (acc : AccWord) (cnt : CntWord) (scan : ScanFlags) (ibuf obuf : Memory) (cfg : Config) (e : Edge)
    (rest : List Edge) (resets draws : Nat) (outValid : Bool) :
    step ⟨status, ilen, olen, ph, cmdr, ip, optr, acc, cnt, scan, ibuf, obuf, cfg, e :: rest, resets,
        draws, outValid⟩ =
      clockEdge e ⟨status, ilen, olen, ph, cmdr, ip, optr, acc, cnt, scan, ibuf, obuf, cfg, rest,
        resets, draws, outValid⟩ := rfl

/-- A step on a state whose next edge is listed. -/
theorem step_cons (s : State) (e : Edge) (rest : List Edge) :
    step { s with edges := e :: rest } = clockEdge e { s with edges := rest } := rfl

/-- A step on any state is its next edge applied to the state with that edge consumed. -/
theorem step_eq (s : State) : step s = clockEdge s.edge s.popEdge := rfl

/-- An input step inside IBUF (R60). -/
theorem readIn_in {s : State} {k : Byte → State → Host.Outcome State Fault Refusal}
    (h : s.ip < s.cfg.capI) : s.readIn k = k (s.ibufByte s.ip) { s with ip := s.ip + 1 } :=
  if_pos h

/-- An output step inside OBUF (R60). -/
theorem putOut_in {s : State} {v : Byte} (h : s.optr < s.cfg.capO) :
    s.putOut v = .next { s with obuf := Memory.store s.obuf s.optr v, optr := s.optr + 1 } :=
  if_pos h

/-- An input step that answers a next state read inside IBUF (R60). -/
theorem readIn_next {s t : State} {k : Byte → State → Host.Outcome State Fault Refusal}
    (h : s.readIn k = .next t) :
    s.ip < s.cfg.capI ∧ k (s.ibufByte s.ip) { s with ip := s.ip + 1 } = .next t := by
  simp only [State.readIn] at h
  split at h
  · exact ⟨‹_›, h⟩
  · cases h

/-- An output step that answers a next state wrote one byte inside OBUF and advanced OPTR (R60). -/
theorem putOut_next {s t : State} {v : Byte} (h : s.putOut v = .next t) :
    s.optr < s.cfg.capO ∧
      t = { s with obuf := Memory.store s.obuf s.optr v, optr := s.optr + 1 } := by
  simp only [State.putOut] at h
  split at h
  · exact ⟨‹_›, by simpa using h.symm⟩
  · cases h

/-- BUSY of the three kinds of STATUS a command writes (R71, R167, R168). -/
@[simp] theorem busy_statusBusy (s : State) (h : s.status = statusBusy) : s.busy = true := by
  simp only [State.busy, h]; decide

@[simp] theorem busy_statusDone (s : State) (h : s.status = statusDone) : s.busy = false := by
  simp only [State.busy, h]; decide

@[simp] theorem busy_statusError (s : State) (e : Err) (h : s.status = statusError e) :
    s.busy = false := by
  simp only [State.busy, h]; cases e <;> decide

theorem busy_congr {s t : State} (h : s.status = t.status) : s.busy = t.busy := by
  simp [State.busy, h]

/-- While BUSY = 1 the host's access changes nothing (R22, R24, R56, R186). -/
theorem writePort_busy {s : State} (h : s.busy = true) (e : Edge) : s.writePort e = s := by
  simp [State.writePort, State.regWrite, State.inWrite, h]

/-- What a host access can change at all: nothing, an acceptance, ILEN, or one byte of IBUF. -/
theorem writePort_cases (s : State) (e : Edge) :
    s.writePort e = s ∨
      (s.busy = false ∧ s.writePort e = s.accept e.wdata) ∨
      (s.busy = false ∧ s.writePort e = { s with ilen := e.wdata }) ∨
      (s.busy = false ∧ e.we = true ∧ e.sel = 2#2 ∧ e.addr.toNat < s.cfg.capI ∧
        s.writePort e =
          { s with ibuf := Memory.store s.ibuf e.addr.toNat (e.wdata.setWidth 8) }) := by
  simp only [State.writePort, State.regWrite, State.inWrite]
  split
  · exact .inl rfl
  · split
    · split
      · exact .inl rfl
      · split
        · exact .inr (.inl ⟨by simp_all, rfl⟩)
        · split
          · exact .inr (.inr (.inl ⟨by simp_all, rfl⟩))
          · exact .inl rfl
    · split
      · split
        · rename_i h1 h2 h3 h4
          exact .inr (.inr (.inr ⟨h4.1, by simp_all, h3, h4.2, rfl⟩))
        · exact .inl rfl
      · exact .inl rfl

/-- An edge without reset while a command is in progress is the sequencer's step alone. -/
theorem clockEdge_busy {s : State} {e : Edge} (hb : s.busy = true) (hp : s.ph ≠ .idle)
    (hr : e.rst = false) : clockEdge e s = sequencer e.pace s := by
  simp [clockEdge, hr, hp, writePort_busy hb]

/-- In a run phase every pace but a stall is one micro-step. -/
theorem clockEdge_run {s : State} {e : Edge} (hb : s.busy = true)
    (hp : s.ph = .encRun ∨ s.ph = .decVal ∨ s.ph = .decRun) (hr : e.rst = false)
    (hm : e.pace ≠ .stall) : clockEdge e s = microStep s := by
  rw [clockEdge_busy hb (by rcases hp with h | h | h <;> simp [h]) hr]
  rcases hp with h | h | h <;> cases he : e.pace <;> simp_all [sequencer]

/-- A stall changes nothing (R192). -/
theorem clockEdge_stall {s : State} {e : Edge} (hb : s.busy = true) (hp : s.ph ≠ .idle)
    (hr : e.rst = false) (hs : e.pace = .stall) : clockEdge e s = .next s := by
  rw [clockEdge_busy hb hp hr, hs]; simp [sequencer]

/-- At the micro-step pace an edge is one micro-step (R54). -/
theorem clockEdge_micro {s : State} {e : Edge} (hb : s.busy = true) (hp : s.ph ≠ .idle)
    (hr : e.rst = false) (hm : e.pace = .micro) : clockEdge e s = microStep s := by
  rw [clockEdge_busy hb hp hr, hm]; simp [sequencer]

end Sys2Proof.Machine
end

