-- ==== Sys2Proof/Laws/Run.lean ====
section
/-! SUPPORT. Runs of clock edges over a command in progress: a micro-step neither reads nor changes the
inputs still to come, and a run of micro-steps is reached over any edges that hold as many of them. -/

namespace Sys2Proof.Machine

/-! ## The micro-step of each phase -/

theorem microStep_idle {s : State} (h : s.ph = .idle) : microStep s = .next s := by
  simp [microStep, h]
theorem microStep_dispatch {s : State} (h : s.ph = .dispatch) :
    microStep s = dispatchWith microDispatch s := by simp [microStep, h]
theorem microStep_encRun {s : State} (h : s.ph = .encRun) : microStep s = encRunStep s := by
  simp [microStep, h]
theorem microStep_decVal {s : State} (h : s.ph = .decVal) : microStep s = decValStep s := by
  simp [microStep, h]
theorem microStep_decRun {s : State} (h : s.ph = .decRun) : microStep s = decRunStep s := by
  simp [microStep, h]

theorem dispatchWith_ok {s : State} {i : Instr} (h : decode s.cmdr = .ok i)
    (run : Instr → State → Host.Outcome State Fault Refusal) : dispatchWith run s = run i s := by
  simp [dispatchWith, h]
theorem dispatchWith_error {s : State} {r : DecodeError} (h : decode s.cmdr = .error r)
    (run : Instr → State → Host.Outcome State Fault Refusal) :
    dispatchWith run s = .next (s.raise .illegalCommand) := by
  simp [dispatchWith, h]

/-! ## A micro-step does not read the inputs still to come, and leaves them -/

theorem microDispatch_edges {s t : State} {i : Instr} (h : microDispatch i s = .next t)
    (es : List Edge) :
    microDispatch i { s with edges := es } = .next { t with edges := es } := by
  cases i
  · change execEnclen s = _ at h
    show execEnclen _ = _
    unfold execEnclen at h ⊢
    split at h <;> rename_i hc <;> cases h
    · exact if_pos hc
    · exact if_neg hc
  · change execDeclen s = _ at h
    show execDeclen _ = _
    unfold execDeclen at h ⊢
    split at h <;> rename_i hc <;> cases h
    · exact if_pos hc
    · exact if_neg hc
  · change encDispatch s = _ at h
    show encDispatch _ = _
    unfold encDispatch at h ⊢
    split at h <;> rename_i hc <;> cases h
    · exact if_pos hc
    · exact if_neg hc
  · change decDispatch s = _ at h
    show decDispatch _ = _
    unfold decDispatch at h ⊢
    split at h
    · rename_i hc; cases h; exact if_pos hc
    · rename_i hc
      refine (if_neg hc).trans ?_
      split at h <;> rename_i hc <;> cases h
      · exact if_pos hc
      · exact if_neg hc

theorem encRunStep_edges {s t : State} (h : encRunStep s = .next t) (es : List Edge) :
    encRunStep { s with edges := es } = .next { t with edges := es } := by
  unfold encRunStep at h ⊢
  split at h
  · rename_i h1
    obtain ⟨hc, rfl⟩ := putOut_next h
    exact (if_pos h1).trans (putOut_in (by exact hc))
  · rename_i h1
    refine (if_neg h1).trans ?_
    split at h
    · rename_i h2
      obtain ⟨hc, h⟩ := readIn_next h
      cases h
      exact (if_pos h2).trans ((readIn_in (by exact hc)).trans rfl)
    · rename_i h2
      refine (if_neg h2).trans ?_
      split at h
      · rename_i h3
        obtain ⟨hc, rfl⟩ := putOut_next h
        exact (if_pos h3).trans (putOut_in (by exact hc))
      · rename_i h3
        refine (if_neg h3).trans ?_
        split at h
        · rename_i h4
          obtain ⟨hc, rfl⟩ := putOut_next h
          exact (if_pos h4).trans (putOut_in (by exact hc))
        · rename_i h4
          cases h
          exact if_neg h4

theorem decValStep_edges {s t : State} (h : decValStep s = .next t) (es : List Edge) :
    decValStep { s with edges := es } = .next { t with edges := es } := by
  unfold decValStep at h ⊢
  split at h
  · rename_i h1
    obtain ⟨hc, h⟩ := readIn_next h
    cases h
    exact (if_pos h1).trans ((readIn_in (by exact hc)).trans rfl)
  · rename_i h1
    refine (if_neg h1).trans ?_
    unfold decVerdict at h ⊢
    split at h
    · rename_i h2; cases h; exact if_pos h2
    · rename_i h2
      refine (if_neg h2).trans ?_
      split at h
      · rename_i h3; cases h; exact if_pos h3
      · rename_i h3
        refine (if_neg h3).trans ?_
        split at h
        · rename_i h4; cases h; exact if_pos h4
        · rename_i h4; cases h; exact if_neg h4

theorem decRunStep_edges {s t : State} (h : decRunStep s = .next t) (es : List Edge) :
    decRunStep { s with edges := es } = .next { t with edges := es } := by
  unfold decRunStep at h ⊢
  split at h
  · rename_i h1
    obtain ⟨hc, rfl⟩ := putOut_next h
    exact (if_pos h1).trans (putOut_in (by exact hc))
  · rename_i h1
    refine (if_neg h1).trans ?_
    split at h
    · rename_i h2
      obtain ⟨hc, h⟩ := readIn_next h
      refine (if_pos h2).trans ((readIn_in (by exact hc)).trans ?_)
      change (match charToValue (s.ibufByte s.ip) with | some v => _ | none => _) = _ at h
      show (match charToValue (s.ibufByte s.ip) with | some v => _ | none => _) = _
      cases hv : charToValue (s.ibufByte s.ip) with
      | none => rw [hv] at h; cases h
      | some v => rw [hv] at h; cases h; rfl
    · rename_i h2; cases h; exact if_neg h2

/-- The five phases. -/
theorem Phase.cases_or (p : Phase) :
    p = .idle ∨ p = .dispatch ∨ p = .encRun ∨ p = .decVal ∨ p = .decRun := by
  cases p <;> simp

/-- A micro-step does not read the inputs still to come, and leaves them. -/
theorem microStep_edges {s t : State} (h : microStep s = .next t) (es : List Edge) :
    microStep { s with edges := es } = .next { t with edges := es } := by
  obtain hp | hp | hp | hp | hp := Phase.cases_or s.ph
  · rw [microStep_idle hp] at h; cases h
    exact microStep_idle (by exact hp)
  · rw [microStep_dispatch hp] at h
    refine (microStep_dispatch (by exact hp)).trans ?_
    cases hd : decode s.cmdr with
    | error r =>
      rw [dispatchWith_error hd] at h; cases h
      exact dispatchWith_error (by exact hd) _
    | ok i =>
      rw [dispatchWith_ok hd] at h
      exact (dispatchWith_ok (by exact hd) _).trans (microDispatch_edges h es)
  · rw [microStep_encRun hp] at h
    exact (microStep_encRun (by exact hp)).trans (encRunStep_edges h es)
  · rw [microStep_decVal hp] at h
    exact (microStep_decVal (by exact hp)).trans (decValStep_edges h es)
  · rw [microStep_decRun hp] at h
    exact (microStep_decRun (by exact hp)).trans (decRunStep_edges h es)

/-! ## What one micro-step can do -/

/-- What a DISPATCH step can do: complete a size command, raise an error, or enter a run phase. -/
theorem microDispatch_cases {s t : State} {i : Instr} (h : microDispatch i s = .next t) :
    (∃ e, (e = .invalidLength ∨ e = .capacityExceeded) ∧ t = s.raise e) ∨
      (i = .enclen ∧ s.lenOperand ≤ enclenMax ∧ t = s.complete (encodedLength s.lenOperand)) ∨
      (i = .declen ∧ s.lenOperand % 8 = 0 ∧ t = s.complete (decodedBound s.lenOperand)) ∨
      (i = .enc ∧ s.encTooBig = false ∧ t = s.enterRun .encRun) ∨
      (i = .dec ∧ s.decTooBig = false ∧ s.lenOperand % 8 = 0 ∧
        t = { s with ip := 0, scan := ScanFlags.zero, ph := .decVal }) := by
  cases i
  · change execEnclen s = _ at h
    unfold execEnclen at h
    split at h <;> rename_i hc <;> cases h
    · exact .inl ⟨_, .inl rfl, rfl⟩
    · exact .inr (.inl ⟨rfl, Nat.le_of_not_lt hc, rfl⟩)
  · change execDeclen s = _ at h
    unfold execDeclen at h
    split at h <;> rename_i hc <;> cases h
    · exact .inl ⟨_, .inl rfl, rfl⟩
    · exact .inr (.inr (.inl ⟨rfl, by simpa using hc, rfl⟩))
  · change encDispatch s = _ at h
    unfold encDispatch at h
    split at h <;> rename_i hc <;> cases h
    · exact .inl ⟨_, .inr rfl, rfl⟩
    · exact .inr (.inr (.inr (.inl ⟨rfl, by simpa using hc, rfl⟩)))
  · change decDispatch s = _ at h
    unfold decDispatch at h
    split at h
    · cases h; exact .inl ⟨_, .inr rfl, rfl⟩
    · rename_i hc
      split at h <;> rename_i hm <;> cases h
      · exact .inl ⟨_, .inl rfl, rfl⟩
      · exact .inr (.inr (.inr (.inr ⟨rfl, by simpa using hc, by simpa using hm, rfl⟩)))

/-- What a step in phase ENC_RUN can do (R117 to R122). -/
theorem encRunStep_cases {s t : State} (h : encRunStep s = .next t) :
    (5 ≤ s.cnt.toNat ∧ s.optr < s.cfg.capO ∧ t = { s.dropBits 5 with
        obuf := Memory.store s.obuf s.optr (valueToChar (s.topBits 5)), optr := s.optr + 1 }) ∨
      (s.cnt.toNat < 5 ∧ s.ip < s.lenOperand ∧ s.ip < s.cfg.capI ∧
        t = ({ s with ip := s.ip + 1 }).shiftIn 8 ((s.ibufByte s.ip).setWidth 12)) ∨
      (s.cnt.toNat < 5 ∧ s.lenOperand ≤ s.ip ∧ 0 < s.cnt.toNat ∧ s.optr < s.cfg.capO ∧
        t = { s with
          acc := 0#12, cnt := 0#4, optr := s.optr + 1,
          obuf := Memory.store s.obuf s.optr
            (valueToChar ((s.acc <<< (5 - s.cnt.toNat)).setWidth 5)) }) ∨
      (s.cnt.toNat = 0 ∧ s.lenOperand ≤ s.ip ∧ s.optr % 8 ≠ 0 ∧ s.optr < s.cfg.capO ∧
        t = { s with obuf := Memory.store s.obuf s.optr padChar, optr := s.optr + 1 }) ∨
      (s.cnt.toNat = 0 ∧ s.lenOperand ≤ s.ip ∧ s.optr % 8 = 0 ∧ t = s.completeOut s.optr) := by
  unfold encRunStep at h
  split at h
  · obtain ⟨hc, rfl⟩ := putOut_next h
    exact .inl ⟨‹_›, hc, rfl⟩
  · split at h
    · obtain ⟨hc, h⟩ := readIn_next h
      cases h
      exact .inr (.inl ⟨by omega, ‹_›, hc, rfl⟩)
    · split at h
      · obtain ⟨hc, rfl⟩ := putOut_next h
        exact .inr (.inr (.inl ⟨by omega, by omega, by omega, hc, rfl⟩))
      · split at h
        · obtain ⟨hc, rfl⟩ := putOut_next h
          exact .inr (.inr (.inr (.inl ⟨by omega, by omega, ‹_›, hc, rfl⟩)))
        · cases h
          exact .inr (.inr (.inr (.inr ⟨by omega, by omega, by omega, rfl⟩)))

/-- What a step in phase DEC_VAL can do (R142, R143). -/
theorem decValStep_cases {s t : State} (h : decValStep s = .next t) :
    (s.ip < s.lenOperand ∧ s.ip < s.cfg.capI ∧ t = { s with
        ip := s.ip + 1, scan := scanChar s.lenOperand s.ip (s.ibufByte s.ip) s.scan }) ∨
      (s.lenOperand ≤ s.ip ∧ ∃ e, (e = .invalidPadding ∨ e = .invalidCharacter) ∧
        scanVerdict s.lenOperand s.scan = some e ∧ t = s.raise e) ∨
      (s.lenOperand ≤ s.ip ∧ scanVerdict s.lenOperand s.scan = none ∧ t = s.enterRun .decRun) := by
  unfold decValStep at h
  split at h
  · obtain ⟨hc, h⟩ := readIn_next h
    cases h
    exact .inl ⟨‹_›, hc, rfl⟩
  · have hi : s.lenOperand ≤ s.ip := by omega
    unfold decVerdict at h
    unfold scanVerdict
    split at h
    · rename_i h2; cases h
      exact .inr (.inl ⟨hi, _, .inl rfl, by rw [if_pos h2], rfl⟩)
    · rename_i h2
      split at h
      · rename_i h3; cases h
        exact .inr (.inl ⟨hi, _, .inr rfl, by rw [if_neg h2, if_pos h3], rfl⟩)
      · rename_i h3
        split at h
        · rename_i h4; cases h
          exact .inr (.inl ⟨hi, _, .inl rfl, by rw [if_neg h2, if_neg h3, if_pos h4], rfl⟩)
        · rename_i h4; cases h
          exact .inr (.inr ⟨hi, by rw [if_neg h2, if_neg h3, if_neg h4], rfl⟩)

/-- What a step in phase DEC_RUN can do (R144 to R146). -/
theorem decRunStep_cases {s t : State} (h : decRunStep s = .next t) :
    (8 ≤ s.cnt.toNat ∧ s.optr < s.cfg.capO ∧ t = { s.dropBits 8 with
        obuf := Memory.store s.obuf s.optr (s.topBits 8), optr := s.optr + 1 }) ∨
      (s.cnt.toNat < 8 ∧ s.ip < s.lenOperand - s.scan.padCnt ∧ s.ip < s.cfg.capI ∧
        ∃ v, charToValue (s.ibufByte s.ip) = some v ∧
          t = ({ s with ip := s.ip + 1 }).shiftIn 5 (v.setWidth 12)) ∨
      (s.cnt.toNat < 8 ∧ s.lenOperand - s.scan.padCnt ≤ s.ip ∧ t = s.completeOut s.optr) := by
  unfold decRunStep at h
  split at h
  · obtain ⟨hc, rfl⟩ := putOut_next h
    exact .inl ⟨‹_›, hc, rfl⟩
  · split at h
    · obtain ⟨hc, h⟩ := readIn_next h
      cases hv : charToValue (s.ibufByte s.ip) with
      | none => rw [hv] at h; cases h
      | some v =>
        rw [hv] at h; cases h
        exact .inr (.inl ⟨by omega, ‹_›, hc, v, rfl, rfl⟩)
    · cases h
      exact .inr (.inr ⟨by omega, by omega, rfl⟩)

/-- A micro-step that does not end the command leaves STATUS as it is (R71, R167, R168). -/
theorem microStep_status {s t : State} (h : microStep s = .next t) (ht : t.ph ≠ .idle) :
    t.status = s.status := by
  obtain hp | hp | hp | hp | hp := Phase.cases_or s.ph
  · rw [microStep_idle hp] at h; cases h; rfl
  · rw [microStep_dispatch hp] at h
    cases hd : decode s.cmdr with
    | error r => rw [dispatchWith_error hd] at h; cases h; exact absurd rfl ht
    | ok i =>
      rw [dispatchWith_ok hd] at h
      obtain ⟨e, -, rfl⟩ | ⟨-, -, rfl⟩ | ⟨-, -, rfl⟩ | ⟨-, -, rfl⟩ | ⟨-, -, -, rfl⟩ :=
        microDispatch_cases h <;> first | rfl | exact absurd rfl ht
  · rw [microStep_encRun hp] at h
    obtain ⟨-, -, rfl⟩ | ⟨-, -, -, rfl⟩ | ⟨-, -, -, -, rfl⟩ | ⟨-, -, -, -, rfl⟩ | ⟨-, -, -, rfl⟩ :=
      encRunStep_cases h <;> first | rfl | exact absurd rfl ht
  · rw [microStep_decVal hp] at h
    obtain ⟨-, -, rfl⟩ | ⟨-, e, -, -, rfl⟩ | ⟨-, -, rfl⟩ :=
      decValStep_cases h <;> first | rfl | exact absurd rfl ht
  · rw [microStep_decRun hp] at h
    obtain ⟨-, -, rfl⟩ | ⟨-, -, -, v, -, rfl⟩ | ⟨-, -, rfl⟩ :=
      decRunStep_cases h <;> first | rfl | exact absurd rfl ht

/-! ## Runs of edges -/

/-- A run of micro-steps does not read the inputs still to come, and leaves them. -/
theorem busyRun_edges {k : Nat} (es : List Edge) : ∀ {s t : State}, busyRun k s = some t →
    busyRun k { s with edges := es } = some { t with edges := es } := by
  induction k with
  | zero => intro s t h; cases h; rfl
  | succ k ih =>
    intro s t h
    simp only [busyRun] at h
    split at h
    · cases h
    · rename_i hp
      split at h
      · rename_i u hu
        refine (if_neg (by exact hp)).trans ?_
        rw [microStep_edges hu es]
        exact ih h
      · cases h

/-- The edges of a command in progress hold a micro-step. -/
theorem busyEdges_pos {k : Nat} {es : List Edge} (h : busyEdges k es) : k ≠ 0 := by
  obtain ⟨-, hcount, hlast⟩ := h
  obtain ⟨a, ha, hp⟩ := Option.map_eq_some_iff.1 hlast
  rintro rfl
  have h3 : a ∈ es.filter fun e => e.pace == .micro :=
    List.mem_filter.2 ⟨List.mem_of_getLast? ha, by simp [hp]⟩
  rw [List.length_eq_zero_iff.1 hcount] at h3
  cases h3

/-- One step at the front of a run of any core. -/
theorem run_succ (M : Host.Core) (n : Nat) {s t : M.State} (h : M.step s = .next t) :
    M.run (n + 1) s = M.run n t := by
  simp [Host.Core.run, h]

/-- One edge at the front of a run. -/
theorem run_cons {s u : State} {e : Edge} {es : List Edge} (n : Nat)
    (h : clockEdge e { s with edges := es } = .next u) :
    Host.Core.run core (n + 1) { s with edges := e :: es } = Host.Core.run core n u :=
  run_succ core n h

/-- Over edges without reset that hold `k` micro-steps, the last at the last edge, a command in
progress reaches what `k` micro-steps give, whatever the host presents (R54, R186, R192). -/
theorem run_busyEdges {es : List Edge} (rest : List Edge) : ∀ {k : Nat} {s t : State},
    busyEdges k es → s.busy = true → busyRun k s = some t →
    Host.Core.run core es.length { s with edges := es ++ rest } =
      .next { t with edges := rest } := by
  induction es with
  | nil => intro k s t h; simp [busyEdges] at h
  | cons e es ih =>
    intro k s t ⟨hall, hcount, hlast⟩ hb h
    have hr : e.rst = false := (hall e (by simp)).1
    have hw : e.pace ≠ .whole := (hall e (by simp)).2
    have hall' : ∀ e ∈ es, e.rst = false ∧ e.pace ≠ .whole := fun x hx => hall x (by simp [hx])
    have hk : k ≠ 0 := busyEdges_pos ⟨hall, hcount, hlast⟩
    obtain ⟨k, rfl⟩ := Nat.exists_eq_succ_of_ne_zero hk
    have hp : s.ph ≠ .idle := by
      intro hp
      simp [busyRun, hp] at h
    cases hpace : e.pace with
    | whole => exact absurd hpace hw
    | stall =>
      refine (run_cons _ (clockEdge_stall (by exact hb) (by exact hp) hr hpace)).trans ?_
      cases es with
      | nil => simp [hpace] at hlast
      | cons e' es' => exact ih ⟨hall', by simpa [hpace] using hcount, by simpa using hlast⟩ hb h
    | micro =>
      simp only [busyRun, hp, if_false] at h
      split at h
      · rename_i u hu
        refine (run_cons _ ((clockEdge_micro (by exact hb) (by exact hp) hr hpace).trans
          (microStep_edges hu _))).trans ?_
        cases es with
        | nil =>
          have : k = 0 := by simpa [hpace] using hcount.symm
          subst this
          cases h; rfl
        | cons e' es' =>
          have hc : ((e' :: es').filter fun e => e.pace == .micro).length = k := by
            simpa [hpace] using hcount
          have hk0 : k ≠ 0 := busyEdges_pos ⟨hall', hc, by simpa using hlast⟩
          have hu' : u.ph ≠ .idle := by
            intro hi
            obtain ⟨j, rfl⟩ := Nat.exists_eq_succ_of_ne_zero hk0
            simp [busyRun, hi] at h
          exact ih ⟨hall', hc, by simpa using hlast⟩
            ((busy_congr (microStep_status hu hu')).trans hb) h
      · cases h

end Sys2Proof.Machine
end

