-- ==== Sys2Proof/Laws/Exec.lean ====
section
/-! SUPPORT. What each command can do at the operation level, said once: every command answers a next
state, and these are all of them (spec/60_exceptions.md R178). -/

namespace Sys2Proof.Machine

/-- ENCLEN raises InvalidLength or completes (R101). -/
theorem execEnclen_cases (s : State) :
    (enclenMax < s.lenOperand ∧ execEnclen s = .next (s.raise .invalidLength)) ∨
      (s.lenOperand ≤ enclenMax ∧
        execEnclen s = .next (s.complete (encodedLength s.lenOperand))) := by
  by_cases h : enclenMax < s.lenOperand
  · exact .inl ⟨h, if_pos h⟩
  · exact .inr ⟨Nat.le_of_not_lt h, if_neg h⟩

/-- DECLEN raises InvalidLength or completes (R102). -/
theorem execDeclen_cases (s : State) :
    (s.lenOperand % 8 ≠ 0 ∧ execDeclen s = .next (s.raise .invalidLength)) ∨
      (s.lenOperand % 8 = 0 ∧ execDeclen s = .next (s.complete (decodedBound s.lenOperand))) := by
  by_cases h : s.lenOperand % 8 ≠ 0
  · exact .inl ⟨h, if_pos h⟩
  · exact .inr ⟨by omega, if_neg h⟩

/-- ENC raises CapacityExceeded or writes the encoding and completes (R110, R111). -/
theorem execEnc_cases (s : State) :
    (s.encTooBig = true ∧ execEnc s = .next (s.raise .capacityExceeded)) ∨
      (s.encTooBig = false ∧ execEnc s = .next
        (({ s.writeOut (base32Encode (s.ibufBytes s.lenOperand)) with
            ip := s.lenOperand, optr := encodedLength s.lenOperand } : State).completeOut
          (encodedLength s.lenOperand))) := by
  cases hb : s.encTooBig
  · refine .inr ⟨rfl, ?_⟩
    unfold execEnc
    rw [if_neg (by simp [hb])]
    simp only [base32Encode_length, ibufBytes_length]
  · exact .inl ⟨rfl, if_pos hb⟩

/-- DEC raises CapacityExceeded or InvalidLength with no access, or an error of the text after the
scan, or writes the bytes and completes (R130, R131, R136). -/
theorem execDec_cases (s : State) :
    (s.decTooBig = true ∧ execDec s = .next (s.raise .capacityExceeded)) ∨
      (s.decTooBig = false ∧ s.lenOperand % 8 ≠ 0 ∧
        execDec s = .next (s.raise .invalidLength)) ∨
      (s.decTooBig = false ∧ s.lenOperand % 8 = 0 ∧
        ∃ e, base32Decode (s.ibufBytes s.lenOperand) = .error e ∧
          execDec s = .next (({ s with
            ip := s.lenOperand,
            scan := scanText s.lenOperand 0 (s.ibufBytes s.lenOperand) ScanFlags.zero } :
              State).raise e)) ∨
      (s.decTooBig = false ∧ s.lenOperand % 8 = 0 ∧
        ∃ out, base32Decode (s.ibufBytes s.lenOperand) = .ok out ∧
          execDec s = .next (({ s.writeOut out with
            scan := scanText s.lenOperand 0 (s.ibufBytes s.lenOperand) ScanFlags.zero,
            ip := s.lenOperand - padCount (s.ibufBytes s.lenOperand),
            optr := out.length } : State).completeOut out.length)) := by
  cases hb : s.decTooBig
  · right
    by_cases hm : s.lenOperand % 8 = 0
    · right
      cases h : base32Decode (s.ibufBytes s.lenOperand) with
      | error e =>
        refine .inl ⟨rfl, hm, e, rfl, ?_⟩
        unfold execDec
        rw [if_neg (by simp [hb]), if_neg (by simpa using hm)]
        simp only [h]
      | ok out =>
        refine .inr ⟨rfl, hm, out, rfl, ?_⟩
        unfold execDec
        rw [if_neg (by simp [hb]), if_neg (by simpa using hm)]
        simp only [h]
        rfl
    · refine .inl ⟨rfl, hm, ?_⟩
      unfold execDec
      rw [if_neg (by simp [hb]), if_pos hm]
  · exact .inl ⟨rfl, if_pos hb⟩

/-- The errors of a text of whole blocks, with the check each comes from (R136). -/
theorem base32Decode_error {t : List Byte} {e : Err} (hm : t.length % 8 = 0)
    (h : base32Decode t = .error e) :
    (e = .invalidPadding ∧ (paddingBad t = true ∨
        (paddingBad t = false ∧ characterBad t = false ∧ strictBad t = true))) ∨
      (e = .invalidCharacter ∧ paddingBad t = false ∧ characterBad t = true) := by
  unfold base32Decode at h
  rw [if_neg (by simpa using hm)] at h
  split_ifs at h <;> cases h <;> simp_all

/-- The bytes of an accepted text fit where DEC's interface check requires (R131). -/
theorem base32Decode_fits {t out : List Byte} (h : base32Decode t = .ok out) :
    out.length ≤ decodedBound t.length := by
  obtain ⟨h1, h2, -, -, -, d, -, ht, hp, -⟩ := base32Decode_ok h
  rw [h2, decodeBits_stream, decStream_length _ _ _ (by decide), hp]
  have : t.length = d.length + padCount t := by conv_lhs => rw [ht]; simp
  unfold decodedBound
  omega

/-- STATUS of an error completion is one of the five error values (R160, R168). -/
theorem statusError_legal (e : Err) : statusError e ∈ legalStatus := by cases e <;> decide

end Sys2Proof.Machine
end

