-- ==== Sys2Proof/Laws/PerInstr.lean ====
section
/-! SUPPORT. Statements made for every instruction, one lemma per constructor. -/

namespace Sys2Proof.Laws

/-- The word of a command is a well-formed CMDW: RSV is 0 and OPC is the command's code, one of the
four of R72 (R70, R74). -/
def EncodedWord.Statement (i : Instr) : Prop :=
  i.wf = true ∧ (CmdWord.ofWord (encode i)).wf = true ∧ (CmdWord.ofWord (encode i)).opc = i.opc

theorem EncodedWord.enclen : EncodedWord.Statement .enclen := by
  unfold EncodedWord.Statement; decide

theorem EncodedWord.declen : EncodedWord.Statement .declen := by
  unfold EncodedWord.Statement; decide

theorem EncodedWord.enc : EncodedWord.Statement .enc := by
  unfold EncodedWord.Statement; decide

theorem EncodedWord.dec : EncodedWord.Statement .dec := by
  unfold EncodedWord.Statement; decide

end Sys2Proof.Laws
end

