-- ==== Sys2Proof/Tests/Slice0.lean ====
section
/-! SUPPORT. The model's own tests: the checks of WellFormed refuse ill-formed terms, the words of the
opcode table decode to their commands, small vectors of spec/95_test_vectors.md, and for every
statement with hypotheses a concrete state and operands that meet them together. -/

namespace Sys2Proof.Tests

open Sys2Proof.Machine

/-! ## Helpers -/

/-- Two small buffers of 16 bytes each. -/
def smallCfg : Config := { capI := 16, capO := 16 }

/-- A block after reset with bytes written to IBUF from index 0 on and ILEN their number. -/
def loaded (bs : List Nat) : State :=
  { State.resetWith smallCfg with
      ibuf := Memory.storeList [] 0 (bs.map (BitVec.ofNat 8)), ilen := BitVec.ofNat 32 bs.length }

/-- A block after reset with a given ILEN. -/
def withLen (n : Nat) : State := { State.resetWith smallCfg with ilen := BitVec.ofNat 32 n }

/-- The same block with a command in progress in a phase. -/
def inPhase (s : State) (w : Nat) (ph : Phase) : State :=
  { s with status := statusBusy, cmdr := BitVec.ofNat 32 w, ph := ph }

/-- An edge without an access at a pace. -/
def tick (p : Pace) : Edge := { Edge.quiet with pace := p }

/-- STATUS and OLEN after an outcome that is a next state. -/
def result (o : Host.Outcome State Fault Refusal) : Option (Word × Word) :=
  match o with
  | .next t => some (t.status, t.olen)
  | _ => none

/-- The first bytes of OBUF after an outcome that is a next state. -/
def bytes (o : Host.Outcome State Fault Refusal) (n : Nat) : List (Option Byte) :=
  match o with
  | .next t => (List.range n).map t.obufCell
  | _ => []

/-- The characters of a literal text, by their codes (R90). -/
def codes (s : String) : List Nat := s.toList.map Char.toNat

/-- The bytes of a list of numbers. -/
def bs (l : List Nat) : List Byte := l.map (BitVec.ofNat 8)

/-! ## WellFormed refuses ill-formed terms -/

theorem test_wf_refuses_reserved_bits :
    CmdWord.rsvZero { rsv := 1#24, opc := 0x03#8 } = false ∧
      CmdWord.wf { rsv := 1#24, opc := 0x03#8 } = false := by decide

theorem test_wf_refuses_unknown_opcodes :
    CmdWord.opcKnown { rsv := 0#24, opc := 0x00#8 } = false ∧
      CmdWord.opcKnown { rsv := 0#24, opc := 0x05#8 } = false ∧
      CmdWord.wf { rsv := 0#24, opc := 0x05#8 } = false := by decide

theorem test_wf_accepts_the_four_opcodes :
    CmdWord.wf { rsv := 0#24, opc := 0x01#8 } = true ∧
      CmdWord.wf { rsv := 0#24, opc := 0x04#8 } = true := by decide

theorem test_wf_refuses_capacities_out_of_range :
    Config.capOk 7 = false ∧ Config.capOk (2 ^ 28 + 1) = false ∧
      Config.wf { capI := 7, capO := 8 } = false ∧ Config.wf { capI := 8, capO := 7 } = false := by
  decide

/-! ## Decoding: the words of R72's table, written out bit by bit -/

theorem test_decode_enclen :
    (decode 0b00000000000000000000000000000001#32).toOption = some .enclen := by decide

theorem test_decode_declen :
    (decode 0b00000000000000000000000000000010#32).toOption = some .declen := by decide

theorem test_decode_enc :
    (decode 0b00000000000000000000000000000011#32).toOption = some .enc := by decide

theorem test_decode_dec :
    (decode 0b00000000000000000000000000000100#32).toOption = some .dec := by decide

/-- R74's table: a reserved bit, OPC 0x00, OPC 0x05. -/
theorem test_decode_refuses_illegal_words :
    (decode 0b00000000000000000000000100000001#32).toOption = none ∧
      (decode 0b10000000000000000000000000000011#32).toOption = none ∧
      (decode 0b00000000000000000000000000000000#32).toOption = none ∧
      (decode 0b00000000000000000000000000000101#32).toOption = none := by decide

/-! ## One step of each command (spec/95_test_vectors.md 2.2 to 2.4) -/

theorem test_enclen_largest_length :
    result (step ((withLen 0x9FFFFFFB).withFetchWord 32 1)) =
      some (0x00000002#32, 0xFFFFFFF8#32) := by decide

theorem test_enclen_does_not_wrap :
    result (step ((withLen 0x9FFFFFFC).withFetchWord 32 1)) =
      some (0x00000016#32, 0x00000000#32) := by decide

theorem test_declen_largest_length :
    result (step ((withLen 0xFFFFFFF8).withFetchWord 32 2)) =
      some (0x00000002#32, 0x9FFFFFFB#32) := by decide

theorem test_declen_refuses_partial_blocks :
    result (step ((withLen 15).withFetchWord 32 2)) =
      some (0x00000016#32, 0x00000000#32) := by decide

/-- `[66 6F 6F 62]` gives "MZXW6YQ=". -/
theorem test_enc_foob :
    bytes (step ((loaded [0x66, 0x6F, 0x6F, 0x62]).withFetchWord 32 3)) 9 =
      [some 0x4D#8, some 0x5A#8, some 0x58#8, some 0x57#8, some 0x36#8, some 0x59#8, some 0x51#8,
        some 0x3D#8, none] := by decide

/-- Step 8 of the trace of "foob": absorb 0x62, ACC 0x00F to 0xF62, CNT 4 to 12. -/
theorem test_enc_absorb_fills_the_accumulator :
    (match step { inPhase (loaded [0x66, 0x6F, 0x6F, 0x62]) 3 .encRun with
        ip := 3, optr := 4, acc := 0x00F#12, cnt := 4#4, edges := [tick .micro] } with
      | .next t => some (t.ip, t.acc, t.cnt)
      | _ => none) = some (4, 0xF62#12, 12#4) := by decide

/-- "mzxw6yq=" gives `[66 6F 6F 62]`, lower case or upper case. -/
theorem test_dec_foob :
    bytes (step ((loaded (codes "mzxw6yQ=")).withFetchWord 32 4)) 5 =
      [some 0x66#8, some 0x6F#8, some 0x6F#8, some 0x62#8, none] := by decide

/-- "MZXW6YT=" fails the strict check, and nothing is written. -/
theorem test_dec_strict :
    result (step ((loaded (codes "MZXW6YT=")).withFetchWord 32 4)) =
        some (0x00000036#32, 0x00000000#32) ∧
      bytes (step ((loaded (codes "MZXW6YT=")).withFetchWord 32 4)) 1 = [none] := by decide

/-- An illegal word runs into IllegalCommand (R74). -/
theorem test_illegal_word :
    result (step ((withLen 8).withFetchWord 32 0x103)) =
      some (0x00000086#32, 0x00000000#32) := by decide

/-- The first step after reset on each word of the table completes. -/
theorem test_first_step_after_reset :
    result (step (State.reset.withFetchWord 32 1)) = some (0x00000002#32, 0#32) ∧
      result (step (State.reset.withFetchWord 32 2)) = some (0x00000002#32, 0#32) ∧
      result (step (State.reset.withFetchWord 32 3)) = some (0x00000002#32, 0#32) ∧
      result (step (State.reset.withFetchWord 32 4)) = some (0x00000002#32, 0#32) := by decide

/-- The values of R23, R27 and R160 as words. -/
theorem test_constant_words :
    statusBusy = 0x00000001#32 ∧ statusDone = 0x00000002#32 ∧
      statusError .invalidLength = 0x00000016#32 ∧
      statusError .invalidCharacter = 0x00000026#32 ∧
      statusError .invalidPadding = 0x00000036#32 ∧
      statusError .illegalCommand = 0x00000086#32 ∧
      statusError .capacityExceeded = 0x00000096#32 ∧ idWord = 0xB32C0103#32 := by decide

/-- Reset memory has the canonical form, and a store keeps it, in either order of the indexes. -/
theorem test_memory_canonical :
    Memory.wf State.reset.ibuf = true ∧ Memory.wf State.reset.obuf = true ∧
      Memory.store (Memory.store [] 5 1#8) 2 7#8 = Memory.store (Memory.store [] 2 7#8) 5 1#8 ∧
      Memory.store (Memory.store [] 5 1#8) 5 7#8 = [(5, 7#8)] := by decide

/-! ## Witnesses: the hypotheses of each statement, met together -/

/-- A block in progress on a given command at its DISPATCH step, with ILEN given. -/
def dispatching (n w : Nat) : State := inPhase (withLen n) w .dispatch

/-- A block whose last command was an ENC of one byte: OLEN 8, a result in OBUF. -/
def finished : State :=
  { loaded [0x66] with
      status := statusDone, olen := 8#32, outValid := true, ip := 1, optr := 8,
      obuf := Memory.storeList [] 0 (bs (codes "MY======")) }

theorem witness_DecodeAndEncodeAgree :
    Instr.wf .dec = true ∧ decode 0x00000004#32 = .ok .dec := by decide

theorem witness_IllegalWordEndsInIllegalCommand :
    (withLen 8).busy = false ∧ (withLen 8).ph = .idle ∧ 0x00000005#32 ≠ 0x00000001#32 ∧
      0x00000005#32 ≠ 0x00000002#32 ∧ 0x00000005#32 ≠ 0x00000003#32 ∧
      0x00000005#32 ≠ 0x00000004#32 ∧ (tick .micro).rst = false ∧ (tick .micro).pace ≠ .stall ∧
      (tick .whole).rst = false ∧ (tick .whole).pace ≠ .stall := by decide

theorem witness_StepRunsTheDecodedCommand :
    (∀ p : Pace, let s := { dispatching 6 1 with edges := [tick p] };
      s.ph = .dispatch ∧ s.busy = true ∧ decode s.cmdr = .ok .enclen ∧ Instr.wf .enclen = true ∧
        s.edge.rst = false ∧ s.edge.pace = p) ∧ Instr.wf .dec = true := by
  refine ⟨fun p => ?_, by decide⟩
  cases p <;> decide

/-- Each clause at the border of its range: capacities 16 and 16. -/
theorem witness_DispatchMicroSteps :
    ((withLen 17).cfg.capI < (withLen 17).ilen.toNat) ∧
      ((withLen 11).ilen.toNat ≤ (withLen 11).cfg.capI ∧
        (withLen 11).cfg.capO < ((withLen 11).ilen.toNat + 4) / 5 * 8) ∧
      ((withLen 10).ilen.toNat ≤ (withLen 10).cfg.capI ∧
        ((withLen 10).ilen.toNat + 4) / 5 * 8 ≤ (withLen 10).cfg.capO) ∧
      (let s : State := { withLen 16 with cfg := { capI := 16, capO := 9 } };
        s.ilen.toNat ≤ s.cfg.capI ∧ s.cfg.capO < s.ilen.toNat / 8 * 5) ∧
      ((withLen 15).ilen.toNat ≤ (withLen 15).cfg.capI ∧
        (withLen 15).ilen.toNat / 8 * 5 ≤ (withLen 15).cfg.capO ∧
        (withLen 15).ilen.toNat % 8 ≠ 0) ∧
      ((withLen 16).ilen.toNat ≤ (withLen 16).cfg.capI ∧
        (withLen 16).ilen.toNat / 8 * 5 ≤ (withLen 16).cfg.capO ∧
        (withLen 16).ilen.toNat % 8 = 0) := by decide

theorem witness_AcceptanceOfACommandWord :
    ((withLen 6).busy = false ∧ (withLen 6).ph = .idle) ∧
      ((dispatching 6 1).busy = true ∧ (dispatching 6 1).ph ≠ .idle) := by decide

theorem witness_RegisterWindowReads :
    (withLen 6).cfg.wf = true ∧ State.reset.cfg.wf = true ∧
      Config.wf { capI := 8, capO := 2 ^ 28 } = true := by decide

theorem witness_UnassignedAndMisalignedOffsets :
    0x1C ≤ (0x0000001C#32).toNat ∧ 0x1C ≤ (0xFFFFFFFF#32).toNat ∧
      (0x00000001#32).toNat % 4 ≠ 0 ∧ (0x0000001B#32).toNat % 4 ≠ 0 := by decide

theorem witness_OnlyCmdAndIlenTakeWrites :
    (0x04#32 ≠ regOffset .cmd ∧ 0x04#32 ≠ regOffset .ilen) ∧ (dispatching 6 1).busy = true ∧
      (withLen 6).busy = false := by decide

theorem witness_IbufHostSide :
    ((withLen 6).busy = false ∧ (15#32).toNat < (withLen 6).cfg.capI ∧ 0 ≠ (15#32).toNat) ∧
      (dispatching 6 1).busy = true ∧ (withLen 6).cfg.capI ≤ (16#32).toNat := by decide

/-- The last byte of the result, the first above it, the last of the buffer, the first outside. -/
theorem witness_ObufHostSide :
    (finished.busy = false ∧ (7#32).toNat < finished.cfg.capO ∧ finished.outValid = true ∧
        (7#32).toNat < finished.olen.toNat ∧ finished.obufCell (7#32).toNat = some 0x3D#8) ∧
      (finished.busy = false ∧ (8#32).toNat < finished.cfg.capO ∧
        finished.olen.toNat ≤ (8#32).toNat) ∧
      (finished.busy = false ∧ (15#32).toNat < finished.cfg.capO ∧
        finished.olen.toNat ≤ (15#32).toNat) ∧
      ((withLen 6).busy = false ∧ (0#32).toNat < (withLen 6).cfg.capO ∧
        (withLen 6).outValid = false) ∧
      finished.cfg.capO ≤ (16#32).toNat ∧ (dispatching 6 1).busy = true := by decide

theorem witness_ReadsHaveNoSideEffect :
    (finished.ph = .idle ∧ (hostEdge (.outRead 0#32) .micro).rst = false ∧
        (hostEdge (.outRead 0#32) .micro).we = false) ∧
      ((tick .micro).rst = false ∧ (tick .micro).sel = 0#2) ∧
      ((hostEdge (.outWrite 0#32 1#8) .micro).rst = false ∧
        (hostEdge (.outWrite 0#32 1#8) .micro).sel = 3#2 ∧
        (hostEdge (.outWrite 0#32 1#8) .micro).we = true) := by decide

theorem witness_AccessesWhileBusyMakeNoDifference :
    (dispatching 6 1).busy = true ∧ (dispatching 6 1).ph ≠ .idle ∧
      (tick .micro).rst = false ∧ (hostEdge (opWrIlen 9#32) .micro).rst = false ∧
      (tick .micro).pace = (hostEdge (opWrIlen 9#32) .micro).pace := by decide

/-- Two different states with the same view: the one has run on inside. -/
theorem witness_InternalStateIsInvisible :
    finished ≠ { finished with cmdr := 9#32, ip := 3, acc := 5#12, cnt := 3#4 } ∧
      finished.sameView { finished with cmdr := 9#32, ip := 3, acc := 5#12, cnt := 3#4 } :=
  ⟨by decide, rfl, rfl, rfl, rfl, rfl, rfl, fun _ _ => rfl⟩

/-- The invariants hold of a block in the middle of ENC "foob", after step 8 of the trace. -/
def midEnc : State :=
  { inPhase (loaded [0x66, 0x6F, 0x6F, 0x62]) 3 .encRun with
      ip := 4, optr := 4, acc := 0xF62#12, cnt := 12#4,
      obuf := Memory.storeList [] 0 (bs (codes "MZXW")) }

theorem midEnc_inv : midEnc.Inv where
  capacities := by decide
  statusLegal := by decide
  busyIff := by decide
  busyNotDone := by decide
  errDone := by decide
  ecodeErr := by decide
  accFits := by decide
  accEmpty := by decide
  errorOlen := by decide
  busyOlen := by decide
  ipBound := by decide
  optrBound := by decide
  ibufFits := by unfold Memory.fits; decide
  obufFits := by unfold Memory.fits; decide

theorem witness_NoIntermediateResultIsVisible : midEnc.Inv ∧ midEnc.ph ≠ .idle :=
  ⟨midEnc_inv, by decide⟩

theorem witness_ResetEdgeGivesTheResetTable :
    Edge.rst { tick .micro with rst := true } = true ∧ midEnc.cfg.wf = true := by decide

/-- Both sides of the border. -/
theorem witness_EnclenResult :
    (withLen 0x9FFFFFFB).ilen.toNat ≤ 0x9FFFFFFB ∧
      (0x9FFFFFFB < (withLen 0x9FFFFFFC).ilen.toNat ∧ (withLen 0x9FFFFFFC).olen = 0#32) := by
  decide

theorem witness_DeclenResult :
    (withLen 0xFFFFFFF8).ilen.toNat % 8 = 0 ∧ (withLen 0).ilen.toNat % 8 = 0 ∧
      ((withLen 0xFFFFFFFF).ilen.toNat % 8 ≠ 0 ∧ (withLen 0xFFFFFFFF).olen = 0#32) := by decide

theorem witness_SizeCommandsArePure :
    (dispatching 6 1).acc = 0#12 ∧ (dispatching 6 1).cnt = 0#4 ∧ (dispatching 6 1).olen = 0#32 ∧
      State.olen { finished with ilen := 6#32, olen := 0#32 } = 0#32 ∧
      (dispatching 6 1).ilen = State.ilen { finished with ilen := 6#32, olen := 0#32 } := by decide

/-- The largest ENC of a 16 byte OBUF, and a character of its result. -/
theorem witness_EncResult :
    (let s := loaded [0, 1, 2, 3, 4, 5, 6, 7, 8, 9];
      s.cfg.wf = true ∧ s.ilen.toNat ≤ s.cfg.capI ∧
        (s.ilen.toNat + 4) / 5 * 8 ≤ s.cfg.capO ∧
        (base32Encode (s.ibufBytes s.ilen.toNat))[(15#32).toNat]? = some 0x4A#8) := by decide

theorem witness_EncRefusedExactlyBeyondCapacity :
    result (exec .enc (withLen 11)) = some (0x00000096#32, 0#32) ∧
      result (exec .enc (withLen 17)) = some (0x00000096#32, 0#32) := by decide

theorem witness_EncodeShape :
    2 ≤ 7 ∧ 7 < (base32Encode [0x66#8]).length ∧ (base32Encode [0x66#8])[2]? = some 0x3D#8 := by
  decide

theorem witness_EncodeIndexByIndex :
    (0 < (bs [1, 2, 3, 4, 5, 6]).length / 5 ∧ 7 < 8) ∧
      ((bs [1, 2, 3, 4, 5, 6]).length % 5 ≠ 0 ∧ 7 < 8) := by decide

theorem witness_EncodePrefixLaw : (bs [1, 2, 3, 4, 5]).length % 5 = 0 := by decide

/-- One state for each of the five micro-steps, at the borders of the guards. -/
theorem witness_EncoderMicroSteps :
    (tick .micro).rst = false ∧ (tick .micro).pace ≠ .stall ∧
      (midEnc.ph = .encRun ∧ midEnc.busy = true ∧ midEnc.cnt.toNat ≤ 12 ∧
        5 ≤ midEnc.cnt.toNat ∧ midEnc.optr < midEnc.cfg.capO) ∧
      (let s : State := { midEnc with ip := 3, acc := 0x00F#12, cnt := 4#4 };
        s.ph = .encRun ∧ s.busy = true ∧ s.cnt.toNat ≤ 12 ∧ s.cnt.toNat < 5 ∧
          s.ip < s.ilen.toNat ∧ s.ip < s.cfg.capI) ∧
      (let s : State := { midEnc with optr := 6, acc := 2#12, cnt := 2#4 };
        s.ph = .encRun ∧ s.busy = true ∧ s.cnt.toNat ≤ 12 ∧ s.cnt.toNat < 5 ∧
          s.ip = s.ilen.toNat ∧ 0 < s.cnt.toNat ∧ s.optr < s.cfg.capO) ∧
      (let s : State := { midEnc with optr := 7, acc := 0#12, cnt := 0#4 };
        s.ph = .encRun ∧ s.busy = true ∧ s.cnt.toNat ≤ 12 ∧ s.cnt.toNat = 0 ∧
          s.ip = s.ilen.toNat ∧ s.optr % 8 ≠ 0 ∧ s.optr < s.cfg.capO) ∧
      (let s : State := { midEnc with optr := 8, acc := 0#12, cnt := 0#4 };
        s.ph = .encRun ∧ s.busy = true ∧ s.cnt.toNat ≤ 12 ∧ s.cnt.toNat = 0 ∧
          s.ip = s.ilen.toNat ∧ s.optr % 8 = 0) := by decide

/-- ENC of no byte takes two micro-steps; a stall between them, and a host write while busy. -/
theorem witness_EncMicroStepsGiveTheOperationLevel :
    (dispatching 0 3).ph = .dispatch ∧ (dispatching 0 3).busy = true ∧
      decode (dispatching 0 3).cmdr = .ok .enc ∧
      (dispatching 0 3).ilen.toNat ≤ (dispatching 0 3).cfg.capI ∧
      ((dispatching 0 3).ilen.toNat + 4) / 5 * 8 ≤ (dispatching 0 3).cfg.capO ∧
      busyEdges ((dispatching 0 3).ilen.toNat + ((dispatching 0 3).ilen.toNat + 4) / 5 * 8 + 2)
        [tick .micro, tick .stall, hostEdge (opWrIlen 5#32) .micro] := by
  unfold busyEdges; decide

theorem witness_DecResult :
    (let s := loaded (codes "MZXW6YQ=");
      s.cfg.wf = true ∧ s.ilen.toNat ≤ s.cfg.capI ∧ s.ilen.toNat / 8 * 5 ≤ s.cfg.capO ∧
        base32Decode (s.ibufBytes s.ilen.toNat) = .ok (bs [0x66, 0x6F, 0x6F, 0x62]) ∧
        (bs [0x66, 0x6F, 0x6F, 0x62])[(3#32).toNat]? = some 0x62#8) := by decide

theorem witness_FirstErrorInOrder :
    (let s : State := { inPhase (loaded (codes "MZXW6YT=")) 4 .dispatch with edges := [tick .whole] };
      s.ph = .dispatch ∧ s.busy = true ∧ s.edge.rst = false ∧ s.edge.pace = .whole) := by decide

theorem witness_ErrorsLeaveNoPartialOutput :
    (match exec .dec (inPhase (loaded (codes "MZXW6YT=")) 4 .dispatch) with
      | .next t => t.err
      | _ => false) = true := by decide

theorem witness_PadCountIsTheLongestEndingRun :
    (let t := bs (codes "MZXW6YQ=");
      t.length - padCount t ≤ 7 ∧ 7 < t.length ∧ padCount t < t.length) := by decide

theorem witness_PaddingCheckMeaning :
    (let t := bs (codes "MY======");
      paddingBad t = false ∧ t.length % 8 = 0 ∧ t[2]? = some 0x3D#8 ∧ 2 ≤ 7 ∧ 7 < t.length) := by
  decide

/-- An accepted and a rejected text, and the last data character of each valid count. -/
theorem witness_AcceptedTexts :
    ((bs (codes "MZXW6YQ=")).length % 8 = 0 ∧ paddingBad (bs (codes "MZXW6YQ=")) = false) ∧
      ((bs (codes "MZXW6YT=")).length % 8 = 0 ∧ paddingBad (bs (codes "MZXW6YT=")) = false ∧
        padCount (bs (codes "MZXW6YT=")) = 1) ∧
      (paddingBad (bs (codes "MZXW6===")) = false ∧ padCount (bs (codes "MZXW6===")) = 3) ∧
      (paddingBad (bs (codes "MZXQ====")) = false ∧ padCount (bs (codes "MZXQ====")) = 4) ∧
      (paddingBad (bs (codes "MY======")) = false ∧ padCount (bs (codes "MY======")) = 6) ∧
      paddingBad [] = false := by decide

theorem witness_LengthLaws :
    base32Decode (bs (codes "MZXQ====")) = .ok (bs [0x66, 0x6F]) := by decide

/-- The second block of a text, and its last byte. -/
theorem witness_DecodeIndexByIndex :
    base32Decode (bs (codes "MZXW6YTBOI======")) = .ok (bs (codes "foobar")) ∧
      1 < (bs (codes "MZXW6YTBOI======")).length / 8 ∧
      2 = (if 1 < (bs (codes "MZXW6YTBOI======")).length / 8 - 1 then 8
        else 8 - padCount (bs (codes "MZXW6YTBOI======"))) ∧ 0 < 5 * 2 / 8 := by decide

theorem witness_EncodeOfDecodeIsTheText :
    base32Decode (bs (codes "mzXW6===")) = .ok (bs (codes "foo")) := by decide

/-- A state for every clause, at the borders of the guards. -/
def midDec : State := inPhase (loaded (codes "MZXW6YQ=")) 4 .decVal

theorem witness_DecoderMicroSteps_scan :
    midDec.busy = true ∧ (tick .micro).rst = false ∧ (tick .micro).pace ≠ .stall ∧
      (let s : State := { midDec with ip := 7 };
        s.ph = .decVal ∧ s.ip < s.ilen.toNat ∧ s.ip < s.cfg.capI) := by decide

theorem witness_DecoderMicroSteps_verdict :
    (let s : State := { midDec with ip := 8 };
      s.ph = .decVal ∧ s.ip = s.ilen.toNat ∧ s.scan.padErr = false ∧
        s.scan.padCnt ∈ [0, 1, 3, 4, 6] ∧ s.scan.chrErr = false ∧
        s.scan.lastV.toNat % 2 ^ unusedBits s.scan.padCnt = 0) ∧
      (let s : State := { midDec with ip := 8, scan := { midDec.scan with padCnt := 2 } };
        s.ip = s.ilen.toNat ∧ s.scan.padCnt ∉ [0, 1, 3, 4, 6]) ∧
      (let s : State := { midDec with ip := 8, scan := { midDec.scan with chrErr := true } };
        s.ip = s.ilen.toNat ∧ s.scan.padErr = false ∧ s.scan.padCnt ∈ [0, 1, 3, 4, 6] ∧
          s.scan.chrErr = true) ∧
      (let s : State :=
          { midDec with ip := 8, scan := { midDec.scan with padCnt := 1, lastV := 19#5 } };
        s.ip = s.ilen.toNat ∧ s.scan.padErr = false ∧ s.scan.padCnt ∈ [0, 1, 3, 4, 6] ∧
          s.scan.chrErr = false ∧ 0 < s.ilen.toNat ∧
          s.scan.lastV.toNat % 2 ^ unusedBits s.scan.padCnt ≠ 0) := by decide

theorem witness_DecoderMicroSteps_run :
    (let s : State := { midDec with ph := .decRun, ip := 2, acc := 0x199#12, cnt := 10#4 };
      s.ph = .decRun ∧ 8 ≤ s.cnt.toNat ∧ s.optr < s.cfg.capO) ∧
      (let s : State := { midDec with
          ph := .decRun, ip := 6, cnt := 7#4, scan := { midDec.scan with padCnt := 1 } };
        s.ph = .decRun ∧ s.cnt.toNat < 8 ∧ s.ip < s.ilen.toNat - s.scan.padCnt ∧
          s.ip < s.cfg.capI ∧ charToValue (s.ibufByte s.ip) = some 16#5) ∧
      (let s : State := { midDec with
          ph := .decRun, ip := 7, cnt := 3#4, scan := { midDec.scan with padCnt := 1 } };
        s.ph = .decRun ∧ s.cnt.toNat < 8 ∧ s.ip = s.ilen.toNat - s.scan.padCnt) := by decide

/-- DEC of no character takes three micro-steps; of a rejected block, ten. -/
theorem witness_DecMicroStepsGiveTheOperationLevel :
    ((dispatching 0 4).ph = .dispatch ∧ (dispatching 0 4).busy = true ∧
        decode (dispatching 0 4).cmdr = .ok .dec ∧
        (dispatching 0 4).ilen.toNat ≤ (dispatching 0 4).cfg.capI ∧
        (dispatching 0 4).ilen.toNat / 8 * 5 ≤ (dispatching 0 4).cfg.capO ∧
        (dispatching 0 4).ilen.toNat % 8 = 0 ∧
        base32Decode ((dispatching 0 4).ibufBytes (dispatching 0 4).ilen.toNat) = .ok [] ∧
        busyEdges (2 * 0 - padCount ((dispatching 0 4).ibufBytes 0) + 0 + 3)
          [tick .micro, tick .micro, tick .stall, tick .micro]) ∧
      (let s := inPhase (loaded (codes "MZXW6YT=")) 4 .dispatch;
        s.ph = .dispatch ∧ s.busy = true ∧ decode s.cmdr = .ok .dec ∧
          s.ilen.toNat ≤ s.cfg.capI ∧ s.ilen.toNat / 8 * 5 ≤ s.cfg.capO ∧
          s.ilen.toNat % 8 = 0 ∧
          base32Decode (s.ibufBytes s.ilen.toNat) = .error .invalidPadding ∧
          busyEdges (s.ilen.toNat + 2) (List.replicate 10 (tick .micro))) := by
  unfold busyEdges; decide

theorem witness_AlphabetProperties :
    charToValue 0x7A#8 = some 25#5 ∧ classOf 0x7A#8 = .lower ∧
      charToValue 0x5A#8 = some 25#5 ∧ classOf 0x5A#8 = .upper ∧
      charToValue 0x37#8 = some 31#5 ∧ classOf 0x37#8 = .digit := by decide

/-- The borders of every class. -/
theorem witness_ClassesAgreeWithTheTable :
    classOf 0x41#8 = .upper ∧ classOf 0x5A#8 = .upper ∧ classOf 0x61#8 = .lower ∧
      classOf 0x7A#8 = .lower ∧ classOf 0x32#8 = .digit ∧ classOf 0x37#8 = .digit ∧
      classOf 0x31#8 = .invalid ∧ classOf 0x38#8 = .invalid ∧ classOf 0x40#8 = .invalid ∧
      classOf 0x5B#8 = .invalid ∧ classOf 0x60#8 = .invalid ∧ classOf 0x7B#8 = .invalid ∧
      classOf 0xC1#8 = .invalid := by decide

/-- One state for each alternative, and one whose word is illegal. -/
theorem witness_OneMicroStepCommands :
    busyEdges 1 [tick .stall, tick .micro] ∧
      ((dispatching 6 1).ph = .dispatch ∧ (dispatching 6 1).busy = true ∧
        decode (dispatching 6 1).cmdr = .ok .enclen) ∧
      decode (dispatching 6 2).cmdr = .ok .declen ∧
      (decode (dispatching 11 3).cmdr = .ok .enc ∧
        (dispatching 11 3).cfg.capO < ((dispatching 11 3).ilen.toNat + 4) / 5 * 8) ∧
      (decode (dispatching 15 4).cmdr = .ok .dec ∧ (dispatching 15 4).ilen.toNat % 8 ≠ 0) ∧
      decode (dispatching 6 5).cmdr = .error .unknownOpcode := by
  unfold busyEdges; decide

/-- A state and an edge for each clause, with the step's answer. -/
theorem witness_PhaseTransitions :
    (tick .micro).pace ≠ .whole ∧ Edge.rst { tick .micro with rst := true } = true ∧
      ((withLen 6).ph = .idle ∧ (tick .micro).rst = false ∧
        result (step { withLen 6 with edges := [hostEdge (opCmd .enclen) .micro] }) =
          some (1#32, 0#32)) ∧
      ((dispatching 6 3).busy = true ∧ (dispatching 6 3).ph = .dispatch ∧
        (tick .micro).pace = .micro) ∧
      (midEnc.busy = true ∧ midEnc.ph = .encRun) ∧ (midDec.busy = true ∧ midDec.ph = .decVal) ∧
      (State.busy { midDec with ph := .decRun } = true) ∧ (tick .stall).pace = .stall := by decide

/-- A write of ILEN and a write of IBUF, each of which changes what it names. -/
theorem witness_OnlyHostAndResetChangeOperands :
    (match step { withLen 6 with edges := [hostEdge (opWrIlen 9#32) .micro] } with
      | .next t => decide (t.ilen ≠ (withLen 6).ilen)
      | _ => false) = true ∧
      (match step { loaded [1, 2] with edges := [hostEdge (.inWrite 1#32 9#8) .micro] } with
        | .next t => decide (t.ibufByte 1 ≠ (loaded [1, 2]).ibufByte 1)
        | _ => false) = true ∧
      State.edge { withLen 6 with edges := [hostEdge (opWrIlen 9#32) .micro] } =
        hostEdge (opWrIlen 9#32) .micro ∧
      (hostEdge (opWrIlen 9#32) .micro).rst = false := by decide

/-- Two states that differ in what earlier commands left. -/
theorem witness_CommandsAreStateless :
    (let s := loaded [0x66];
      let s' : State := { finished with olen := 0#32 };
      s.ilen = s'.ilen ∧ s.cfg = s'.cfg ∧ s.olen = 0#32 ∧ s'.olen = 0#32 ∧ s.cfg.wf = true ∧
        (∀ k, k < s.ilen.toNat → s.ibufByte k = s'.ibufByte k) ∧ s.obuf ≠ s'.obuf) := by decide

theorem witness_ResetMeetsTheInvariants : Config.wf { capI := 8, capO := 8 } = true := by decide

theorem witness_EveryStepKeepsTheInvariants :
    midEnc.Inv ∧ ∃ t, step { midEnc with edges := [] } = .next t :=
  ⟨midEnc_inv, _, rfl⟩

theorem witness_NoStepStops : midEnc.Good :=
  ⟨midEnc_inv, by
    show _ ∧ _ ∧ _
    decide⟩

end Sys2Proof.Tests
end

section
/-! PROOFS. One step taken apart: the host's access, the clock edge, the sequencer and the DISPATCH
step, each with all it can do, and what no step of the sequencer changes. -/

namespace Sys2Proof.Machine

/-! ## The host's access -/

/-- What a write of the REG space can do (R22, R24). -/
theorem regWrite_cases (s : State) (off w : Word) :
    s.regWrite off w = s ∨
      (s.busy = false ∧ off = 0x00#32 ∧ s.regWrite off w = s.accept w) ∨
      (s.busy = false ∧ off = 0x08#32 ∧ s.regWrite off w = { s with ilen := w }) := by
  unfold State.regWrite
  split
  · exact .inl rfl
  · rename_i hb
    rw [Bool.not_eq_true] at hb
    split
    · exact .inr (.inl ⟨hb, ‹_›, rfl⟩)
    · split
      · exact .inr (.inr ⟨hb, ‹_›, rfl⟩)
      · exact .inl rfl

/-- A write of the REG space to an offset other than those of CMD and ILEN is ignored (R23, R25 to
R28). -/
theorem regWrite_other (s : State) {off : Word} (w : Word) (hc : off ≠ 0x00#32)
    (hi : off ≠ 0x08#32) : s.regWrite off w = s := by
  obtain h | ⟨-, h, -⟩ | ⟨-, h, -⟩ := regWrite_cases s off w
  · exact h
  · exact absurd h hc
  · exact absurd h hi

/-- What a write of the IBUF space can do (R56). -/
theorem inWrite_cases (s : State) (i : Word) (v : Byte) :
    s.inWrite i v = s ∨
      (s.busy = false ∧ i.toNat < s.cfg.capI ∧
        s.inWrite i v = { s with ibuf := Memory.store s.ibuf i.toNat v }) := by
  unfold State.inWrite
  split
  · rename_i h
    exact .inr ⟨h.1, h.2, rfl⟩
  · exact .inl rfl

/-- The accesses that change something, each with the signals it needs (R22, R24, R56). -/
inductive HostChange (s : State) (e : Edge) : State → Prop where
  | accept (busy : s.busy = false) (we : e.we = true) (sel : e.sel = 1#2) (addr : e.addr = 0x00#32) :
      HostChange s e (s.accept e.wdata)
  | setIlen (busy : s.busy = false) (we : e.we = true) (sel : e.sel = 1#2)
      (addr : e.addr = 0x08#32) : HostChange s e { s with ilen := e.wdata }
  | storeIn (busy : s.busy = false) (we : e.we = true) (sel : e.sel = 2#2)
      (addr : e.addr.toNat < s.cfg.capI) :
      HostChange s e { s with ibuf := Memory.store s.ibuf e.addr.toNat (e.wdata.setWidth 8) }

/-- An access changes nothing or is one of the three that change something (R55 to R59). -/
theorem writePort_change (s : State) (e : Edge) :
    s.writePort e = s ∨ HostChange s e (s.writePort e) := by
  unfold State.writePort
  split
  · exact .inl rfl
  · rename_i hw
    rw [Bool.not_eq_false] at hw
    split
    · rename_i hs
      obtain h | ⟨hb, ha, h⟩ | ⟨hb, ha, h⟩ := regWrite_cases s e.addr e.wdata <;> rw [h]
      · exact .inl rfl
      · exact .inr (.accept hb hw hs ha)
      · exact .inr (.setIlen hb hw hs ha)
    · split
      · rename_i hs
        obtain h | ⟨hb, ha, h⟩ := inWrite_cases s e.addr (e.wdata.setWidth 8) <;> rw [h]
        · exact .inl rfl
        · exact .inr (.storeIn hb hw hs ha)
      · exact .inl rfl

/-- IDLE is left only by an acceptance (R31, R71). -/
theorem writePort_idle_ph {s : State} (hp : s.ph = .idle) (e : Edge) :
    (s.writePort e).ph = .idle ∨
      ((s.writePort e).ph = .dispatch ∧ s.busy = false ∧ e.sel = 1#2 ∧ e.we = true ∧
        e.addr = 0#32 ∧ (s.writePort e).cmdr = e.wdata) := by
  obtain h | h := writePort_change s e
  · exact .inl (by rwa [h])
  · generalize s.writePort e = u at h
    cases h with
    | accept busy we sel addr => exact .inr ⟨rfl, busy, sel, we, addr, rfl⟩
    | setIlen | storeIn => exact .inl hp

/-! ## The clock edge -/

/-- What a clock edge can be: a reset, a host access to the idle block, or a step of the sequencer
(R54, R180). -/
theorem clockEdge_next {s t : State} {e : Edge} (h : clockEdge e s = .next t) :
    (e.rst = true ∧ t = s.resetEdge) ∨
      (e.rst = false ∧ s.ph = .idle ∧ t = s.writePort e) ∨
      (e.rst = false ∧ s.ph ≠ .idle ∧ sequencer e.pace (s.writePort e) = .next t) := by
  unfold clockEdge at h
  split at h
  · cases h; exact .inl ⟨‹_›, rfl⟩
  · rename_i hr
    rw [Bool.not_eq_true] at hr
    split at h
    · cases h; exact .inr (.inl ⟨hr, ‹_›, rfl⟩)
    · exact .inr (.inr ⟨hr, ‹_›, h⟩)

/-- A step of the sequencer is a stall, a whole command from DISPATCH, or one micro-step (R11,
R192). -/
theorem sequencer_cases (p : Pace) (s : State) :
    (p = .stall ∧ sequencer p s = .next s) ∨
      (p = .whole ∧ s.ph = .dispatch ∧ sequencer p s = dispatchWith exec s) ∨
      (p ≠ .stall ∧ sequencer p s = microStep s) := by
  cases p with
  | stall => exact .inl ⟨rfl, rfl⟩
  | micro => exact .inr (.inr ⟨by decide, rfl⟩)
  | whole =>
    obtain hp | hp | hp | hp | hp := Phase.cases_or s.ph
    case inr.inl => exact .inr (.inl ⟨rfl, hp, by simp [sequencer, hp]⟩)
    all_goals exact .inr (.inr ⟨by decide, by simp [sequencer, hp]⟩)

/-- The DISPATCH step raises IllegalCommand or runs the command its word selects (R73, R74). -/
theorem dispatchWith_cases (run : Instr → State → Host.Outcome State Fault Refusal) (s : State) :
    dispatchWith run s = .next (s.raise .illegalCommand) ∨
      ∃ i, decode s.cmdr = .ok i ∧ dispatchWith run s = run i s := by
  cases hd : decode s.cmdr with
  | error r => exact .inl (dispatchWith_error hd run)
  | ok i => exact .inr ⟨i, rfl, dispatchWith_ok hd run⟩

/-- A DISPATCH step that answers a next state. -/
theorem dispatchWith_next {run : Instr → State → Host.Outcome State Fault Refusal} {s t : State}
    (h : dispatchWith run s = .next t) :
    t = s.raise .illegalCommand ∨ ∃ i, decode s.cmdr = .ok i ∧ run i s = .next t := by
  obtain hr | ⟨i, hd, hr⟩ := dispatchWith_cases run s <;> rw [hr] at h
  · cases h; exact .inl rfl
  · exact .inr ⟨i, hd, h⟩

/-! ## A whole command -/

/-- How a command may end from a state: in an error, with a length, or with bytes in OBUF (R178). -/
inductive CommandEnd (s : State) : State → Prop where
  | error (ip : Nat) (scan : ScanFlags) (e : Err) :
      CommandEnd s (State.raise { s with ip := ip, scan := scan } e)
  | length (n : Nat) : CommandEnd s (s.complete n)
  | output (out : List Byte) (ip : Nat) (scan : ScanFlags) (fits : out.length ≤ s.cfg.capO) :
      CommandEnd s
        (State.completeOut { s.writeOut out with ip := ip, optr := out.length, scan := scan }
          out.length)

/-- Every command answers a next state, which is one of its ends (R178). -/
theorem exec_end (i : Instr) (s : State) : ∃ t, exec i s = .next t ∧ CommandEnd s t := by
  have raised (e : Err) : CommandEnd s (s.raise e) := .error s.ip s.scan e
  cases i with
  | enclen =>
    obtain ⟨-, h⟩ | ⟨-, h⟩ := execEnclen_cases s
    · exact ⟨_, h, raised _⟩
    · exact ⟨_, h, .length _⟩
  | declen =>
    obtain ⟨-, h⟩ | ⟨-, h⟩ := execDeclen_cases s
    · exact ⟨_, h, raised _⟩
    · exact ⟨_, h, .length _⟩
  | enc =>
    obtain ⟨-, h⟩ | ⟨hf, h⟩ := execEnc_cases s
    · exact ⟨_, h, raised _⟩
    · have hl : (base32Encode (s.ibufBytes s.lenOperand)).length = encodedLength s.lenOperand := by
        rw [base32Encode_length, ibufBytes_length]
      rw [← hl] at h
      exact ⟨_, h, .output _ _ s.scan (hl ▸ (encTooBig_false.1 hf).2)⟩
  | dec =>
    obtain ⟨-, h⟩ | ⟨-, -, h⟩ | ⟨-, -, e, -, h⟩ | ⟨hf, -, out, ho, h⟩ := execDec_cases s
    · exact ⟨_, h, raised _⟩
    · exact ⟨_, h, raised _⟩
    · exact ⟨_, h, .error _ _ e⟩
    · have hl := base32Decode_fits ho
      rw [ibufBytes_length] at hl
      exact ⟨_, h, .output out _ _ (hl.trans (decTooBig_false.1 hf).2)⟩

/-- A command that answers a next state answers one of its ends. -/
theorem exec_next {i : Instr} {s t : State} (h : exec i s = .next t) : CommandEnd s t := by
  obtain ⟨u, hu, hend⟩ := exec_end i s
  cases hu.symm.trans h
  exact hend

/-- After a command the sequencer is IDLE (R167, R168). -/
theorem CommandEnd.ph {s t : State} (h : CommandEnd s t) : t.ph = .idle := by
  cases h <;> rfl

/-! ## What the sequencer leaves unchanged -/

/-- The operands and what they are read through: ILEN, IBUF with its draw, the capacities. -/
def State.sameOperands (s t : State) : Prop :=
  t.ilen = s.ilen ∧ t.ibuf = s.ibuf ∧ t.resets = s.resets ∧ t.cfg = s.cfg

theorem CommandEnd.sameOperands {s t : State} (h : CommandEnd s t) : s.sameOperands t := by
  cases h <;> exact ⟨rfl, rfl, rfl, rfl⟩

/-- A micro-step changes no operand (R24, R36). -/
theorem microStep_sameOperands {s t : State} (h : microStep s = .next t) : s.sameOperands t := by
  obtain hp | hp | hp | hp | hp := Phase.cases_or s.ph
  · rw [microStep_idle hp] at h; cases h
    exact ⟨rfl, rfl, rfl, rfl⟩
  · rw [microStep_dispatch hp] at h
    obtain rfl | ⟨i, -, h⟩ := dispatchWith_next h
    · exact ⟨rfl, rfl, rfl, rfl⟩
    · obtain ⟨e, -, rfl⟩ | ⟨-, -, rfl⟩ | ⟨-, -, rfl⟩ | ⟨-, -, rfl⟩ | ⟨-, -, -, rfl⟩ :=
        microDispatch_cases h <;> exact ⟨rfl, rfl, rfl, rfl⟩
  · rw [microStep_encRun hp] at h
    obtain ⟨-, -, rfl⟩ | ⟨-, -, -, rfl⟩ | ⟨-, -, -, -, rfl⟩ | ⟨-, -, -, -, rfl⟩ | ⟨-, -, -, rfl⟩ :=
      encRunStep_cases h <;> exact ⟨rfl, rfl, rfl, rfl⟩
  · rw [microStep_decVal hp] at h
    obtain ⟨-, -, rfl⟩ | ⟨-, e, -, -, rfl⟩ | ⟨-, -, rfl⟩ :=
      decValStep_cases h <;> exact ⟨rfl, rfl, rfl, rfl⟩
  · rw [microStep_decRun hp] at h
    obtain ⟨-, -, rfl⟩ | ⟨-, -, -, v, -, rfl⟩ | ⟨-, -, rfl⟩ :=
      decRunStep_cases h <;> exact ⟨rfl, rfl, rfl, rfl⟩

/-- No step of the sequencer changes an operand (R24, R36). -/
theorem sequencer_sameOperands {p : Pace} {s t : State} (h : sequencer p s = .next t) :
    s.sameOperands t := by
  obtain ⟨-, hs⟩ | ⟨-, -, hs⟩ | ⟨-, hs⟩ := sequencer_cases p s <;> rw [hs] at h
  · cases h; exact ⟨rfl, rfl, rfl, rfl⟩
  · obtain rfl | ⟨i, -, h⟩ := dispatchWith_next h
    · exact ⟨rfl, rfl, rfl, rfl⟩
    · exact (exec_next h).sameOperands
  · exact microStep_sameOperands h

/-- Without reset a step leaves the operands as the host's access makes them. -/
theorem clockEdge_sameOperands {s t : State} {e : Edge} (h : clockEdge e s = .next t)
    (hr : e.rst = false) : (s.writePort e).sameOperands t := by
  obtain ⟨hr', -⟩ | ⟨-, -, rfl⟩ | ⟨-, -, h⟩ := clockEdge_next h
  · rw [hr] at hr'; cases hr'
  · exact ⟨rfl, rfl, rfl, rfl⟩
  · exact sequencer_sameOperands h

/-- The host's access keeps the capacities (R26). -/
theorem writePort_cfg (s : State) (e : Edge) : (s.writePort e).cfg = s.cfg := by
  obtain h | h := writePort_change s e
  · rw [h]
  · generalize s.writePort e = u at h
    cases h <;> rfl

end Sys2Proof.Machine
end

section
/-! PROOFS. R45's invariants step by step: what a legal STATUS says, the two shapes of a state that
meets the invariants (IDLE, and a command in progress), and that every step keeps them. -/

namespace Sys2Proof.Machine

/-! ## A legal STATUS (R23) -/

/-- R45(b) to (d) hold of each of the eight values of STATUS, and BUSY is set in one of them only. -/
theorem legalStatus_flags : ∀ w ∈ legalStatus,
    ¬(w.getLsbD 0 = true ∧ w.getLsbD 1 = true) ∧ (w.getLsbD 2 = true → w.getLsbD 1 = true) ∧
      (w.extractLsb' 4 4 ≠ 0#4 ↔ w.getLsbD 2 = true) ∧ (w.getLsbD 0 = true → w = statusBusy) := by
  intro w hw
  simp only [legalStatus, List.mem_cons, List.not_mem_nil, or_false] at hw
  rcases hw with rfl | rfl | rfl | rfl | rfl | rfl | rfl | rfl <;> decide

/-- While a command is in progress STATUS is BUSY alone (R71). -/
theorem State.Inv.status_eq {s : State} (h : s.Inv) (hp : s.ph ≠ .idle) : s.status = statusBusy := by
  obtain ⟨-, -, -, hb⟩ := legalStatus_flags _ h.statusLegal
  exact hb (h.busyIff.2 hp)

theorem State.Inv.not_busy {s : State} (h : s.Inv) (hp : s.ph = .idle) : s.busy = false := by
  cases hb : s.busy
  · rfl
  · exact absurd hp (h.busyIff.1 hb)

/-- The host's access changes nothing while a command is in progress (R186). -/
theorem State.Inv.writePort_eq {s : State} (h : s.Inv) (hp : s.ph ≠ .idle) (e : Edge) :
    s.writePort e = s :=
  writePort_busy (h.busyIff.2 hp) e

/-! ## The buffers' part of the invariants -/

/-- The part of `State.Inv` about the capacities, OPTR and the buffers. -/
structure BuffersFit (cfg : Config) (optr : Nat) (ibuf obuf : Memory) : Prop where
  capacities : cfg.wf = true
  optrBound : optr ≤ cfg.capO
  ibufFits : Memory.fits ibuf cfg.capI
  obufFits : Memory.fits obuf cfg.capO

/-- `BuffersFit` of a state's own fields. -/
abbrev State.BuffersFit (s : State) : Prop :=
  Machine.BuffersFit s.cfg s.optr s.ibuf s.obuf

theorem State.Inv.buffers {s : State} (h : s.Inv) : s.BuffersFit :=
  ⟨h.capacities, h.optrBound, h.ibufFits, h.obufFits⟩

/-- An output step inside OBUF keeps the buffers' part (R60). -/
theorem BuffersFit.putOut {cfg : Config} {optr : Nat} {ibuf obuf : Memory}
    (h : BuffersFit cfg optr ibuf obuf) (hc : optr < cfg.capO) (v : Byte) :
    BuffersFit cfg (optr + 1) ibuf (Memory.store obuf optr v) :=
  ⟨h.capacities, hc, h.ibufFits, store_fits h.obufFits hc v⟩

/-! ## The two shapes of a state that meets the invariants -/

/-- The invariants of a state in IDLE. -/
theorem inv_of_idle {t : State} (hf : t.BuffersFit) (hp : t.ph = .idle) (hs : t.status ∈ legalStatus)
    (hb : t.busy = false) (ha : t.acc = 0#12) (hc : t.cnt = 0#4)
    (ho : t.err = true → t.olen = 0#32) : t.Inv := by
  obtain ⟨hbd, hed, hcode, -⟩ := legalStatus_flags _ hs
  exact {
    capacities := hf.capacities
    statusLegal := hs
    busyIff := by simp [hb, hp]
    busyNotDone := hbd
    errDone := hed
    ecodeErr := hcode
    accFits := by rw [ha, hc]; decide
    accEmpty := fun _ _ => ⟨ha, hc⟩
    errorOlen := fun _ => ho
    busyOlen := by simp [hb]
    ipBound := by simp [hp]
    optrBound := hf.optrBound
    ibufFits := hf.ibufFits
    obufFits := hf.obufFits }

/-- The invariants of a state with a command in progress. -/
theorem inv_of_busy {t : State} (hf : t.BuffersFit) (hp : t.ph ≠ .idle) (hs : t.status = statusBusy)
    (ho : t.olen = 0#32) (hacc : t.acc.toNat < 2 ^ t.cnt.toNat ∧ t.cnt.toNat ≤ 12)
    (hempty : t.ph ≠ .encRun → t.ph ≠ .decRun → t.acc = 0#12 ∧ t.cnt = 0#4)
    (hip : t.ph = .encRun ∨ t.ph = .decVal ∨ t.ph = .decRun → t.ip ≤ t.ilen.toNat) : t.Inv := by
  have hl : t.status ∈ legalStatus := by rw [hs]; decide
  have hb : t.busy = true := busy_statusBusy t hs
  obtain ⟨hbd, hed, hcode, -⟩ := legalStatus_flags _ hl
  exact {
    capacities := hf.capacities
    statusLegal := hl
    busyIff := by simp [hb, hp]
    busyNotDone := hbd
    errDone := hed
    ecodeErr := hcode
    accFits := hacc
    accEmpty := hempty
    errorOlen := fun _ _ => ho
    busyOlen := fun _ => ho
    ipBound := hip
    optrBound := hf.optrBound
    ibufFits := hf.ibufFits
    obufFits := hf.obufFits }

/-- The invariants of a state in one of the two run phases that use the accumulator (R35). -/
theorem inv_of_run {t : State} (hf : t.BuffersFit) (hp : t.ph = .encRun ∨ t.ph = .decRun)
    (hs : t.status = statusBusy) (ho : t.olen = 0#32)
    (hacc : t.acc.toNat < 2 ^ t.cnt.toNat ∧ t.cnt.toNat ≤ 12) (hip : t.ip ≤ t.ilen.toNat) :
    t.Inv :=
  inv_of_busy hf (by rcases hp with h | h <;> simp [h]) hs ho hacc
    (fun he hd => (hp.elim he hd).elim) (fun _ => hip)

/-! ## Completion and reset -/

theorem raise_inv {s : State} (hf : s.BuffersFit) (ho : s.olen = 0#32) (e : Err) : (s.raise e).Inv :=
  inv_of_idle hf rfl (statusError_legal e) (busy_statusError _ e rfl) rfl rfl (fun _ => ho)

theorem complete_inv {s : State} (hf : s.BuffersFit) (n : Nat) : (s.complete n).Inv :=
  inv_of_idle hf rfl (by decide : statusDone ∈ legalStatus) (busy_statusDone _ rfl) rfl rfl
    (fun h => absurd h (by decide : ¬statusDone.getLsbD 2 = true))

theorem completeOut_inv {s : State} (hf : s.BuffersFit) (n : Nat) : (s.completeOut n).Inv :=
  { complete_inv hf n with }

/-- The reset state for capacities in range (R42). -/
theorem resetWith_inv {cfg : Config} (h : cfg.wf = true) : (State.resetWith cfg).Inv :=
  inv_of_idle ⟨h, Nat.zero_le _, fits_nil _, fits_nil _⟩ rfl (by decide : 0#32 ∈ legalStatus)
    (by decide : (0#32).getLsbD 0 = false) rfl rfl (fun _ => rfl)

/-- A reset edge (R180). -/
theorem resetEdge_inv {s : State} (h : s.cfg.wf = true) : s.resetEdge.Inv :=
  { resetWith_inv h with }

/-- However a command ends, the invariants hold (R178). -/
theorem CommandEnd.inv {s t : State} (h : CommandEnd s t) (hf : s.BuffersFit)
    (ho : s.olen = 0#32) : t.Inv := by
  cases h with
  | error ip scan e => exact raise_inv (s := { s with ip := ip, scan := scan }) hf ho e
  | length n => exact complete_inv hf n
  | output out ip scan fits =>
    have hout := storeList_fits out s.obuf 0 hf.obufFits (by rwa [Nat.zero_add])
    exact completeOut_inv
      (s := { s.writeOut out with ip := ip, optr := out.length, scan := scan })
      ⟨hf.capacities, fits, hf.ibufFits, hout⟩ _

/-! ## The host's access -/

/-- A host access to the idle block keeps the invariants (R22, R24, R56, R71). -/
theorem writePort_inv {s : State} (h : s.Inv) (hp : s.ph = .idle) (e : Edge) :
    (s.writePort e).Inv := by
  obtain ⟨ha, hc⟩ := h.accEmpty (by simp [hp]) (by simp [hp])
  obtain hw | hw := writePort_change s e
  · rwa [hw]
  · generalize s.writePort e = u at hw
    cases hw with
    | accept =>
      exact inv_of_busy h.buffers (by simp) rfl rfl h.accFits (fun _ _ => ⟨ha, hc⟩) (by simp)
    | setIlen busy =>
      exact inv_of_idle h.buffers hp h.statusLegal busy ha hc
        (fun he => h.errorOlen (h.errDone he) he)
    | storeIn busy _ _ addr =>
      exact inv_of_idle ⟨h.capacities, h.optrBound, store_fits h.ibufFits addr _, h.obufFits⟩ hp
        h.statusLegal busy ha hc (fun he => h.errorOlen (h.errDone he) he)

/-! ## The accumulator (R45(e)) -/

/-- Shifting `k` bits in leaves the accumulator within its valid bits. -/
theorem shiftIn_accFits {s : State} {w k : Nat} (b : BitVec w) (hb : b.toNat < 2 ^ k)
    (ha : s.acc.toNat < 2 ^ s.cnt.toNat) (hc : s.cnt.toNat + k ≤ 12) :
    (s.shiftIn k (b.setWidth 12)).acc.toNat < 2 ^ (s.shiftIn k (b.setWidth 12)).cnt.toNat ∧
      (s.shiftIn k (b.setWidth 12)).cnt.toNat ≤ 12 := by
  have hlt : s.acc.toNat * 2 ^ k + b.toNat < 2 ^ (s.cnt.toNat + k) := by
    rw [Nat.pow_add]
    calc s.acc.toNat * 2 ^ k + b.toNat < (s.acc.toNat + 1) * 2 ^ k := by rw [Nat.add_mul]; omega
      _ ≤ 2 ^ s.cnt.toNat * 2 ^ k := Nat.mul_le_mul_right _ ha
  have h12 : 2 ^ (s.cnt.toNat + k) ≤ 2 ^ 12 := Nat.pow_le_pow_right (by decide) hc
  rw [shiftIn_acc_toNat k b hb (hlt.trans_le h12), shiftIn_cnt_toNat k _ (by omega)]
  exact ⟨hlt, hc⟩

/-- Taking the top bits leaves the accumulator within its valid bits. -/
theorem dropBits_accFits {s : State} (k : Nat) (hc : s.cnt.toNat ≤ 12) :
    (s.dropBits k).acc.toNat < 2 ^ (s.dropBits k).cnt.toNat ∧ (s.dropBits k).cnt.toNat ≤ 12 := by
  rw [dropBits_acc_toNat, dropBits_cnt_toNat]
  exact ⟨Nat.mod_lt _ (Nat.two_pow_pos _), by omega⟩

/-! ## The micro-steps -/

/-- The DISPATCH step keeps the invariants (R116, R141, R74). -/
theorem microDispatch_inv {s t : State} {i : Instr} (h : s.Inv) (hp : s.ph = .dispatch)
    (hs : microDispatch i s = .next t) : t.Inv := by
  have hn : s.ph ≠ .idle := by simp [hp]
  have ho : s.olen = 0#32 := h.busyOlen (h.busyIff.2 hn)
  obtain ⟨e, -, rfl⟩ | ⟨-, -, rfl⟩ | ⟨-, -, rfl⟩ | ⟨-, -, rfl⟩ | ⟨-, -, -, rfl⟩ :=
    microDispatch_cases hs
  · exact raise_inv h.buffers ho e
  · exact complete_inv h.buffers _
  · exact complete_inv h.buffers _
  · exact inv_of_run ⟨h.capacities, Nat.zero_le _, h.ibufFits, h.obufFits⟩ (.inl rfl)
      (h.status_eq hn) ho (by simp) (Nat.zero_le _)
  · exact inv_of_busy h.buffers (by simp) (h.status_eq hn) ho h.accFits
      (fun _ _ => h.accEmpty (by simp [hp]) (by simp [hp])) (fun _ => Nat.zero_le _)

/-- A step of ENC_RUN keeps the invariants (R117 to R121). -/
theorem encRunStep_inv {s t : State} (h : s.Inv) (hp : s.ph = .encRun)
    (hs : encRunStep s = .next t) : t.Inv := by
  have hn : s.ph ≠ .idle := by simp [hp]
  have ho : s.olen = 0#32 := h.busyOlen (h.busyIff.2 hn)
  have hip : s.ip ≤ s.ilen.toNat := h.ipBound (.inl hp)
  obtain ⟨-, hc, rfl⟩ | ⟨hcnt, hi, -, rfl⟩ | ⟨-, -, -, hc, rfl⟩ | ⟨-, -, -, hc, rfl⟩ |
    ⟨-, -, -, rfl⟩ := encRunStep_cases hs
  · exact inv_of_run (h.buffers.putOut hc _) (.inl hp) (h.status_eq hn) ho
      (dropBits_accFits 5 h.accFits.2) hip
  · exact inv_of_run h.buffers (.inl hp) (h.status_eq hn) ho
      (shiftIn_accFits (s := { s with ip := s.ip + 1 }) (k := 8) _ (BitVec.isLt _) h.accFits.1
        (show s.cnt.toNat + 8 ≤ 12 by omega)) hi
  · exact inv_of_run (h.buffers.putOut hc _) (.inl hp) (h.status_eq hn) ho
      (by simp) hip
  · exact inv_of_run (h.buffers.putOut hc _) (.inl hp) (h.status_eq hn) ho h.accFits hip
  · exact completeOut_inv h.buffers _

/-- A step of DEC_VAL keeps the invariants (R142, R143). -/
theorem decValStep_inv {s t : State} (h : s.Inv) (hp : s.ph = .decVal)
    (hs : decValStep s = .next t) : t.Inv := by
  have hn : s.ph ≠ .idle := by simp [hp]
  have ho : s.olen = 0#32 := h.busyOlen (h.busyIff.2 hn)
  obtain ⟨hi, -, rfl⟩ | ⟨-, e, -, -, rfl⟩ | ⟨-, -, rfl⟩ := decValStep_cases hs
  · exact inv_of_busy h.buffers hn (h.status_eq hn) ho h.accFits h.accEmpty (fun _ => hi)
  · exact raise_inv h.buffers ho e
  · exact inv_of_run ⟨h.capacities, Nat.zero_le _, h.ibufFits, h.obufFits⟩ (.inr rfl)
      (h.status_eq hn) ho (by simp) (Nat.zero_le _)

/-- A step of DEC_RUN keeps the invariants (R144 to R146). -/
theorem decRunStep_inv {s t : State} (h : s.Inv) (hp : s.ph = .decRun)
    (hs : decRunStep s = .next t) : t.Inv := by
  have hn : s.ph ≠ .idle := by simp [hp]
  have ho : s.olen = 0#32 := h.busyOlen (h.busyIff.2 hn)
  have hip : s.ip ≤ s.ilen.toNat := h.ipBound (.inr (.inr hp))
  obtain ⟨-, hc, rfl⟩ | ⟨hcnt, hi, -, v, -, rfl⟩ | ⟨-, -, rfl⟩ := decRunStep_cases hs
  · exact inv_of_run (h.buffers.putOut hc _) (.inr hp) (h.status_eq hn) ho
      (dropBits_accFits 8 h.accFits.2) hip
  · exact inv_of_run h.buffers (.inr hp) (h.status_eq hn) ho
      (shiftIn_accFits (s := { s with ip := s.ip + 1 }) (k := 5) v v.isLt h.accFits.1
        (show s.cnt.toNat + 5 ≤ 12 by omega)) (hi.trans_le (Nat.sub_le _ _))
  · exact completeOut_inv h.buffers _

/-- A micro-step keeps the invariants. -/
theorem microStep_inv {s t : State} (h : s.Inv) (hs : microStep s = .next t) : t.Inv := by
  obtain hp | hp | hp | hp | hp := Phase.cases_or s.ph
  · rw [microStep_idle hp] at hs; cases hs; exact h
  · rw [microStep_dispatch hp] at hs
    obtain rfl | ⟨i, -, hs⟩ := dispatchWith_next hs
    · exact raise_inv h.buffers (h.busyOlen (h.busyIff.2 (by simp [hp]))) _
    · exact microDispatch_inv h hp hs
  · rw [microStep_encRun hp] at hs; exact encRunStep_inv h hp hs
  · rw [microStep_decVal hp] at hs; exact decValStep_inv h hp hs
  · rw [microStep_decRun hp] at hs; exact decRunStep_inv h hp hs

/-! ## The step -/

/-- A step of the sequencer at any pace keeps the invariants. -/
theorem sequencer_inv {p : Pace} {s t : State} (h : s.Inv) (hs : sequencer p s = .next t) :
    t.Inv := by
  obtain ⟨-, hq⟩ | ⟨-, hp, hq⟩ | ⟨-, hq⟩ := sequencer_cases p s <;> rw [hq] at hs
  · cases hs; exact h
  · have ho : s.olen = 0#32 := h.busyOlen (h.busyIff.2 (by simp [hp]))
    obtain rfl | ⟨i, -, hs⟩ := dispatchWith_next hs
    · exact raise_inv h.buffers ho _
    · exact (exec_next hs).inv h.buffers ho
  · exact microStep_inv h hs

/-- A clock edge keeps the invariants (R54). -/
theorem clockEdge_inv {s t : State} {e : Edge} (h : s.Inv) (hs : clockEdge e s = .next t) :
    t.Inv := by
  obtain ⟨-, rfl⟩ | ⟨-, hp, rfl⟩ | ⟨-, hp, hs⟩ := clockEdge_next hs
  · exact resetEdge_inv h.capacities
  · exact writePort_inv h hp e
  · rw [h.writePort_eq hp] at hs
    exact sequencer_inv h hs

/-- The invariants say nothing of the inputs still to come. -/
theorem popEdge_inv {s : State} (h : s.Inv) : s.popEdge.Inv :=
  { h with }

end Sys2Proof.Machine

open Sys2Proof Sys2Proof.Machine

/-- Settles O53: each kind of step keeps the invariants. -/
theorem everyStepKeepsTheInvariants : Obligations.EveryStepKeepsTheInvariants := by
  unfold Obligations.EveryStepKeepsTheInvariants
  intro s t h hs
  exact clockEdge_inv (popEdge_inv h) hs

/-- Settles O52: R42's values are those of an idle block with empty buffers. -/
theorem resetMeetsTheInvariants : Obligations.ResetMeetsTheInvariants := by
  unfold Obligations.ResetMeetsTheInvariants
  exact ⟨fun _ h => ⟨resetWith_inv h, trivial⟩, resetWith_inv (by decide), trivial⟩
end

section
/-! PROOFS. Progress: from a good state the one enabled step stays inside the buffers, meets no
character without a value, and leaves the command standing as `State.runOk` says. -/

namespace Sys2Proof.Machine

/-! ## `runOk` phase by phase -/

theorem runOk_of_idle {s : State} (hp : s.ph = .idle) : s.runOk := by
  simp [State.runOk, hp]

theorem runOk_of_dispatch {s : State} (hp : s.ph = .dispatch) : s.runOk := by
  simp [State.runOk, hp]

theorem runOk_encRun {s : State} (hp : s.ph = .encRun) : s.runOk ↔
    s.encTooBig = false ∧ s.ip ≤ s.lenOperand ∧
      (5 * s.optr + s.cnt.toNat = 8 * s.ip ∨
        (s.ip = s.lenOperand ∧ s.cnt.toNat = 0 ∧ 8 * s.lenOperand ≤ 5 * s.optr ∧
          s.optr ≤ encodedLength s.lenOperand)) := by
  simp [State.runOk, hp]

theorem runOk_decVal {s : State} (hp : s.ph = .decVal) : s.runOk ↔
    s.decTooBig = false ∧ s.lenOperand % 8 = 0 ∧ s.ip ≤ s.lenOperand ∧
      s.scan = scanText s.lenOperand 0 (s.ibufBytes s.ip) ScanFlags.zero := by
  simp [State.runOk, hp]

theorem runOk_decRun {s : State} (hp : s.ph = .decRun) : s.runOk ↔
    s.decTooBig = false ∧ s.lenOperand % 8 = 0 ∧
      s.scan.padCnt = padCount (s.ibufBytes s.lenOperand) ∧
      characterBad (s.ibufBytes s.lenOperand) = false ∧
      s.ip ≤ s.lenOperand - s.scan.padCnt ∧ 8 * s.optr + s.cnt.toNat = 5 * s.ip := by
  simp [State.runOk, hp]

/-! ## The encoder's run -/

/-- A step of ENC_RUN answers: the characters written so far and the pending bits are the bits read,
so OPTR stays within `encodedLength` (R34, R117 to R121). -/
theorem encRun_progress {s : State} (hp : s.ph = .encRun) (h : s.runOk) :
    ∃ t, microStep s = .next t ∧ t.runOk := by
  obtain ⟨hfit, hip, hbits⟩ := (runOk_encRun hp).1 h
  obtain ⟨hcapI, hcapO⟩ : s.lenOperand ≤ s.cfg.capI ∧ encodedLength s.lenOperand ≤ s.cfg.capO :=
    encTooBig_false.1 hfit
  have hlen : encodedLength s.lenOperand = (s.lenOperand + 4) / 5 * 8 := rfl
  by_cases h5 : 5 ≤ s.cnt.toNat
  · have ho : s.optr < s.cfg.capO := by omega
    refine ⟨_, microStep_encEmit hp h5 ho, (runOk_encRun (by exact hp)).2 ⟨hfit, hip, .inl ?_⟩⟩
    show 5 * (s.optr + 1) + (s.dropBits 5).cnt.toNat = 8 * s.ip
    rw [dropBits_cnt_toNat]
    omega
  by_cases hi : s.ip < s.lenOperand
  · refine ⟨_, microStep_encAbsorb hp (by omega) hi hcapI,
      (runOk_encRun (by exact hp)).2 ⟨hfit, hi, .inl ?_⟩⟩
    rw [shiftIn_cnt_toNat (s := { s with ip := s.ip + 1 }) 8 _ (show s.cnt.toNat + 8 < 16 by omega)]
    show 5 * s.optr + (s.cnt.toNat + 8) = 8 * (s.ip + 1)
    omega
  have hend : s.ip = s.lenOperand := by omega
  by_cases h0 : 0 < s.cnt.toNat
  · have ho : s.optr < s.cfg.capO := by omega
    refine ⟨_, microStep_encFlush hp (by omega) hi h0 ho,
      (runOk_encRun (by exact hp)).2 ⟨hfit, hip, .inr ⟨hend, rfl, ?_, ?_⟩⟩⟩
    · show 8 * s.lenOperand ≤ 5 * (s.optr + 1)
      omega
    · show s.optr + 1 ≤ encodedLength s.lenOperand
      omega
  have hz : s.cnt.toNat = 0 := by omega
  by_cases h8 : s.optr % 8 = 0
  · exact ⟨_, microStep_encFinish hp hz hi h8, runOk_of_idle rfl⟩
  · have hroom : s.optr + 1 ≤ encodedLength s.lenOperand := by omega
    refine ⟨_, microStep_encPad hp hz hi h8 (by omega),
      (runOk_encRun (by exact hp)).2 ⟨hfit, hip, .inr ⟨hend, hz, ?_, hroom⟩⟩⟩
    show 8 * s.lenOperand ≤ 5 * (s.optr + 1)
    omega

/-! ## The decoder's scan and run -/

/-- A step of DEC_VAL answers, and DEC_RUN is entered with an accepted text only (R142, R143). -/
theorem decVal_progress {s : State} (hp : s.ph = .decVal) (h : s.runOk) :
    ∃ t, microStep s = .next t ∧ t.runOk := by
  obtain ⟨hfit, hm, hip, hscan⟩ := (runOk_decVal hp).1 h
  obtain ⟨hcapI, -⟩ := decTooBig_false.1 hfit
  by_cases hi : s.ip < s.lenOperand
  · refine ⟨_, microStep_scan hp hi hcapI,
      (runOk_decVal (by exact hp)).2 ⟨hfit, hm, hi, ?_⟩⟩
    show scanChar s.lenOperand s.ip (s.ibufByte s.ip) s.scan =
      scanText s.lenOperand 0 (s.ibufBytes (s.ip + 1)) ScanFlags.zero
    rw [ibufBytes_succ, scanText_append, ← hscan, ibufBytes_length, Nat.zero_add]
    rfl
  · have hend : s.ip = s.lenOperand := by omega
    rw [hend] at hscan
    have hverdict := scan_verdict (s.ibufBytes s.lenOperand) (by rwa [ibufBytes_length])
    rw [ibufBytes_length, ← hscan] at hverdict
    refine ⟨_, microStep_verdict hp hi, ?_⟩
    rw [hverdict]
    cases hd : base32Decode (s.ibufBytes s.lenOperand) with
    | error e => exact runOk_of_idle rfl
    | ok out =>
      obtain ⟨-, -, -, hchar, -, d, hnp, ht, -, hpads⟩ := base32Decode_ok hd
      have hle : s.lenOperand ≤ d.length + 8 := by
        have := congrArg List.length ht
        rw [List.length_append, List.length_replicate, ibufBytes_length] at this
        have := padCountOk_le hpads
        omega
      have hcnt : s.scan.padCnt = padCount (s.ibufBytes s.lenOperand) := by
        have hsplit := scanText_split (p := padCount (s.ibufBytes s.lenOperand)) hnp hle
        rw [← ht, ← hscan] at hsplit
        rw [hsplit]
      exact (runOk_decRun rfl).2 ⟨hfit, hm, hcnt, hchar, Nat.zero_le _, rfl⟩

/-- A data position of a text that passed check 3 has a value (R135). -/
theorem charToValue_of_characterBad {t : List Byte} (h : characterBad t = false) {i : Nat}
    (hi : i < t.length - padCount t) : (charToValue (t[i]'(by omega))).isNone = false := by
  simp only [characterBad, List.any_eq_false, Bool.not_eq_true] at h
  refine h _ (List.mem_iff_getElem.2 ⟨i, ?_, List.getElem_take⟩)
  rw [dataPart, List.length_take]
  omega

/-- A step of DEC_RUN answers: the bytes written so far and the pending bits are the bits read, so
OPTR stays within `decodedBound`, and each character read has its value (R34, R144 to R146). -/
theorem decRun_progress {s : State} (hp : s.ph = .decRun) (h : s.runOk) :
    ∃ t, microStep s = .next t ∧ t.runOk := by
  obtain ⟨hfit, hm, hpad, hchar, hip, hbits⟩ := (runOk_decRun hp).1 h
  obtain ⟨hcapI, hcapO⟩ : s.lenOperand ≤ s.cfg.capI ∧ s.lenOperand / 8 * 5 ≤ s.cfg.capO :=
    decTooBig_false.1 hfit
  by_cases h8 : 8 ≤ s.cnt.toNat
  · have ho : s.optr < s.cfg.capO := by omega
    refine ⟨_, microStep_decEmit hp h8 ho,
      (runOk_decRun (by exact hp)).2 ⟨hfit, hm, hpad, hchar, hip, ?_⟩⟩
    show 8 * (s.optr + 1) + (s.dropBits 8).cnt.toNat = 5 * s.ip
    rw [dropBits_cnt_toNat]
    omega
  by_cases hi : s.ip < s.lenOperand - s.scan.padCnt
  · have hv : (charToValue (s.ibufByte s.ip)).isNone = false := by
      have := charToValue_of_characterBad hchar (i := s.ip) (by rwa [ibufBytes_length, ← hpad])
      simpa [State.ibufBytes] using this
    refine ⟨_, microStep_decAbsorb hp (by omega) hi hcapI hv,
      (runOk_decRun (by exact hp)).2 ⟨hfit, hm, hpad, hchar, hi, ?_⟩⟩
    rw [shiftIn_cnt_toNat (s := { s with ip := s.ip + 1 }) 5 _ (show s.cnt.toNat + 5 < 16 by omega)]
    show 8 * s.optr + (s.cnt.toNat + 5) = 5 * (s.ip + 1)
    omega
  · exact ⟨_, microStep_decFinish hp (by omega) hi, runOk_of_idle rfl⟩

/-! ## DISPATCH and the step -/

/-- The DISPATCH step of every command answers and enters its run phase as the phase requires (R116,
R141). -/
theorem microDispatch_progress (i : Instr) (s : State) :
    ∃ t, microDispatch i s = .next t ∧ t.runOk := by
  cases i with
  | enclen =>
    obtain ⟨-, h⟩ | ⟨-, h⟩ := execEnclen_cases s <;> exact ⟨_, h, runOk_of_idle rfl⟩
  | declen =>
    obtain ⟨-, h⟩ | ⟨-, h⟩ := execDeclen_cases s <;> exact ⟨_, h, runOk_of_idle rfl⟩
  | enc =>
    cases hfit : s.encTooBig with
    | true => exact ⟨_, if_pos hfit, runOk_of_idle rfl⟩
    | false =>
      exact ⟨s.enterRun .encRun, if_neg (by simp [hfit]),
        (runOk_encRun rfl).2 ⟨hfit, Nat.zero_le _, .inl rfl⟩⟩
  | dec =>
    cases hfit : s.decTooBig with
    | true => exact ⟨_, if_pos hfit, runOk_of_idle rfl⟩
    | false =>
      by_cases hm : s.lenOperand % 8 = 0
      · exact ⟨{ s with ip := 0, scan := ScanFlags.zero, ph := .decVal },
          (if_neg (by simp [hfit])).trans (if_neg (by simpa using hm)),
          (runOk_decVal rfl).2 ⟨hfit, hm, Nat.zero_le _, rfl⟩⟩
      · exact ⟨_, (if_neg (by simp [hfit])).trans (if_pos hm), runOk_of_idle rfl⟩

/-- The DISPATCH step answers if every command does (R73, R74). -/
theorem dispatchWith_progress {run : Instr → State → Host.Outcome State Fault Refusal} {s : State}
    (h : ∀ i, ∃ t, run i s = .next t ∧ t.runOk) : ∃ t, dispatchWith run s = .next t ∧ t.runOk := by
  obtain hr | ⟨i, -, hr⟩ := dispatchWith_cases run s <;> rw [hr]
  · exact ⟨_, rfl, runOk_of_idle rfl⟩
  · exact h i

/-- One micro-step is enabled in every phase, and it answers (R190). -/
theorem microStep_progress {s : State} (h : s.runOk) : ∃ t, microStep s = .next t ∧ t.runOk := by
  obtain hp | hp | hp | hp | hp := Phase.cases_or s.ph
  · exact ⟨s, microStep_idle hp, h⟩
  · rw [microStep_dispatch hp]
    exact dispatchWith_progress fun i => microDispatch_progress i s
  · exact encRun_progress hp h
  · exact decVal_progress hp h
  · exact decRun_progress hp h

/-- The sequencer answers at every pace. -/
theorem sequencer_progress (p : Pace) {s : State} (h : s.runOk) :
    ∃ t, sequencer p s = .next t ∧ t.runOk := by
  obtain ⟨-, hs⟩ | ⟨-, -, hs⟩ | ⟨-, hs⟩ := sequencer_cases p s <;> rw [hs]
  · exact ⟨s, rfl, h⟩
  · refine dispatchWith_progress fun i => ?_
    obtain ⟨t, ht, hend⟩ := exec_end i s
    exact ⟨t, ht, runOk_of_idle hend.ph⟩
  · exact microStep_progress h

/-- A clock edge answers, and the command in progress stands as its steps leave it (R54). -/
theorem clockEdge_progress {s : State} (h : s.Good) (e : Edge) :
    ∃ t, clockEdge e s = .next t ∧ t.runOk := by
  obtain ⟨hinv, hrun⟩ := h
  unfold clockEdge
  split
  · exact ⟨_, rfl, runOk_of_idle rfl⟩
  · split
    · rename_i hp
      exact ⟨_, rfl, (writePort_idle_ph hp e).elim runOk_of_idle fun h => runOk_of_dispatch h.1⟩
    · rename_i hp
      rw [hinv.writePort_eq hp]
      exact sequencer_progress e.pace hrun

end Sys2Proof.Machine

open Sys2Proof Sys2Proof.Machine

/-- Settles O54: a clock edge answers from every good state, and it keeps R45's invariants. -/
theorem noStepStops : Obligations.NoStepStops := by
  unfold Obligations.NoStepStops
  intro s h
  obtain ⟨hinv, hrun⟩ := h
  have hpop : s.popEdge.Good := ⟨popEdge_inv hinv, hrun⟩
  obtain ⟨t, ht, hok⟩ := clockEdge_progress hpop s.edge
  exact ⟨t, ht, clockEdge_inv hpop.1 ht, hok⟩
end

section
/-! PROOFS. What the host sees and changes through the port, and the statements about the port:
reads, writes, reset, and what no read shows (spec/10_state.md R21 to R28, R42, R43). -/

namespace Sys2Proof.Machine

/-! ## The register window -/

@[simp] theorem regRead_cmd (s : State) : s.regRead (regOffset .cmd) = 0#32 := rfl
@[simp] theorem regRead_id (s : State) : s.regRead (regOffset .id) = 0xB32C0103#32 := by
  show idWord = _
  decide
@[simp] theorem regRead_unassigned (s : State) : s.regRead (regOffset .unassigned) = 0#32 := rfl

/-- A capacity in R7's range fits a register (R26). -/
theorem capOk_lt {n : Nat} (h : Config.capOk n = true) : n < 2 ^ 32 := by
  simp only [Config.capOk, Bool.and_eq_true, decide_eq_true_eq] at h
  omega

theorem regRead_capi {s : State} (h : s.cfg.wf = true) :
    (s.regRead (regOffset .capi)).toNat = s.cfg.capI := by
  obtain ⟨hi, -⟩ := Bool.and_eq_true_iff.1 h
  show (BitVec.ofNat 32 s.cfg.capI).toNat = _
  rw [BitVec.toNat_ofNat, Nat.mod_eq_of_lt (capOk_lt hi)]

theorem regRead_capo {s : State} (h : s.cfg.wf = true) :
    (s.regRead (regOffset .capo)).toNat = s.cfg.capO := by
  obtain ⟨-, ho⟩ := Bool.and_eq_true_iff.1 h
  show (BitVec.ofNat 32 s.cfg.capO).toNat = _
  rw [BitVec.toNat_ofNat, Nat.mod_eq_of_lt (capOk_lt ho)]

/-- An unassigned or misaligned offset differs from each aligned offset below 0x1C. -/
theorem ne_assigned {off a : Word} (h : 0x1C ≤ off.toNat ∨ off.toNat % 4 ≠ 0) (ha : a.toNat < 0x1C)
    (h4 : a.toNat % 4 = 0) : off ≠ a := by
  rintro rfl
  omega

/-- An unassigned or misaligned offset reads 0 (R28). -/
theorem regRead_unassigned_offset (s : State) {off : Word}
    (h : 0x1C ≤ off.toNat ∨ off.toNat % 4 ≠ 0) : s.regRead off = 0#32 := by
  have ne (a : Word) (ha : a.toNat < 0x1C) (h4 : a.toNat % 4 = 0) : off ≠ a := ne_assigned h ha h4
  unfold State.regRead
  rw [if_neg (ne _ (by decide) (by decide)), if_neg (ne _ (by decide) (by decide)),
    if_neg (ne _ (by decide) (by decide)), if_neg (ne _ (by decide) (by decide)),
    if_neg (ne _ (by decide) (by decide)), if_neg (ne _ (by decide) (by decide))]

/-- The fields of STATUS after reset (R23, R42). -/
theorem resetEdge_flags (s : State) :
    s.resetEdge.busy = false ∧ s.resetEdge.done = false ∧ s.resetEdge.err = false ∧
      s.resetEdge.ecode = 0#4 := by
  simp only [State.busy, State.done, State.err, State.ecode, resetEdge_status]
  decide

/-! ## What a read shows -/

/-- A read of OBUF while BUSY = 1 gets 0 (R57). -/
theorem outRead_busy {s : State} (h : s.busy = true) (j : Word) : s.outRead j = 0#32 :=
  if_neg (by simp [h])

/-- The register window shows STATUS, ILEN, OLEN and the capacities only (R21). -/
theorem regRead_congr {s t : State} (h : s.sameView t) (off : Word) :
    s.regRead off = t.regRead off := by
  obtain ⟨hs, hi, ho, hc, -⟩ := h
  simp only [State.regRead, hs, hi, ho, hc]

/-- The OBUF space shows BUSY, the result below OLEN and the free values only (R57). -/
theorem outRead_congr {s t : State} (h : s.sameView t) (j : Word) : s.outRead j = t.outRead j := by
  obtain ⟨hs, -, ho, hc, hd, hv, hcell⟩ := h
  have hbyte (k : Nat) : s.obufHostByte k = t.obufHostByte k := by
    unfold State.obufHostByte
    by_cases hk : k < s.olen.toNat
    · rw [hcell k hk, hv, ho, hd]
    · rw [if_neg (fun hh => hk hh.2), if_neg (fun hh => hk (ho ▸ hh.2)), hd]
  simp only [State.outRead, busy_congr hs, hc, hbyte]

end Sys2Proof.Machine

open Sys2Proof Sys2Proof.Machine

/-- Settles O9: such an offset is none of the seven that a read or a write tests for. -/
theorem unassignedAndMisalignedOffsets : Obligations.UnassignedAndMisalignedOffsets := by
  unfold Obligations.UnassignedAndMisalignedOffsets
  intro s off w p h
  exact ⟨regRead_unassigned_offset s h,
    regWrite_other s w (ne_assigned h (by decide) (by decide))
      (ne_assigned h (by decide) (by decide))⟩

/-- Settles O15: each space is read through elements of the view only. -/
theorem internalStateIsInvisible : Obligations.InternalStateIsInvisible := by
  unfold Obligations.InternalStateIsInvisible
  intro s t h e
  simp only [State.readPort, regRead_congr h, outRead_congr h]

/-- Settles O16: with a command in progress STATUS is BUSY alone, OLEN is 0 and OBUF is closed. -/
theorem noIntermediateResultIsVisible : Obligations.NoIntermediateResultIsVisible := by
  unfold Obligations.NoIntermediateResultIsVisible
  intro s p h hp
  have hb : s.busy = true := h.busyIff.2 hp
  refine ⟨?_, h.busyOlen hb, outRead_busy hb⟩
  show s.status = _
  rw [h.status_eq hp]
  decide

/-- Settles O8: each offset of R21's window in turn. -/
theorem registerWindowReads : Obligations.RegisterWindowReads := by
  unfold Obligations.RegisterWindowReads
  intro s p h
  exact ⟨regRead_cmd s, regRead_status s, regRead_ilen s, regRead_olen s, regRead_id s, regRead_capi h,
    regRead_capo h, regRead_unassigned s⟩

/-- Settles O10: a write of the REG space acts only at the offsets of CMD and ILEN while BUSY = 0. -/
theorem onlyCmdAndIlenTakeWrites : Obligations.OnlyCmdAndIlenTakeWrites := by
  unfold Obligations.OnlyCmdAndIlenTakeWrites
  intro s p
  refine ⟨fun off w hc hi => regWrite_other s w hc hi, fun hb off w => regWrite_busy hb off w,
    fun hb v => ?_⟩
  have hw : s.writePort (hostEdge (opWrIlen v) p) = { s with ilen := v } := regWrite_ilen hb v
  exact ⟨hw, by rw [hw]; rfl⟩

/-- Settles O17: the reset edge gives `State.resetEdge`, whose fields are R42's values. -/
theorem resetEdgeGivesTheResetTable : Obligations.ResetEdgeGivesTheResetTable := by
  unfold Obligations.ResetEdgeGivesTheResetTable
  intro s e rest hr hwf
  have hstep : step { s with edges := e :: rest } =
      .next (State.resetEdge { s with edges := rest }) := by
    rw [step_cons]
    exact if_pos hr
  obtain ⟨hbusy, hdone, herr, hcode⟩ := resetEdge_flags { s with edges := rest }
  exact ⟨rfl, _, hstep, rfl, hbusy, hdone, herr, hcode, rfl, rfl, rfl,
    regRead_id (State.resetEdge { s with edges := rest }), regRead_capi (s := State.resetEdge _) hwf,
    regRead_capo (s := State.resetEdge _) hwf, rfl, rfl, rfl, rfl, rfl, rfl, rfl, rfl, rfl, rfl, rfl,
    fun _ => rfl, fun _ => rfl, rfl, rfl⟩
end

section
/-! PROOFS. Where each step leads (spec/10_state.md R31), and what changes the operands (R24, R36). -/

namespace Sys2Proof.Machine

/-! ## Command words -/

theorem opcodeInstr_opc {o : BitVec 8} {i : Instr} (h : opcodeInstr o = some i) : i.opc = o := by
  unfold opcodeInstr at h
  split_ifs at h with h1 h2 h3 h4 <;> cases h
  · exact h1.symm
  · exact h2.symm
  · exact h3.symm
  · exact h4.symm

/-- The two fields of a word put back together (R70). -/
theorem toWord_ofWord (w : Word) : (CmdWord.ofWord w).toWord = w := by
  apply BitVec.eq_of_toNat_eq
  simp only [CmdWord.toWord, CmdWord.ofWord, BitVec.toNat_append, BitVec.extractLsb'_toNat,
    Nat.shiftRight_eq_div_pow]
  rw [← Nat.shiftLeft_add_eq_or_of_lt (by omega), Nat.shiftLeft_eq]
  have := w.isLt
  omega

/-- A word that decodes to a command is the command's encoding (R70, R72). -/
theorem encode_of_decode {w : Word} {i : Instr} (h : decode w = .ok i) : encode i = w := by
  unfold decode at h
  split at h
  · cases h
  · rename_i hrsv
    split at h
    · rename_i j hj
      cases h
      rw [encode, opcodeInstr_opc hj, ← Decidable.not_not.1 hrsv]
      exact toWord_ofWord w
    · cases h

/-! ## Phases -/

/-- DISPATCH leads to IDLE, or to the run phase of the command CMDR selects (R31). -/
theorem dispatch_ph {s t : State} (h : dispatchWith microDispatch s = .next t) :
    t.ph = .idle ∨ (t.ph = .encRun ∧ s.cmdr = encode .enc) ∨
      (t.ph = .decVal ∧ s.cmdr = encode .dec) := by
  obtain rfl | ⟨i, hd, h⟩ := dispatchWith_next h
  · exact .inl rfl
  · obtain ⟨e, -, rfl⟩ | ⟨-, -, rfl⟩ | ⟨-, -, rfl⟩ | ⟨rfl, -, rfl⟩ | ⟨rfl, -, -, rfl⟩ :=
      microDispatch_cases h
    · exact .inl rfl
    · exact .inl rfl
    · exact .inl rfl
    · exact .inr (.inl ⟨rfl, (encode_of_decode hd).symm⟩)
    · exact .inr (.inr ⟨rfl, (encode_of_decode hd).symm⟩)

theorem encRunStep_ph {s t : State} (h : encRunStep s = .next t) : t.ph = s.ph ∨ t.ph = .idle := by
  obtain ⟨-, -, rfl⟩ | ⟨-, -, -, rfl⟩ | ⟨-, -, -, -, rfl⟩ | ⟨-, -, -, -, rfl⟩ | ⟨-, -, -, rfl⟩ :=
    encRunStep_cases h
  · exact .inl rfl
  · exact .inl rfl
  · exact .inl rfl
  · exact .inl rfl
  · exact .inr rfl

theorem decValStep_ph {s t : State} (h : decValStep s = .next t) :
    t.ph = s.ph ∨ t.ph = .decRun ∨ t.ph = .idle := by
  obtain ⟨-, -, rfl⟩ | ⟨-, e, -, -, rfl⟩ | ⟨-, -, rfl⟩ := decValStep_cases h
  · exact .inl rfl
  · exact .inr (.inr rfl)
  · exact .inr (.inl rfl)

theorem decRunStep_ph {s t : State} (h : decRunStep s = .next t) : t.ph = s.ph ∨ t.ph = .idle := by
  obtain ⟨-, -, rfl⟩ | ⟨-, -, -, v, -, rfl⟩ | ⟨-, -, rfl⟩ := decRunStep_cases h
  · exact .inl rfl
  · exact .inl rfl
  · exact .inr rfl

/-- The transition table of the micro-steps (R31). -/
theorem microStep_ph {s t : State} (h : microStep s = .next t) :
    (s.ph = .dispatch → t.ph = .idle ∨ (t.ph = .encRun ∧ s.cmdr = encode .enc) ∨
      (t.ph = .decVal ∧ s.cmdr = encode .dec)) ∧
    (s.ph = .encRun → t.ph = .encRun ∨ t.ph = .idle) ∧
    (s.ph = .decVal → t.ph = .decVal ∨ t.ph = .decRun ∨ t.ph = .idle) ∧
    (s.ph = .decRun → t.ph = .decRun ∨ t.ph = .idle) := by
  refine ⟨fun hp => ?_, fun hp => ?_, fun hp => ?_, fun hp => ?_⟩
  · exact dispatch_ph ((microStep_dispatch hp).symm.trans h)
  · exact hp ▸ encRunStep_ph ((microStep_encRun hp).symm.trans h)
  · exact hp ▸ decValStep_ph ((microStep_decVal hp).symm.trans h)
  · exact hp ▸ decRunStep_ph ((microStep_decRun hp).symm.trans h)

/-! ## Operands -/

/-- Only a write to ILEN while BUSY = 0 changes ILEN (R24). -/
theorem writePort_ilen {s : State} {e : Edge} (h : (s.writePort e).ilen ≠ s.ilen) :
    s.busy = false ∧ e.we = true ∧ e.sel = 1#2 ∧ e.addr = 0x08#32 ∧
      (s.writePort e).ilen = e.wdata := by
  obtain hw | hw := writePort_change s e
  · exact absurd (by rw [hw]) h
  · generalize s.writePort e = u at h hw
    cases hw with
    | accept | storeIn => exact absurd rfl h
    | setIlen busy we sel addr => exact ⟨busy, we, sel, addr, rfl⟩

/-- Only a write of its index while BUSY = 0 changes a byte of IBUF (R36, R56). -/
theorem writePort_ibufByte {s : State} {e : Edge} {k : Nat}
    (h : (s.writePort e).ibufByte k ≠ s.ibufByte k) :
    s.busy = false ∧ e.we = true ∧ e.sel = 2#2 ∧ e.addr.toNat = k := by
  obtain hw | hw := writePort_change s e
  · exact absurd (by rw [hw]) h
  · generalize s.writePort e = u at h hw
    cases hw with
    | accept | setIlen => exact absurd rfl h
    | storeIn busy we sel addr =>
      refine ⟨busy, we, sel, ?_⟩
      by_contra hk
      apply h
      simp only [State.ibufByte, lookup_store_other _ _ (Ne.symm hk)]

end Sys2Proof.Machine

open Sys2Proof Sys2Proof.Machine

/-- Settles O49: each phase's step in turn; BUSY = 1 keeps the host from the state. -/
theorem phaseTransitions : Obligations.PhaseTransitions := by
  unfold Obligations.PhaseTransitions
  intro s t e rest hpace hstep
  rw [step_cons] at hstep
  refine ⟨fun hr => ?_, fun hr hp => ?_, fun hr hb hm => ?_, fun hr hb hp hst => ?_⟩
  · obtain ⟨-, rfl⟩ | ⟨hr', -⟩ | ⟨hr', -⟩ := clockEdge_next hstep
    · rfl
    · rw [hr] at hr'; cases hr'
    · rw [hr] at hr'; cases hr'
  · obtain ⟨hr', -⟩ | ⟨-, -, rfl⟩ | ⟨-, hn, -⟩ := clockEdge_next hstep
    · rw [hr] at hr'; cases hr'
    · exact writePort_idle_ph (s := { s with edges := rest }) hp e
    · exact absurd hp hn
  · by_cases hp : s.ph = .idle
    · simp [hp]
    · have h := clockEdge_micro (s := { s with edges := rest }) hb hp hr hm
      exact microStep_ph (s := { s with edges := rest }) (h.symm.trans hstep)
  · have h := clockEdge_stall (s := { s with edges := rest }) hb hp hr hst
    cases h.symm.trans hstep
    rfl

/-- Settles O50: without reset the step's operands are those the host's access leaves, and the access
changes an operand only by a write to it. -/
theorem onlyHostAndResetChangeOperands : Obligations.OnlyHostAndResetChangeOperands := by
  unfold Obligations.OnlyHostAndResetChangeOperands
  intro s t hstep
  have hfree (hr : s.edge.rst = false) : (s.popEdge.writePort s.edge).sameOperands t :=
    clockEdge_sameOperands hstep hr
  refine ⟨?_, fun hr => ?_⟩
  · cases hr : s.edge.rst with
    | false =>
      obtain ⟨-, -, -, hc⟩ := hfree hr
      exact hc.trans (writePort_cfg s.popEdge s.edge)
    | true =>
      have h : clockEdge s.edge s.popEdge = .next s.popEdge.resetEdge := if_pos hr
      cases h.symm.trans hstep
      rfl
  · obtain ⟨hi, hb, hres, -⟩ := hfree hr
    refine ⟨fun hne => ?_, fun k hne => ?_⟩
    · rw [hi] at hne ⊢
      exact writePort_ilen (s := s.popEdge) hne
    · rw [ibufByte_congr hb hres k] at hne
      exact writePort_ibufByte (s := s.popEdge) hne
end

section
/-! PROOFS. A command's outcome from its inputs alone (spec/10_state.md R44). -/

namespace Sys2Proof.Machine

/-- The same outcome for a host: STATUS, OLEN, and OBUF below OLEN (R44). -/
def State.sameOutcome (t t' : State) : Prop :=
  t.status = t'.status ∧ t.olen = t'.olen ∧ ∀ j, j < t.olen.toNat → t.obufCell j = t'.obufCell j

/-- The same error from OLEN = 0, whatever else differs (R168). -/
theorem raise_sameOutcome {s s' : State} (h : s.olen = 0#32) (h' : s'.olen = 0#32) (e : Err) :
    (s.raise e).sameOutcome (s'.raise e) :=
  ⟨rfl, h.trans h'.symm, fun j hj => absurd hj (by simp [h])⟩

/-- A buffer below the OLEN of a completion holds the bytes written (R37, R167). -/
theorem lookup_storeList_lt_olen (m : Memory) {out : List Byte} {j : Nat}
    (h : j < (BitVec.ofNat 32 out.length).toNat) :
    Memory.lookup (Memory.storeList m 0 out) j = out[j]? := by
  have hj : j < out.length := h.trans_le (by rw [BitVec.toNat_ofNat]; exact Nat.mod_le _ _)
  rw [lookup_storeList, if_pos ⟨Nat.zero_le _, by omega⟩, Nat.sub_zero]

/-- Two completions with the same bytes written, whatever OBUF held before (R37, R167). -/
theorem completeOut_sameOutcome {u u' : State} {m m' : Memory} {out out' : List Byte}
    (hout : out = out') (h : u.obuf = Memory.storeList m 0 out)
    (h' : u'.obuf = Memory.storeList m' 0 out') :
    (u.completeOut out.length).sameOutcome (u'.completeOut out'.length) := by
  subst hout
  refine ⟨rfl, rfl, fun j hj => ?_⟩
  simp only [State.obufCell, completeOut_obuf, h, h']
  rw [lookup_storeList_lt_olen m hj, lookup_storeList_lt_olen m' hj]

/-- Equal bytes at each index below ILEN and equal ILEN are equal inputs. -/
theorem input_congr {s s' : State} (hlen : s.ilen = s'.ilen)
    (h : ∀ k, k < s.ilen.toNat → s.ibufByte k = s'.ibufByte k) :
    s.ibufBytes s.lenOperand = s'.ibufBytes s'.lenOperand := by
  rw [State.lenOperand, State.lenOperand, ← hlen]
  exact List.map_congr_left fun k hk => h k (List.mem_range.1 hk)

/-! ## The commands, an equation per case -/

theorem execEnc_tooBig {s : State} (h : s.encTooBig = true) :
    execEnc s = .next (s.raise .capacityExceeded) := if_pos h

theorem execEnc_fits {s : State} (h : s.encTooBig = false) :
    execEnc s = .next (State.completeOut
      { s.writeOut (base32Encode (s.ibufBytes s.lenOperand)) with
          ip := s.lenOperand, optr := (base32Encode (s.ibufBytes s.lenOperand)).length }
      (base32Encode (s.ibufBytes s.lenOperand)).length) := if_neg (by simp [h])

theorem execDec_tooBig {s : State} (h : s.decTooBig = true) :
    execDec s = .next (s.raise .capacityExceeded) := if_pos h

theorem execDec_badLength {s : State} (h : s.decTooBig = false) (hm : s.lenOperand % 8 ≠ 0) :
    execDec s = .next (s.raise .invalidLength) := (if_neg (by simp [h])).trans (if_pos hm)

theorem execDec_error {s : State} (h : s.decTooBig = false) (hm : s.lenOperand % 8 = 0) {e : Err}
    (hd : base32Decode (s.ibufBytes s.lenOperand) = .error e) :
    execDec s = .next (State.raise
      { s with
          ip := s.lenOperand,
          scan := scanText s.lenOperand 0 (s.ibufBytes s.lenOperand) ScanFlags.zero } e) := by
  unfold execDec
  rw [if_neg (by simp [h]), if_neg (by simpa using hm)]
  simp only [hd]

theorem execDec_ok {s : State} (h : s.decTooBig = false) (hm : s.lenOperand % 8 = 0)
    {out : List Byte} (hd : base32Decode (s.ibufBytes s.lenOperand) = .ok out) :
    execDec s = .next (State.completeOut
      { s.writeOut out with
          ip := s.lenOperand - padCount (s.ibufBytes s.lenOperand), optr := out.length,
          scan := scanText s.lenOperand 0 (s.ibufBytes s.lenOperand) ScanFlags.zero }
      out.length) := by
  unfold execDec
  rw [if_neg (by simp [h]), if_neg (by simpa using hm)]
  simp only [hd]
  rfl

/-! ## The same inputs give the same outcome -/

section
variable {s s' : State} (hlen : s.ilen = s'.ilen) (ho : s.olen = 0#32) (ho' : s'.olen = 0#32)
include hlen ho ho'

theorem execEnclen_stateless : ∃ t t', execEnclen s = .next t ∧ execEnclen s' = .next t' ∧
    t.status = t'.status ∧ t.olen = t'.olen := by
  have hn : s.lenOperand = s'.lenOperand := congrArg BitVec.toNat hlen
  by_cases h : enclenMax < s.lenOperand
  · exact ⟨_, _, if_pos h, if_pos (hn ▸ h), rfl, ho.trans ho'.symm⟩
  · exact ⟨_, _, if_neg h, if_neg (hn ▸ h), rfl, congrArg (BitVec.ofNat 32 ∘ encodedLength) hn⟩

theorem execDeclen_stateless : ∃ t t', execDeclen s = .next t ∧ execDeclen s' = .next t' ∧
    t.status = t'.status ∧ t.olen = t'.olen := by
  have hn : s.lenOperand = s'.lenOperand := congrArg BitVec.toNat hlen
  by_cases h : s.lenOperand % 8 ≠ 0
  · exact ⟨_, _, if_pos h, if_pos (hn ▸ h), rfl, ho.trans ho'.symm⟩
  · exact ⟨_, _, if_neg h, if_neg (hn ▸ h), rfl, congrArg (BitVec.ofNat 32 ∘ decodedBound) hn⟩

variable (hcfg : s.cfg = s'.cfg) (hb : ∀ k, k < s.ilen.toNat → s.ibufByte k = s'.ibufByte k)
include hcfg hb

theorem execEnc_stateless :
    ∃ t t', execEnc s = .next t ∧ execEnc s' = .next t' ∧ t.sameOutcome t' := by
  have hn : s'.lenOperand = s.lenOperand := congrArg BitVec.toNat hlen.symm
  have hfit : s'.encTooBig = s.encTooBig := by simp only [State.encTooBig, hcfg, hn]
  have hin := input_congr hlen hb
  cases h : s.encTooBig with
  | true =>
    exact ⟨_, _, execEnc_tooBig h, execEnc_tooBig (hfit.trans h), raise_sameOutcome ho ho' _⟩
  | false =>
    exact ⟨_, _, execEnc_fits h, execEnc_fits (hfit.trans h),
      completeOut_sameOutcome (congrArg base32Encode hin) rfl rfl⟩

theorem execDec_stateless :
    ∃ t t', execDec s = .next t ∧ execDec s' = .next t' ∧ t.sameOutcome t' := by
  have hn : s'.lenOperand = s.lenOperand := congrArg BitVec.toNat hlen.symm
  have hfit : s'.decTooBig = s.decTooBig := by simp only [State.decTooBig, hcfg, hn]
  have hin := input_congr hlen hb
  cases h : s.decTooBig with
  | true =>
    exact ⟨_, _, execDec_tooBig h, execDec_tooBig (hfit.trans h), raise_sameOutcome ho ho' _⟩
  | false =>
    by_cases hm : s.lenOperand % 8 = 0
    · cases hd : base32Decode (s.ibufBytes s.lenOperand) with
      | error e =>
        exact ⟨_, _, execDec_error h hm hd,
          execDec_error (hfit.trans h) (hn ▸ hm) (hin ▸ hd), raise_sameOutcome ho ho' e⟩
      | ok out =>
        exact ⟨_, _, execDec_ok h hm hd,
          execDec_ok (hfit.trans h) (hn ▸ hm) (hin ▸ hd), completeOut_sameOutcome rfl rfl rfl⟩
    · exact ⟨_, _, execDec_badLength h hm, execDec_badLength (hfit.trans h) (hn ▸ hm),
        raise_sameOutcome ho ho' _⟩

end

end Sys2Proof.Machine

open Sys2Proof Sys2Proof.Machine

/-- Settles O51: each command branches on its inputs alone and writes what they give. -/
theorem commandsAreStateless : Obligations.CommandsAreStateless := by
  unfold Obligations.CommandsAreStateless
  intro i s s' hlen hcfg ho ho' hb
  cases i with
  | enclen =>
    obtain ⟨t, t', h, h', hs, hol⟩ := execEnclen_stateless hlen ho ho'
    exact ⟨t, t', h, h', hs, hol, by simp⟩
  | declen =>
    obtain ⟨t, t', h, h', hs, hol⟩ := execDeclen_stateless hlen ho ho'
    exact ⟨t, t', h, h', hs, hol, by simp⟩
  | enc =>
    obtain ⟨t, t', h, h', hs, hol, hcell⟩ := execEnc_stateless hlen ho ho' hcfg (hb (.inl rfl))
    exact ⟨t, t', h, h', hs, hol, fun _ _ => hcell⟩
  | dec =>
    obtain ⟨t, t', h, h', hs, hol, hcell⟩ := execDec_stateless hlen ho ho' hcfg (hb (.inr rfl))
    exact ⟨t, t', h, h', hs, hol, fun _ _ => hcell⟩
end

section
/-! PROOFS. The two buffers as the host sees them, and the accesses that change nothing
(spec/20_memory.md R55 to R59). -/

namespace Sys2Proof.Machine

/-! ## IBUF -/

/-- A host write of IBUF that is taken (R56). -/
theorem inWrite_in {s : State} {i : Word} (hb : s.busy = false) (hi : i.toNat < s.cfg.capI)
    (v : Byte) : s.inWrite i v = { s with ibuf := Memory.store s.ibuf i.toNat v } :=
  if_pos ⟨hb, hi⟩

/-- A host write of IBUF that is ignored (R56). -/
theorem inWrite_ignored {s : State} {i : Word} (h : s.busy = true ∨ s.cfg.capI ≤ i.toNat)
    (v : Byte) : s.inWrite i v = s := by
  obtain h' | ⟨hb, hi, -⟩ := inWrite_cases s i v
  · exact h'
  · obtain h | h := h
    · exact absurd (hb.symm.trans h) (by decide)
    · exact absurd hi (Nat.not_lt.2 h)

theorem ibufByte_store_same (s : State) (i : Nat) (v : Byte) :
    State.ibufByte { s with ibuf := Memory.store s.ibuf i v } i = v := by
  simp only [State.ibufByte, lookup_store_same]

theorem ibufByte_store_other (s : State) {i k : Nat} (v : Byte) (h : k ≠ i) :
    State.ibufByte { s with ibuf := Memory.store s.ibuf i v } k = s.ibufByte k := by
  simp only [State.ibufByte, lookup_store_other _ _ h]

/-! ## OBUF -/

/-- A host read of OBUF while BUSY = 0 and below CAP_O (R57). -/
theorem outRead_in {s : State} {j : Word} (hb : s.busy = false) (hj : j.toNat < s.cfg.capO) :
    s.outRead j = (s.obufHostByte j.toNat).setWidth 32 :=
  if_pos ⟨hb, hj⟩

/-- A host read of OBUF at or above CAP_O (R57). -/
theorem outRead_out {s : State} {j : Word} (h : s.cfg.capO ≤ j.toNat) : s.outRead j = 0#32 :=
  if_neg fun hj => Nat.not_lt.2 h hj.2

/-- The host's byte of the last result (R57). -/
theorem obufHostByte_result {s : State} {j : Nat} {b : Byte} (hv : s.outValid = true)
    (hj : j < s.olen.toNat) (hcell : s.obufCell j = some b) : s.obufHostByte j = b := by
  rw [State.obufHostByte, if_pos ⟨hv, hj⟩, hcell, Option.getD_some]

/-- Where there is no result the host's byte is a free value (R57, U2). -/
theorem obufHostByte_free {s : State} {j : Nat} (h : s.outValid = false ∨ s.olen.toNat ≤ j) :
    s.obufHostByte j = Config.freeOut s.draws j := by
  refine if_neg fun ⟨hv, hj⟩ => ?_
  obtain h | h := h
  · exact absurd (h.symm.trans hv) (by decide)
  · exact Nat.not_lt.2 h hj

/-! ## Accesses that change nothing -/

/-- An access that changes something is a write of the REG or the IBUF space (R57, R59). -/
theorem HostChange.writes {s t : State} {e : Edge} (h : HostChange s e t) :
    e.we = true ∧ (e.sel = 1#2 ∨ e.sel = 2#2) := by
  cases h with
  | accept _ we sel | setIlen _ we sel => exact ⟨we, .inl sel⟩
  | storeIn _ we sel => exact ⟨we, .inr sel⟩

theorem writePort_eq_self {s : State} {e : Edge} (h : e.we = false ∨ e.sel = 0#2 ∨ e.sel = 3#2) :
    s.writePort e = s := by
  obtain heq | hc := writePort_change s e
  · exact heq
  · obtain ⟨we, sel | sel⟩ := hc.writes <;> simp [we, sel] at h

/-- An edge without reset on the idle block is the host's access alone (R54). -/
theorem clockEdge_idle {s : State} {e : Edge} (hp : s.ph = .idle) (hr : e.rst = false) :
    clockEdge e s = .next (s.writePort e) := by
  simp [clockEdge, hr, hp]

end Sys2Proof.Machine

open Sys2Proof Sys2Proof.Machine

/-- Settles O11: the write is `Memory.store` at its index where it is taken, and nothing else. -/
theorem ibufHostSide : Obligations.IbufHostSide := by
  unfold Obligations.IbufHostSide
  intro s i w p
  have hw : s.writePort ⟨false, 2#2, true, i, w, p⟩ = s.inWrite i (w.setWidth 8) := rfl
  rw [hw]
  refine ⟨fun hb hi => ?_, fun h => inWrite_ignored h _, rfl, rfl⟩
  rw [inWrite_in hb hi]
  refine ⟨_, rfl, ?_, fun k hk => ibufByte_store_other s _ hk, rfl⟩
  rw [ibufByte_store_same, BitVec.setWidth_eq_extractLsb' (by decide)]

/-- Settles O12: a read is closed, the result's byte, or a free value; a write does nothing. -/
theorem obufHostSide : Obligations.ObufHostSide := by
  unfold Obligations.ObufHostSide
  intro s j p
  simp only [readPort_outRead, writePort_outWrite, implies_true, and_true]
  refine ⟨fun h => ?_, fun hb hj => ⟨fun b hv hlt hcell => ?_, fun h => ?_⟩⟩
  · exact h.elim (fun hb => outRead_busy hb j) outRead_out
  · rw [outRead_in hb hj, obufHostByte_result hv hlt hcell]
  · rw [outRead_in hb hj, obufHostByte_free h]

/-- Settles O13: the edge is the access alone, and the access writes neither REG nor IBUF. -/
theorem readsHaveNoSideEffect : Obligations.ReadsHaveNoSideEffect := by
  unfold Obligations.ReadsHaveNoSideEffect
  intro s e rest hp hr h
  rw [step_cons, clockEdge_idle (s := { s with edges := rest }) hp hr, writePort_eq_self h]
end

section
/-! PROOFS. Command words and the table of codes (spec/30_encoding.md R70 to R79): which word
selects which command, acceptance and the DISPATCH step, the bit layout of a block, the length laws,
and the classes of codes. -/

namespace Sys2Proof.Machine

/-! ## Command words -/

/-- The command words of R72's table. -/
@[simp] theorem encode_enclen : encode .enclen = 0x00000001#32 := by decide
@[simp] theorem encode_declen : encode .declen = 0x00000002#32 := by decide
@[simp] theorem encode_enc : encode .enc = 0x00000003#32 := by decide
@[simp] theorem encode_dec : encode .dec = 0x00000004#32 := by decide

/-- Decoding the encoding of a command gives it back (R70, R72). -/
@[simp] theorem decode_encode (i : Instr) : decode (encode i) = .ok i := by
  cases i <;> rfl

/-- A command is selected by its encoding and by no other word (R72). -/
theorem decode_eq_ok_iff {w : Word} {i : Instr} : decode w = .ok i ↔ w = encode i :=
  ⟨fun h => (encode_of_decode h).symm, fun h => h ▸ decode_encode i⟩

/-- Exactly the words that encode no command are rejected (R73, R74). -/
theorem decode_error_iff {w : Word} : (∃ r, decode w = .error r) ↔ ∀ i, w ≠ encode i := by
  simp only [ne_eq, ← decode_eq_ok_iff]
  cases decode w with
  | error r => simp
  | ok i => simp

/-- The illegal words of R74 as numbers. -/
theorem ne_encode_iff {w : Word} : (∀ i, w ≠ encode i) ↔
    w ≠ 0x00000001#32 ∧ w ≠ 0x00000002#32 ∧ w ≠ 0x00000003#32 ∧ w ≠ 0x00000004#32 := by
  constructor
  · intro h
    exact ⟨h .enclen, h .declen, h .enc, h .dec⟩
  · rintro ⟨h1, h2, h3, h4⟩ (_ | _ | _ | _)
    · exact h1
    · exact h2
    · exact h3
    · exact h4

/-- A number below 2^32 that stands for a word is the word (R51). -/
theorem ofNat_toNat_mod (w : Word) : BitVec.ofNat 32 (w.toNat % 2 ^ 32) = w := by
  rw [Nat.mod_eq_of_lt w.isLt, BitVec.ofNat_toNat, BitVec.setWidth_eq]

/-- The opcode table's numbering with 32 bits gives `decode` the word as it is. -/
theorem decodeTableWord_toNat (w : Word) : decodeTableWord 32 w.toNat = (decode w).toOption := by
  rw [decodeTableWord, if_pos (Nat.le_refl 32), ofNat_toNat_mod]

/-! ## Acceptance and the DISPATCH step -/

/-- An idle block accepts the word written to CMD (R71). -/
theorem step_cmdw_idle {s : State} (hb : s.busy = false) (hp : s.ph = .idle) (w : Word) (p : Pace)
    (rest : List Edge) : step { s with edges := hostEdge (opCmdw w) p :: rest } =
      .next (State.accept { s with edges := rest } w) := by
  rw [step_cons, clockEdge_idle (s := { s with edges := rest }) hp (hostEdge_rst _ p)]
  exact congrArg _ (regWrite_cmd (s := { s with edges := rest }) hb w)

/-- With BUSY = 1 at DISPATCH an edge without reset is the sequencer's step alone (R54). -/
theorem step_dispatch {s : State} (hb : s.busy = true) (hp : s.ph = .dispatch)
    (hr : s.edge.rst = false) : step s = sequencer s.edge.pace s.popEdge :=
  clockEdge_busy (s := s.popEdge) hb (by simp [hp]) hr

/-- At the operation level the DISPATCH step runs a command to its completion (R11). -/
theorem sequencer_whole {s : State} (hp : s.ph = .dispatch) :
    sequencer .whole s = dispatchWith exec s := by
  simp [sequencer, hp]

/-- At the micro-step level it is one micro-step (R73). -/
theorem sequencer_micro {s : State} (hp : s.ph = .dispatch) :
    sequencer .micro s = dispatchWith microDispatch s :=
  microStep_dispatch hp

/-- At either level an illegal word ends at its DISPATCH step (R74). -/
theorem sequencer_illegal {s : State} {r : DecodeError} {p : Pace} (hp : s.ph = .dispatch)
    (hd : decode s.cmdr = .error r) (hs : p ≠ .stall) :
    sequencer p s = .next (s.raise .illegalCommand) := by
  cases p with
  | stall => exact absurd rfl hs
  | micro => rw [sequencer_micro hp, dispatchWith_error hd]
  | whole => rw [sequencer_whole hp, dispatchWith_error hd]

/-- The whole of a command is run at its DISPATCH step (R11, R73). -/
theorem step_whole {s : State} {i : Instr} (hb : s.busy = true) (hp : s.ph = .dispatch)
    (hd : decode s.cmdr = .ok i) (hr : s.edge.rst = false) (hw : s.edge.pace = .whole) :
    step s = exec i s.popEdge := by
  rw [step_dispatch hb hp hr, hw, sequencer_whole (s := s.popEdge) hp,
    dispatchWith_ok (s := s.popEdge) hd]

/-- The word `withFetchWord` places is the one in CMDR. -/
theorem withFetchWord_cmdr (s : State) (w : Word) : (s.withFetchWord 32 w.toNat).cmdr = w :=
  ofNat_toNat_mod w

/-- STATUS with BUSY alone, and STATUS after IllegalCommand, as words (R23, R160). -/
theorem statusBusy_eq : statusBusy = 0x00000001#32 := by decide
theorem statusError_illegalCommand : statusError .illegalCommand = 0x00000086#32 := by decide

/-! ## The bit layout of a block -/

/-- Two bit fields side by side, as a number. -/
theorem append_toNat {m n : Nat} (x : BitVec m) (y : BitVec n) :
    (x ++ y).toNat = x.toNat * 2 ^ n + y.toNat := by
  rw [BitVec.toNat_append, ← Nat.shiftLeft_add_eq_or_of_lt y.isLt, Nat.shiftLeft_eq]

/-- A bit field as a number. -/
theorem extractLsb'_toNat_div {n : Nat} (x : BitVec n) (start len : Nat) :
    (x.extractLsb' start len).toNat = x.toNat / 2 ^ start % 2 ^ len := by
  rw [BitVec.extractLsb'_toNat, Nat.shiftRight_eq_div_pow]

/-! ## The length laws -/

/-- `d(p)` as R78 lists it. -/
theorem padLoss_eq (p : Nat) : padLoss p =
    if p = 1 then 1 else if p = 3 then 2 else if p = 4 then 3 else if p = 6 then 4 else 0 := by
  unfold padLoss
  split
  · rfl
  · rfl
  · rfl
  · rfl
  · rename_i h1 h3 h4 h6
    rw [if_neg h1, if_neg h3, if_neg h4, if_neg h6]

/-- At most four bytes of the last block are missing (R78). -/
theorem padLoss_le (p : Nat) : padLoss p ≤ 4 := by
  unfold padLoss
  split <;> decide

/-- The bytes that `n` whole blocks give whose last `p` characters are pads (R77, R78). -/
theorem padLoss_bytes {p m : Nat} (hp : padCountOk p = true) (h : (m + p) % 8 = 0) :
    5 * m / 8 + padLoss p = decodedBound (m + p) := by
  simp only [padCountOk, Bool.or_eq_true, beq_iff_eq] at hp
  obtain (((rfl | rfl) | rfl) | rfl) | rfl := hp <;> simp only [padLoss, decodedBound] <;> omega

/-- The length of an accepted text's bytes (R78). -/
theorem base32Decode_length {t out : List Byte} (h : base32Decode t = .ok out) :
    out.length + padLoss (padCount t) = decodedBound t.length := by
  obtain ⟨hm, hout, -, -, -, d, -, ht, hd, hp⟩ := base32Decode_ok h
  have hlen : t.length = d.length + padCount t := by
    simpa using congrArg List.length ht
  rw [hlen] at hm ⊢
  rw [hout, hd, decodeBits_stream, decStream_length _ _ _ (by decide), Nat.add_zero]
  exact padLoss_bytes hp hm

/-! ## The classes of character codes -/

section
variable {c : Byte}

theorem classOf_digit_iff : classOf c = .digit ↔ 0x32 ≤ c.toNat ∧ c.toNat ≤ 0x37 := by
  unfold classOf
  split_ifs <;> simp <;> omega

theorem classOf_upper_iff : classOf c = .upper ↔ 0x41 ≤ c.toNat ∧ c.toNat ≤ 0x5A := by
  unfold classOf
  split_ifs <;> simp <;> omega

theorem classOf_lower_iff : classOf c = .lower ↔ 0x61 ≤ c.toNat ∧ c.toNat ≤ 0x7A := by
  unfold classOf
  split_ifs <;> simp <;> omega

theorem classOf_pad_iff : classOf c = .pad ↔ c.toNat = 0x3D := by
  unfold classOf
  split_ifs <;> simp <;> omega

/-- Invalid are the codes of no other class (R79). -/
theorem classOf_invalid_iff : classOf c = .invalid ↔
    classOf c ≠ .digit ∧ classOf c ≠ .upper ∧ classOf c ≠ .lower ∧ classOf c ≠ .pad := by
  cases classOf c <;> simp

theorem charToValue_upper (h : classOf c = .upper) :
    charToValue c = some (BitVec.ofNat 5 (c.toNat - 0x41)) :=
  if_pos (classOf_upper_iff.1 h)

theorem charToValue_lower (h : classOf c = .lower) :
    charToValue c = some (BitVec.ofNat 5 (c.toNat - 0x61)) := by
  have hr := classOf_lower_iff.1 h
  rw [charToValue, if_neg (by omega), if_pos ⟨rfl, hr⟩]

theorem charToValue_digit (h : classOf c = .digit) :
    charToValue c = some (BitVec.ofNat 5 (c.toNat - 0x32 + 26)) := by
  have hr := classOf_digit_iff.1 h
  rw [charToValue, if_neg (by omega), if_neg (by omega), if_pos hr]

/-- A code of no class of data characters has no value (R92). -/
theorem charToValue_none (hu : classOf c ≠ .upper) (hl : classOf c ≠ .lower)
    (hd : classOf c ≠ .digit) : charToValue c = none := by
  rw [Ne, classOf_upper_iff] at hu
  rw [Ne, classOf_lower_iff] at hl
  rw [Ne, classOf_digit_iff] at hd
  rw [charToValue, if_neg hu, if_neg fun h => hl h.2, if_neg hd]

end

end Sys2Proof.Machine

open Sys2Proof Sys2Proof.Machine

/-- Settles O1: `decode` answers a command exactly on its encoding, and the encodings are R72's
words. -/
theorem commandWordsSelectTheFourCommands : Obligations.CommandWordsSelectTheFourCommands := by
  unfold Obligations.CommandWordsSelectTheFourCommands
  simp only [decode_eq_ok_iff, decode_error_iff, ne_encode_iff, encode_enclen, encode_declen,
    encode_enc, encode_dec, implies_true, and_self]

/-- Settles O2: `decode` inverts `encode`, and the table's numbering reads the same word. -/
theorem decodeAndEncodeAgree : Obligations.DecodeAndEncodeAgree := by
  unfold Obligations.DecodeAndEncodeAgree
  intro i _
  refine ⟨decode_encode i, ?_, fun w hw => encode_of_decode hw⟩
  rw [decodeTableWord_toNat, decode_encode]
  rfl

/-- Settles O3 by evaluating the decoder on the eight words. -/
theorem sampleWordsDecode : Obligations.SampleWordsDecode := by
  unfold Obligations.SampleWordsDecode
  decide

/-- Settles O4: the acceptance, then the DISPATCH step of a word without a command. -/
theorem illegalWordEndsInIllegalCommand : Obligations.IllegalWordEndsInIllegalCommand := by
  unfold Obligations.IllegalWordEndsInIllegalCommand
  intro s w p e rest hb hp h1 h2 h3 h4 hr hs
  obtain ⟨r, hd⟩ := decode_error_iff.2 (ne_encode_iff.2 ⟨h1, h2, h3, h4⟩)
  have hbusy := busy_statusBusy (State.accept { s with edges := e :: rest } w) rfl
  exact ⟨_, _, step_cmdw_idle hb hp w p _, hbusy, rfl,
    (step_dispatch hbusy rfl hr).trans (sequencer_illegal (s := State.popEdge _) rfl hd hs),
    statusError_illegalCommand, rfl, rfl, rfl, fun _ => rfl, fun _ => rfl⟩

/-- Settles O5: the DISPATCH step at each pace; after `withFetchWord` the pace is the quiet
edge's. -/
theorem stepRunsTheDecodedCommand : Obligations.StepRunsTheDecodedCommand := by
  unfold Obligations.StepRunsTheDecodedCommand
  refine ⟨fun s i hp hb hd _ hr => ⟨step_whole hb hp hd hr, fun hm => ?_, fun hs => ?_⟩,
    fun s i _ => ?_⟩
  · rw [step_dispatch hb hp hr, hm, sequencer_micro (s := s.popEdge) hp,
      dispatchWith_ok (s := s.popEdge) hd]
  · rw [step_dispatch hb hp hr, hs]
    rfl
  · have hd : decode (s.withFetchWord 32 (encode i).toNat).cmdr = .ok i := by
      rw [withFetchWord_cmdr, decode_encode]
    exact step_whole (busy_statusBusy _ rfl) rfl hd rfl rfl

/-- Settles O7: `State.accept` from an idle state; BUSY = 1 closes the port. -/
theorem acceptanceOfACommandWord : Obligations.AcceptanceOfACommandWord := by
  unfold Obligations.AcceptanceOfACommandWord
  intro s w p rest
  refine ⟨fun hb hp => ?_, fun hb hp => ⟨writePort_busy hb _, ?_⟩⟩
  · rw [step_cmdw_idle hb hp, ← statusBusy_eq]
    rfl
  · rw [step_cons]
    exact clockEdge_stall (s := { s with edges := rest }) hb hp (hostEdge_rst _ _)
      (hostEdge_pace _ _)

/-- Settles O25: the 40 bits of the chunk and of the block as numbers, and each bit field
of them. -/
theorem blockBitLayout : Obligations.BlockBitLayout := by
  unfold Obligations.BlockBitLayout
  constructor
  · intro b0 b1 b2 b3 b4
    have hw := chunkWord_toNat [b0, b1, b2, b3, b4]
    simp only [List.getD_cons_zero, List.getD_cons_succ] at hw
    refine ⟨?_, ?_, ?_, ?_, ?_, ?_, ?_, ?_⟩
    all_goals
      apply BitVec.eq_of_toNat_eq
      simp only [symbolAt_toNat, append_toNat, extractLsb'_toNat_div]
      omega
  · intro c0 c1 c2 c3 c4 c5 c6 c7
    have hw := blockWord_toNat [c0, c1, c2, c3, c4, c5, c6, c7] (Nat.le_refl 8)
    simp only [symVal, List.foldl_cons, List.foldl_nil, List.length_cons, List.length_nil] at hw
    refine ⟨?_, ?_, ?_, ?_, ?_⟩
    all_goals
      apply BitVec.eq_of_toNat_eq
      simp only [byteAt_toNat, append_toNat, extractLsb'_toNat_div]
      omega

/-- Settles O36: the encoding's length, and the pads' loss `d(p)`, which is at most 4. -/
theorem lengthLaws : Obligations.LengthLaws := by
  unfold Obligations.LengthLaws
  refine ⟨fun b => ?_, fun t out h => ?_⟩
  · rw [base32Encode_length, encodedLength]
    exact ⟨rfl, Nat.mul_mod_left _ 8⟩
  · have hlen := base32Decode_length h
    have hle := padLoss_le (padCount t)
    rw [decodedBound] at hlen
    refine ⟨?_, by omega, by omega⟩
    rw [← padLoss_eq, hlen]

/-- Settles O44: each class by its range, and `char_to_value` class by class. -/
theorem classesAgreeWithTheTable : Obligations.ClassesAgreeWithTheTable := by
  unfold Obligations.ClassesAgreeWithTheTable
  intro c
  refine ⟨classOf_digit_iff, classOf_upper_iff, classOf_lower_iff, classOf_pad_iff, ?_,
    charToValue_upper, charToValue_lower, charToValue_digit, ?_⟩
  · rw [classOf_invalid_iff, Ne, Ne, Ne, Ne, classOf_digit_iff, classOf_upper_iff,
      classOf_lower_iff, classOf_pad_iff]
  · rintro (h | h) <;> exact charToValue_none (by simp [h]) (by simp [h]) (by simp [h])
end

section
/-! PROOFS. The alphabet table's two directions (spec/40_alphabet.md R91 to R93). -/

namespace Sys2Proof.Machine

/-! ## `value_to_char` in numbers -/

/-- The ROM's first 26 entries are the letters (R91). -/
theorem valueToChar_letter {v : Sym} (h : v.toNat ≤ 25) :
    valueToChar v = BitVec.ofNat 8 (0x41 + v.toNat) := by
  revert v
  decide

/-- The ROM's last six entries are the digits (R91). -/
theorem valueToChar_digit {v : Sym} (h : 25 < v.toNat) :
    valueToChar v = BitVec.ofNat 8 (0x32 + (v.toNat - 26)) := by
  revert v
  decide

/-- A letter's code as a number. -/
theorem valueToChar_letter_toNat {v : Sym} (h : v.toNat ≤ 25) :
    (valueToChar v).toNat = 0x41 + v.toNat := by
  rw [valueToChar_letter h, BitVec.toNat_ofNat]
  omega

/-- A digit's code as a number. -/
theorem valueToChar_digit_toNat {v : Sym} (h : 25 < v.toNat) :
    (valueToChar v).toNat = 0x32 + (v.toNat - 26) := by
  rw [valueToChar_digit h, BitVec.toNat_ofNat]
  omega

/-! ## One direction after the other -/

/-- R93(b): the letters come back through R92's upper-case range, the digits through its digit
range. -/
theorem charToValue_valueToChar (v : Sym) : charToValue (valueToChar v) = some v := by
  rcases Nat.lt_or_ge 25 v.toNat with h | h
  · have hc := valueToChar_digit_toNat h
    rw [charToValue_digit (classOf_digit_iff.2 (by omega)), hc]
    congr 1
    bv_omega
  · have hc := valueToChar_letter_toNat h
    rw [charToValue_upper (classOf_upper_iff.2 (by omega)), hc]
    congr 1
    bv_omega

/-- R93(a), from the left inverse. -/
theorem valueToChar_inj {v w : Sym} (h : valueToChar v = valueToChar w) : v = w :=
  Option.some.inj (by rw [← charToValue_valueToChar v, h, charToValue_valueToChar])

section
variable {c : Byte} {v : Sym}

/-- R93(c), an upper-case letter. -/
theorem valueToChar_of_upper (hc : classOf c = .upper) (hv : charToValue c = some v) :
    valueToChar v = c := by
  have hr := classOf_upper_iff.1 hc
  obtain rfl := Option.some.inj ((charToValue_upper hc).symm.trans hv)
  rw [valueToChar_letter (by bv_omega)]
  bv_omega

/-- R93(c), a digit. -/
theorem valueToChar_of_digit (hc : classOf c = .digit) (hv : charToValue c = some v) :
    valueToChar v = c := by
  have hr := classOf_digit_iff.1 hc
  obtain rfl := Option.some.inj ((charToValue_digit hc).symm.trans hv)
  rw [valueToChar_digit (by bv_omega)]
  bv_omega

/-- R93(c), a lower-case letter: its upper-case letter stands 0x20 below it. -/
theorem valueToChar_of_lower (hc : classOf c = .lower) (hv : charToValue c = some v) :
    valueToChar v = c - 0x20#8 := by
  have hr := classOf_lower_iff.1 hc
  obtain rfl := Option.some.inj ((charToValue_lower hc).symm.trans hv)
  rw [valueToChar_letter (by bv_omega)]
  bv_omega

end

end Sys2Proof.Machine

open Sys2Proof Sys2Proof.Machine

/-- Settles O42: the letters' and the digits' half of the ROM. -/
theorem valueToCharArithmetic : Obligations.ValueToCharArithmetic := by
  unfold Obligations.ValueToCharArithmetic
  intro v
  split
  · exact valueToChar_letter ‹_›
  · exact valueToChar_digit (by omega)

/-- Settles O43: the two compositions class by class; the counts by evaluating the 256 codes. -/
theorem alphabetProperties : Obligations.AlphabetProperties := by
  unfold Obligations.AlphabetProperties
  refine ⟨fun _ _ => valueToChar_inj, charToValue_valueToChar, fun c v hv => ⟨?_, ?_⟩, ?_, ?_, ?_⟩
  · rintro (hc | hc)
    · exact valueToChar_of_upper hc hv
    · exact valueToChar_of_digit hc hv
  · exact fun hc => valueToChar_of_lower hc hv
  · rfl
  · rfl
  · rfl
end

section
/-! PROOFS. The size commands (spec/41_size_commands.md R101, R102, R104): an equation per case, the
range of the two formulas, and the elements neither command touches. -/

namespace Sys2Proof.Machine

/-! ## The formulas -/

/-- `enclenMax` is the largest byte count whose encoded length fits 32 bits (R101, D8). -/
theorem le_enclenMax_iff (n : Nat) : n ≤ enclenMax ↔ encodedLength n ≤ 2 ^ 32 - 1 := by
  unfold enclenMax encodedLength
  omega

/-- DECLEN's result is never above its operand (R102). -/
theorem decodedBound_le (m : Nat) : decodedBound m ≤ m := by
  unfold decodedBound
  omega

/-! ## STATUS and OLEN of the two completions -/

/-- STATUS after normal completion and after InvalidLength, as words (R160, R167). -/
theorem statusDone_eq : statusDone = 0x00000002#32 := by decide
theorem statusError_invalidLength : statusError .invalidLength = 0x00000016#32 := by decide

/-- A length of 32 bits is stored exactly (R103(b), R167). -/
theorem complete_olen_toNat (s : State) {n : Nat} (h : n < 2 ^ 32) :
    (s.complete n).olen.toNat = n := by
  rw [complete_olen, BitVec.toNat_ofNat, Nat.mod_eq_of_lt h]

/-! ## The commands, an equation per case -/

section
variable {s : State}

theorem exec_enclen_fits (h : s.lenOperand ≤ enclenMax) :
    exec .enclen s = .next (s.complete (encodedLength s.lenOperand)) :=
  if_neg (Nat.not_lt.2 h)

theorem exec_enclen_tooLong (h : enclenMax < s.lenOperand) :
    exec .enclen s = .next (s.raise .invalidLength) := if_pos h

theorem exec_declen_blocks (h : s.lenOperand % 8 = 0) :
    exec .declen s = .next (s.complete (decodedBound s.lenOperand)) := if_neg (not_not.2 h)

theorem exec_declen_partial (h : s.lenOperand % 8 ≠ 0) :
    exec .declen s = .next (s.raise .invalidLength) := if_pos h

end

/-! ## Both commands -/

section
variable {i : Instr} (hi : i = .enclen ∨ i = .declen) {s s' : State}
include hi

/-- A size command ends in InvalidLength or with a length, from the state as it stands (R100). -/
theorem exec_size_cases :
    exec i s = .next (s.raise .invalidLength) ∨ ∃ n, exec i s = .next (s.complete n) := by
  obtain rfl | rfl := hi
  · exact (execEnclen_cases s).imp And.right fun h => ⟨_, h.2⟩
  · exact (execDeclen_cases s).imp And.right fun h => ⟨_, h.2⟩

/-- The elements a size command leaves as they were (R104). -/
theorem exec_size_frame {t : State} (h : exec i s = .next t) :
    t = { s with status := t.status, olen := t.olen, ph := .idle, acc := 0#12, cnt := 0#4 } := by
  obtain h' | ⟨n, h'⟩ := exec_size_cases hi (s := s)
  · cases h.symm.trans h'
    rfl
  · cases h.symm.trans h'
    rfl

/-- Equal ILEN gives equal STATUS and OLEN (R104). -/
theorem exec_size_stateless (hlen : s.ilen = s'.ilen) (ho : s.olen = 0#32) (ho' : s'.olen = 0#32) :
    ∃ t t', exec i s = .next t ∧ exec i s' = .next t' ∧ t.status = t'.status ∧ t.olen = t'.olen := by
  obtain rfl | rfl := hi
  · exact execEnclen_stateless hlen ho ho'
  · exact execDeclen_stateless hlen ho ho'

end

end Sys2Proof.Machine

open Sys2Proof Sys2Proof.Machine

/-- Settles O18: the two cases of ENCLEN, whose border is that of the 32-bit results. -/
theorem enclenResult : Obligations.EnclenResult := by
  unfold Obligations.EnclenResult
  refine fun s => ⟨fun h => ?_, fun h ho => ?_, le_enclenMax_iff _⟩
  · have hfit : encodedLength s.lenOperand < 2 ^ 32 :=
      Nat.lt_of_le_pred (by decide) ((le_enclenMax_iff _).1 h)
    exact ⟨_, exec_enclen_fits h, statusDone_eq, complete_olen_toNat s hfit, rfl⟩
  · exact ⟨_, exec_enclen_tooLong h, statusError_invalidLength, ho, rfl⟩

/-- Settles O19: the two cases of DECLEN, whose result is never above its operand. -/
theorem declenResult : Obligations.DeclenResult := by
  unfold Obligations.DeclenResult
  refine fun s => ⟨fun h => ?_, fun h ho => ?_⟩
  · have hfit : decodedBound s.lenOperand < 2 ^ 32 := (decodedBound_le _).trans_lt s.ilen.isLt
    exact ⟨_, exec_declen_blocks h, statusDone_eq, complete_olen_toNat s hfit, rfl⟩
  · exact ⟨_, exec_declen_partial h, statusError_invalidLength, ho, rfl⟩

/-- Settles O20: the two results agree, and the accumulator was empty before the command emptied it. -/
theorem sizeCommandsArePure : Obligations.SizeCommandsArePure := by
  unfold Obligations.SizeCommandsArePure
  intro i s s' hi hacc hcnt ho ho' hlen
  obtain ⟨t, t', h, h', hst, hol⟩ := exec_size_stateless hi hlen ho ho'
  have hf : t = { s with status := t.status, olen := t.olen, ph := .idle } := by
    rw [hacc, hcnt]
    exact exec_size_frame hi h
  refine ⟨t, t', h, h', hol, hst, hf, fun k => ?_, fun j => ?_⟩
  · rw [hf]
    rfl
  · rw [hf]
    rfl
end

section
/-! PROOFS. The shape of an encoding (spec/42_encoder.md R112): how many pads end it, and of what
characters its data part consists. -/

namespace Sys2Proof.Machine

/-! ## The pads of an encoding -/

/-- The number of pads that end the encoding of `n` bytes (R76, R113). -/
def encPads (n : Nat) : Nat := encodedLength n - (8 * n + 4) / 5

/-- An encoding is its data characters and then its pads (R113). -/
theorem base32Encode_eq (b : List Byte) :
    base32Encode b = encStream 0 0 b ++ List.replicate (encPads b.length) padChar := by
  rw [encPads, base32Encode_stream b, encStream_length _ _ _ (by decide), Nat.add_zero]

/-- The pads of each remainder of the byte count (R113). -/
theorem encPads_cases (n : Nat) :
    (n % 5 = 0 ∧ encPads n = 0) ∨ (n % 5 = 1 ∧ encPads n = 6) ∨ (n % 5 = 2 ∧ encPads n = 4) ∨
      (n % 5 = 3 ∧ encPads n = 3) ∨ (n % 5 = 4 ∧ encPads n = 1) := by
  unfold encPads encodedLength
  obtain h | h | h | h | h : n % 5 = 0 ∨ n % 5 = 1 ∨ n % 5 = 2 ∨ n % 5 = 3 ∨ n % 5 = 4 := by omega
  all_goals omega

theorem encPads_le (n : Nat) : encPads n ≤ 6 := by
  have := encPads_cases n
  omega

/-! ## The data characters -/

/-- Every data character is the character of a symbol (R113). -/
theorem mem_encStream {x : Byte} (b : List Byte) : ∀ a c, x ∈ encStream a c b →
    ∃ v, x = valueToChar v := by
  induction b with
  | nil =>
    intro a c h
    simp only [encStream] at h
    split at h
    · exact ⟨_, List.mem_singleton.1 h⟩
    · exact absurd h List.not_mem_nil
  | cons y rest ih =>
    intro a c h
    simp only [encStream] at h
    split at h <;> simp only [List.mem_cons] at h
    · exact h.elim (fun h => ⟨_, h⟩) (ih _ _)
    · exact h.elim (fun h => ⟨_, h⟩) fun h => h.elim (fun h => ⟨_, h⟩) (ih _ _)

/-- The character of a symbol is an upper-case letter or a digit (R91). -/
theorem classOf_valueToChar (v : Sym) :
    classOf (valueToChar v) = .upper ∨ classOf (valueToChar v) = .digit := by
  revert v
  decide

/-- No symbol's character is the pad character (R90, R91). -/
theorem valueToChar_ne_padChar (v : Sym) : valueToChar v ≠ padChar := by
  revert v
  decide

theorem noPad_encStream (a c : Nat) (b : List Byte) : noPad (encStream a c b) = true := by
  simp only [noPad, List.all_eq_true, bne_iff_ne]
  intro x hx
  obtain ⟨v, rfl⟩ := mem_encStream b a c hx
  exact valueToChar_ne_padChar v

/-! ## A list of data followed by pads -/

/-- A pad of such a list stands behind all data. -/
theorem le_of_getElem?_eq_pad {d : List Byte} (h : noPad d = true) {p j : Nat}
    (hj : (d ++ List.replicate p padChar)[j]? = some padChar) : d.length ≤ j := by
  by_contra hlt
  rw [List.getElem?_append_left (by omega)] at hj
  simp only [noPad, List.all_eq_true, bne_iff_ne] at h
  exact h padChar (List.mem_of_getElem? hj) rfl

/-- Behind the data stand pads only. -/
theorem getElem?_eq_pad {d : List Byte} {p k : Nat} (hd : d.length ≤ k) (hk : k < d.length + p) :
    (d ++ List.replicate p padChar)[k]? = some padChar := by
  rw [List.getElem?_append_right hd, List.getElem?_replicate, if_pos (by omega)]

end Sys2Proof.Machine

open Sys2Proof Sys2Proof.Machine

/-- Settles O23: the length law, the data characters' classes, and at most six pads behind them. -/
theorem encodeShape : Obligations.EncodeShape := by
  unfold Obligations.EncodeShape
  intro b
  refine ⟨base32Encode_length b, fun x hx => ?_, fun j k hjk hk hj => ?_⟩
  · rw [base32Encode_eq, List.mem_append] at hx
    obtain hx | hx := hx
    · obtain ⟨v, rfl⟩ := mem_encStream b 0 0 hx
      exact (classOf_valueToChar v).imp_right .inl
    · rw [List.eq_of_mem_replicate hx]
      exact .inr (.inr rfl)
  · have hpads := encPads_le b.length
    rw [base32Encode_eq] at hj hk ⊢
    have hd := le_of_getElem?_eq_pad (noPad_encStream 0 0 b) hj
    rw [List.length_append, List.length_replicate] at hk ⊢
    exact ⟨getElem?_eq_pad (by omega) hk, by omega⟩
end

section
/-! PROOFS. `encode` chunk by chunk (spec/42_encoder.md R113, R115): inputs put together at a chunk
boundary, and each character of each block. -/

namespace Sys2Proof.Machine

/-- Five bytes give one block and the encoding of the rest (R113). -/
theorem base32Encode_chunk (b0 b1 b2 b3 b4 : Byte) (rest : List Byte) :
    base32Encode (b0 :: b1 :: b2 :: b3 :: b4 :: rest) =
      encodeBlock [b0, b1, b2, b3, b4] ++ base32Encode rest := rfl

/-- The encoding of a non-empty input is the block of its first chunk and the encoding of the rest
(R113). -/
theorem base32Encode_block {b : List Byte} (h : b ≠ []) :
    base32Encode b = encodeBlock (b.take 5) ++ base32Encode (b.drop 5) := by
  match b with
  | [] => exact absurd rfl h
  | [_] | [_, _] | [_, _, _] | [_, _, _, _] => exact (List.append_nil _).symm
  | b0 :: b1 :: b2 :: b3 :: b4 :: rest => rfl

/-- Two inputs put together at a chunk boundary give their two encodings (R115). -/
theorem base32Encode_append (c : List Byte) : ∀ b : List Byte, b.length % 5 = 0 →
    base32Encode (b ++ c) = base32Encode b ++ base32Encode c
  | [], _ => rfl
  | [_], h | [_, _], h | [_, _, _], h | [_, _, _, _], h => by simp at h
  | b0 :: b1 :: b2 :: b3 :: b4 :: rest, h => by
    have hrest : rest.length % 5 = 0 := by
      simp only [List.length_cons] at h
      omega
    simp only [List.cons_append, base32Encode_chunk, base32Encode_append c rest hrest,
      List.append_assoc]

/-- The characters of a block: `k(r)` data characters, then pads (R76, R113). -/
theorem encodeBlock_getElem? (c : List Byte) {j : Nat} (hj : j < 8) :
    (encodeBlock c)[j]? = some (if j < dataChars c.length then
      valueToChar (symbolAt (chunkWord c) j) else padChar) := by
  rw [encodeBlock, List.getElem?_append, List.length_map, List.length_range]
  split
  · rw [List.getElem?_map, List.getElem?_range ‹_›]
    rfl
  · rw [List.getElem?_replicate, if_pos (by omega)]

theorem encodeBlock_length {c : List Byte} (h : c.length ≤ 5) : (encodeBlock c).length = 8 := by
  have : dataChars c.length ≤ 8 := by unfold dataChars; omega
  simp only [encodeBlock, List.length_append, List.length_map, List.length_range,
    List.length_replicate]
  omega

/-- Character `8c + j` of an encoding, where chunk `c` holds at least one byte (R113). -/
theorem base32Encode_getElem? {b : List Byte} {c j : Nat} (hc : 5 * c < b.length) (hj : j < 8) :
    (base32Encode b)[8 * c + j]? = some (if j < dataChars (min 5 (b.length - 5 * c)) then
      valueToChar (symbolAt (chunkWord ((b.drop (5 * c)).take 5)) j) else padChar) := by
  have htake : (b.take (5 * c)).length = 5 * c := by
    rw [List.length_take]
    omega
  have hfront : (base32Encode (b.take (5 * c))).length = 8 * c := by
    rw [base32Encode_length, htake, encodedLength]
    omega
  have hne : b.drop (5 * c) ≠ [] := by
    rw [Ne, List.drop_eq_nil_iff]
    omega
  have hchunk : ((b.drop (5 * c)).take 5).length = min 5 (b.length - 5 * c) := by simp
  have hblock := encodeBlock_length (c := (b.drop (5 * c)).take 5) (by omega)
  conv_lhs => rw [← List.take_append_drop (5 * c) b]
  rw [base32Encode_append _ _ (by omega), List.getElem?_append_right (by omega), hfront,
    Nat.add_sub_cancel_left, base32Encode_block hne, List.getElem?_append_left (by omega),
    encodeBlock_getElem? _ hj, hchunk]

/-- The 40 bits of chunk `c`, from the bytes of the whole input (R113). -/
theorem chunkWord_chunk (b : List Byte) (i : Nat) :
    chunkWord ((b.drop i).take 5) = b.getD i 0#8 ++ b.getD (i + 1) 0#8 ++ b.getD (i + 2) 0#8 ++
      b.getD (i + 3) 0#8 ++ b.getD (i + 4) 0#8 := by
  have h (k : Nat) (hk : k < 5) : ((b.drop i).take 5).getD k 0#8 = b.getD (i + k) 0#8 := by
    simp only [List.getD_eq_getElem?_getD, List.getElem?_take_of_lt hk, List.getElem?_drop]
  rw [chunkWord, h 0 (by decide), h 1 (by decide), h 2 (by decide), h 3 (by decide),
    h 4 (by decide)]
  rfl

end Sys2Proof.Machine

open Sys2Proof Sys2Proof.Machine

/-- Settles O26 by induction on the chunks of `b`. -/
theorem encodePrefixLaw : Obligations.EncodePrefixLaw := by
  unfold Obligations.EncodePrefixLaw
  exact fun b c h => base32Encode_append c b h

/-- Settles O24: each character of a chunk, of which all but the last hold five bytes. -/
theorem encodeIndexByIndex : Obligations.EncodeIndexByIndex := by
  unfold Obligations.EncodeIndexByIndex
  intro b
  refine ⟨?_, fun c j hc hj => ?_, fun j hr hj => ?_⟩
  · rw [base32Encode_length, encodedLength]
    split <;> omega
  · rw [base32Encode_getElem? (by omega) hj, if_pos (by unfold dataChars; omega), chunkWord_chunk]
    rfl
  · have hmin : min 5 (b.length - 5 * (b.length / 5)) = b.length % 5 := by omega
    rw [base32Encode_getElem? (by omega) hj, hmin, chunkWord_chunk]
    rfl
end

section
/-! PROOFS. The round trip of an encoding through `decode` (spec/42_encoder.md R115): the decoder's
accumulator against the encoder's, and the checks that every encoding passes. -/

namespace Sys2Proof.Machine

/-! ## The two accumulators -/

/-- `char_to_value` of a symbol's character is the symbol (R93(b)). -/
@[simp] theorem symOf_valueToChar (v : Sym) : symOf (valueToChar v) = v := by
  rw [symOf, charToValue_valueToChar, Option.getD_some]

/-- What the decoder makes of the encoder's characters. With no bits pending on either side it gives
back the input; where of a byte `x` the encoder still holds the low `c` bits `e` and the decoder the
upper `8 - c` bits `a`, it gives `x` and then the input. -/
theorem decStream_encStream (b : List Byte) : decStream 0 0 (encStream 0 0 b) = b ∧
    ∀ (c a e : Nat) (x : Byte), 0 < c → c < 5 → x.toNat = a * 2 ^ c + e → e < 2 ^ c →
      decStream a (8 - c) (encStream e c b) = x :: b := by
  induction b with
  | nil =>
    refine ⟨rfl, fun c a e x h0 h5 hx he => ?_⟩
    obtain rfl | rfl | rfl | rfl : c = 1 ∨ c = 2 ∨ c = 3 ∨ c = 4 := by omega
    all_goals
      simp only [encStream, decStream, symOf_valueToChar, BitVec.toNat_ofNat, Nat.reduceAdd,
        Nat.reduceSub, Nat.reduceLT, ↓reduceIte]
      exact congrArg (· :: []) (ofNat8_eq (by omega))
  | cons y rest ih =>
    obtain ⟨ihNone, ih⟩ := ih
    have hy := y.isLt
    refine ⟨?_, fun c a e x h0 h5 hx he => ?_⟩
    · simp only [encStream, decStream, symOf_valueToChar, BitVec.toNat_ofNat, Nat.reduceAdd,
        Nat.reduceLT, ↓reduceIte]
      exact ih 3 _ _ y (by decide) (by decide) (by omega) (by omega)
    · obtain rfl | rfl | rfl | rfl : c = 1 ∨ c = 2 ∨ c = 3 ∨ c = 4 := by omega
      all_goals
        simp only [encStream, decStream, symOf_valueToChar, BitVec.toNat_ofNat, Nat.reduceAdd,
          Nat.reduceSub, Nat.reduceLT, ↓reduceIte, List.cons.injEq]
        refine ⟨ofNat8_eq (by omega), ?_⟩
      · exact ih 4 _ _ y (by decide) (by decide) (by omega) (by omega)
      · refine ⟨ofNat8_eq (by omega), ?_⟩
        simpa only [Nat.reduceSub, Nat.pow_zero, Nat.mod_one] using ihNone
      · exact ih 1 _ _ y (by decide) (by decide) (by omega) (by omega)
      · exact ih 2 _ _ y (by decide) (by decide) (by omega) (by omega)

/-! ## The unused bits -/

/-- The pads of an encoding are a valid padding count (R77). -/
theorem padCountOk_encPads (n : Nat) : padCountOk (encPads n) = true := by
  obtain ⟨-, h⟩ | ⟨-, h⟩ | ⟨-, h⟩ | ⟨-, h⟩ | ⟨-, h⟩ := encPads_cases n <;> rw [h] <;> rfl

/-- The unused bits of the last data symbol are those the input's `8n mod 5` last bits leave free
(R77, R113). -/
theorem unusedBits_encPads {n : Nat} (h : n % 5 ≠ 0) :
    unusedBits (encPads n) = 5 - 8 * n % 5 := by
  obtain ⟨hn, hp⟩ | ⟨hn, hp⟩ | ⟨hn, hp⟩ | ⟨hn, hp⟩ | ⟨hn, hp⟩ := encPads_cases n <;>
    simp only [hp, unusedBits] <;> omega

/-- The last data character carries the input's last `c` bits and below them zeros (R113). -/
theorem encStream_getLast? (b : List Byte) : ∀ a c, c < 5 → (8 * b.length + c) % 5 ≠ 0 →
    ∃ k, (encStream a c b).getLast? =
      some (valueToChar (BitVec.ofNat 5 (k * 2 ^ (5 - (8 * b.length + c) % 5)))) := by
  induction b with
  | nil =>
    intro a c hc h
    simp only [List.length_nil, Nat.mul_zero, Nat.zero_add, Nat.mod_eq_of_lt hc] at h ⊢
    refine ⟨a, ?_⟩
    rw [encStream, if_pos (Nat.pos_of_ne_zero h), List.getLast?_singleton]
  | cons y rest ih =>
    intro a c hc h
    simp only [List.length_cons] at h ⊢
    simp only [encStream]
    split
    · have hrem : (8 * rest.length + (c + 3)) % 5 = (8 * (rest.length + 1) + c) % 5 := by omega
      obtain ⟨k, hk⟩ := ih ((a * 256 + y.toNat) % 2 ^ (c + 3)) (c + 3) (by omega) (by omega)
      exact ⟨k, by rw [List.getLast?_cons, hk, hrem]; rfl⟩
    · have hrem : (8 * rest.length + (c - 2)) % 5 = (8 * (rest.length + 1) + c) % 5 := by omega
      obtain ⟨k, hk⟩ := ih ((a * 256 + y.toNat) % 2 ^ (c + 3) % 2 ^ (c - 2)) (c - 2) (by omega)
        (by omega)
      exact ⟨k, by rw [List.getLast?_cons, List.getLast?_cons, hk, hrem]; rfl⟩

/-- A symbol whose unused bits are zero passes the strict check (R137). -/
theorem strictViolation_shifted (k p : Nat) :
    strictViolation (BitVec.ofNat 5 (k * 2 ^ unusedBits p)) p = false := by
  have hu : unusedBits p ≤ 5 := by
    unfold unusedBits
    split <;> decide
  have hdvd : 2 ^ unusedBits p ∣ 2 ^ 5 := Nat.pow_dvd_pow 2 hu
  have hpos : 0 < 2 ^ unusedBits p := Nat.two_pow_pos _
  have hle := Nat.le_of_dvd (by decide) hdvd
  have hzero : BitVec.ofNat 5 (k * 2 ^ unusedBits p) &&& BitVec.ofNat 5 (2 ^ unusedBits p - 1) =
      0#5 := by
    apply BitVec.eq_of_toNat_eq
    rw [BitVec.toNat_and, BitVec.toNat_ofNat, BitVec.toNat_ofNat,
      Nat.mod_eq_of_lt (a := 2 ^ unusedBits p - 1) (by omega), Nat.and_two_pow_sub_one_eq_mod,
      Nat.mod_mod_of_dvd _ hdvd, Nat.mul_mod_left]
    rfl
  rw [strictViolation, hzero]
  rfl

/-- With no pads the strict check has no unused bit to look at (R137). -/
theorem strictViolation_zero (v : Sym) : strictViolation v 0 = false := by
  revert v
  decide

/-! ## The checks -/

/-- The pads of an encoding as `decode` counts them (R132). -/
theorem padCount_base32Encode (b : List Byte) : padCount (base32Encode b) = encPads b.length := by
  rw [base32Encode_eq, padCount_split (noPad_encStream 0 0 b)]

/-- The data positions of an encoding as `decode` reads them (R132). -/
theorem dataPart_base32Encode (b : List Byte) : dataPart (base32Encode b) = encStream 0 0 b := by
  rw [base32Encode_eq, dataPart_split (noPad_encStream 0 0 b)]

/-- An encoding passes the padding check (R133). -/
theorem paddingBad_base32Encode (b : List Byte) : paddingBad (base32Encode b) = false := by
  rw [paddingBad, padCount_base32Encode, padCountOk_encPads, dataPart_base32Encode,
    any_pad_of_noPad (noPad_encStream 0 0 b)]
  rfl

/-- An encoding passes the character check (R135). -/
theorem characterBad_base32Encode (b : List Byte) : characterBad (base32Encode b) = false := by
  rw [characterBad, dataPart_base32Encode, List.any_eq_false]
  intro x hx
  obtain ⟨v, rfl⟩ := mem_encStream b 0 0 hx
  simp [charToValue_valueToChar]

/-- An encoding passes the strict check (R115, R137). -/
theorem strictBad_base32Encode (b : List Byte) : strictBad (base32Encode b) = false := by
  rw [strictBad, dataPart_base32Encode, padCount_base32Encode]
  by_cases h : b.length % 5 = 0
  · have hp : encPads b.length = 0 := by
      have := encPads_cases b.length
      omega
    rw [hp]
    split
    · exact strictViolation_zero _
    · rfl
  · obtain ⟨k, hk⟩ := encStream_getLast? b 0 0 (by decide) (by omega)
    rw [Nat.add_zero, ← unusedBits_encPads h] at hk
    rw [hk]
    simp only [symOf_valueToChar, strictViolation_shifted]

/-- The round trip (R115, R140). -/
theorem base32Decode_base32Encode (b : List Byte) : base32Decode (base32Encode b) = .ok b := by
  have hlen : (base32Encode b).length % 8 = 0 := by
    rw [base32Encode_length, encodedLength, Nat.mul_mod_left]
  have hdata : decodeBits (dataPart (base32Encode b)) = b := by
    rw [dataPart_base32Encode, decodeBits_stream, (decStream_encStream b).1]
  simp [base32Decode, hlen, paddingBad_base32Encode, characterBad_base32Encode,
    strictBad_base32Encode, hdata]

end Sys2Proof.Machine

open Sys2Proof Sys2Proof.Machine

/-- Settles O27: an encoding passes the three checks, and its data characters give the input back. -/
theorem decodeOfEncodeIsIdentity : Obligations.DecodeOfEncodeIsIdentity := by
  unfold Obligations.DecodeOfEncodeIsIdentity
  exact base32Decode_base32Encode
end

section
/-! PROOFS. ENC at the operation level (spec/42_encoder.md R110, R111): the result within the
capacities and the refusal beyond them. -/

namespace Sys2Proof.Machine

/-- STATUS after CapacityExceeded, as a word (R160). -/
theorem statusError_capacityExceeded : statusError .capacityExceeded = 0x00000096#32 := by decide

/-- ENC within the capacities, with the length of its output (R110). -/
theorem exec_enc_fits {s : State} (h : s.encTooBig = false) :
    exec .enc s = .next (State.completeOut
      { s.writeOut (base32Encode (s.ibufBytes s.lenOperand)) with
          ip := s.lenOperand, optr := encodedLength s.lenOperand }
      (encodedLength s.lenOperand)) := by
  obtain ⟨hbig, -⟩ | ⟨-, h'⟩ := execEnc_cases s
  · exact absurd (h.symm.trans hbig) (by decide)
  · exact h'

/-- OLEN after a completion with a length of 32 bits (R103(b), R167). -/
theorem completeOut_olen_toNat (s : State) {n : Nat} (h : n < 2 ^ 32) :
    (s.completeOut n).olen.toNat = n := complete_olen_toNat s h

/-- CAP_O is a 32-bit number (R7). -/
theorem capO_lt {c : Config} (h : c.wf = true) : c.capO < 2 ^ 32 := by
  rw [Config.wf, Bool.and_eq_true] at h
  exact capOk_lt h.2

/-- After a completion the host reads OBUF[0..OLEN) as it stands (R57). -/
theorem outRead_completeOut {u : State} {n : Nat} {j : Word} {c : Byte} (hn : n < 2 ^ 32)
    (hcap : n ≤ u.cfg.capO) (hj : j.toNat < n) (hc : u.obufCell j.toNat = some c) :
    (u.completeOut n).outRead j = c.setWidth 32 := by
  have hbyte : (u.completeOut n).obufHostByte j.toNat = c :=
    obufHostByte_result rfl (by rwa [completeOut_olen_toNat u hn]) hc
  rw [outRead_in (s := u.completeOut n) (busy_statusDone _ rfl) (hj.trans_le hcap), hbyte]

end Sys2Proof.Machine

open Sys2Proof Sys2Proof.Machine

/-- Settles O21: the encoding's length is OLEN, and the completion shows what was written. -/
theorem encResult : Obligations.EncResult := by
  unfold Obligations.EncResult
  intro s hwf hI hO
  have hcap := capO_lt hwf
  have hlt : encodedLength s.lenOperand < 2 ^ 32 := Nat.lt_of_le_of_lt hO hcap
  have hlen : (base32Encode (s.ibufBytes s.ilen.toNat)).length = encodedLength s.lenOperand := by
    rw [base32Encode_length, ibufBytes_length]
  refine ⟨_, exec_enc_fits (encTooBig_false.2 ⟨hI, hO⟩), statusDone_eq, ?_⟩
  rw [completeOut_olen_toNat _ hlt]
  refine ⟨rfl, hlen, fun j hj => ?_, fun j p c hj hc => ?_, fun j hj => ?_, fun _ => rfl, rfl⟩
  · rw [← hlen] at hj
    exact (writeOut_cell hj).trans (List.getElem?_eq_getElem hj).symm
  · have hj' := hj
    rw [← hlen] at hj'
    rw [List.getElem?_eq_getElem hj'] at hc
    exact outRead_completeOut hlt hO hj ((writeOut_cell hj').trans hc)
  · exact writeOut_cell_above (hlen ▸ hj)

/-- Settles O22: the interface check decides between a completion and CapacityExceeded. -/
theorem encRefusedExactlyBeyondCapacity : Obligations.EncRefusedExactlyBeyondCapacity := by
  unfold Obligations.EncRefusedExactlyBeyondCapacity
  intro s
  rw [← statusError_capacityExceeded]
  cases h : s.encTooBig with
  | true =>
    exact ⟨_, execEnc_tooBig h, iff_of_true rfl (encTooBig_true.1 h),
      fun _ => ⟨rfl, fun _ => rfl⟩⟩
  | false =>
    have hne : statusDone ≠ statusError .capacityExceeded := by decide
    refine ⟨_, exec_enc_fits h, iff_of_false hne fun hbig => ?_, fun hst => absurd hst hne⟩
    rw [← encTooBig_true, h] at hbig
    exact absurd hbig (by decide)
end

section
/-! PROOFS. The encoder's micro-steps (spec/42_encoder.md R116 to R123): the DISPATCH step, each of the
five steps of ENC_RUN, and the run of all of them against the operation level. -/

namespace Sys2Proof.Machine

/-! ## The DISPATCH step -/

section
variable {s : State}

theorem encDispatch_tooBig (h : s.encTooBig = true) :
    encDispatch s = .next (s.raise .capacityExceeded) := if_pos h

theorem encDispatch_fits (h : s.encTooBig = false) :
    encDispatch s = .next (s.enterRun .encRun) := if_neg (by simp [h])

theorem decDispatch_tooBig (h : s.decTooBig = true) :
    decDispatch s = .next (s.raise .capacityExceeded) := if_pos h

theorem decDispatch_badLength (h : s.decTooBig = false) (hm : s.lenOperand % 8 ≠ 0) :
    decDispatch s = .next (s.raise .invalidLength) := (if_neg (by simp [h])).trans (if_pos hm)

theorem decDispatch_fits (h : s.decTooBig = false) (hm : s.lenOperand % 8 = 0) :
    decDispatch s = .next { s with ip := 0, scan := ScanFlags.zero, ph := .decVal } :=
  (if_neg (by simp [h])).trans (if_neg (not_not.2 hm))

end

/-! ## The steps of ENC_RUN -/

/-- Step absorb reads inside IBUF wherever its own index lies there (R118). -/
theorem microStep_encAbsorb_inside {s : State} (hp : s.ph = .encRun) (hc : s.cnt.toNat < 5)
    (hi : s.ip < s.lenOperand) (hcap : s.ip < s.cfg.capI) :
    microStep s =
      .next ({ s with ip := s.ip + 1 }.shiftIn 8 ((s.ibufByte s.ip).setWidth 12)) := by
  rw [microStep_encRun hp, encRunStep, if_neg (by omega), if_pos hi, encAbsorb, readIn_in hcap]

/-- The symbol of step emit (R117). -/
theorem topBits_eq_ofNat (s : State) (k : Nat) :
    s.topBits k = BitVec.ofNat k (s.acc.toNat / 2 ^ (s.cnt.toNat - k)) :=
  BitVec.eq_of_toNat_eq (by rw [topBits_toNat, BitVec.toNat_ofNat])

/-- ACC after step absorb (R118). -/
theorem shiftIn_acc_toNat_mod (s : State) (k : Nat) {w : Nat} (b : BitVec w) :
    (s.shiftIn k (b.setWidth 12)).acc.toNat = (s.acc.toNat <<< k ||| b.toNat) % 2 ^ 12 := by
  rw [shiftIn_acc, BitVec.toNat_or, BitVec.toNat_shiftLeft, BitVec.toNat_setWidth,
    Nat.or_mod_two_pow]

/-- The symbol of step flush (R119). -/
theorem flushSymbol_eq_ofNat (a : AccWord) (k : Nat) :
    (a <<< k).setWidth 5 = BitVec.ofNat 5 (a.toNat <<< k % 2 ^ 5) := by
  apply BitVec.eq_of_toNat_eq
  rw [BitVec.toNat_setWidth, BitVec.toNat_shiftLeft, BitVec.toNat_ofNat, Nat.mod_mod,
    Nat.mod_mod_of_dvd _ (by decide)]

/-- The byte a write to OBUF leaves at its index (R60). -/
theorem obufCell_store_same {t : State} {m : Memory} {i : Nat} {v : Byte}
    (h : t.obuf = Memory.store m i v) : t.obufCell i = some v := by
  rw [State.obufCell, h, lookup_store_same]

/-- A write to OBUF leaves every other byte (R60). -/
theorem obufCell_store_other {s t : State} {i j : Nat} {v : Byte}
    (h : t.obuf = Memory.store s.obuf i v) (hj : j ≠ i) : t.obufCell j = s.obufCell j := by
  rw [State.obufCell, h, lookup_store_other _ _ hj, State.obufCell]

end Sys2Proof.Machine

open Sys2Proof Sys2Proof.Machine

/-- Settles O29: `n + L + 2` micro-steps of ENC reach the state of the operation level, and any edges
that hold as many reach what they reach. -/
theorem encMicroStepsGiveTheOperationLevel : Obligations.EncMicroStepsGiveTheOperationLevel := by
  unfold Obligations.EncMicroStepsGiveTheOperationLevel
  intro s es rest hp hb hd hcapI hcapO hes
  have hfit : s.encTooBig = false := encTooBig_false.2 ⟨hcapI, hcapO⟩
  rw [run_busyEdges rest hes hb (enc_busyRun s hp hd hfit)]
  exact (exec_enc_fits (s := { s with edges := rest }) hfit).symm

/-- Settles O6: the interface checks in their order, and the state each outcome leaves. -/
theorem dispatchMicroSteps : Obligations.DispatchMicroSteps := by
  unfold Obligations.DispatchMicroSteps
  intro s
  refine ⟨rfl, rfl, fun h => ?_, fun hI hO => encDispatch_fits (encTooBig_false.2 ⟨hI, hO⟩),
    fun h => ?_, fun hI hO hm => ?_,
    fun hI hO hm => decDispatch_fits (decTooBig_false.2 ⟨hI, hO⟩) hm⟩
  · rw [← statusError_capacityExceeded]
    exact encDispatch_tooBig (encTooBig_true.2 h)
  · rw [← statusError_capacityExceeded]
    exact decDispatch_tooBig (decTooBig_true.2 h)
  · rw [← statusError_invalidLength]
    exact decDispatch_badLength (decTooBig_false.2 ⟨hI, hO⟩) hm

/-- Settles O28: an edge in ENC_RUN is the one enabled micro-step, whose effect each clause lists. -/
theorem encoderMicroSteps : Obligations.EncoderMicroSteps := by
  unfold Obligations.EncoderMicroSteps
  intro s e rest hp hb hr hs hc
  have hstep : step { s with edges := e :: rest } = microStep { s with edges := rest } :=
    clockEdge_run (s := { s with edges := rest }) hb (.inl hp) hr hs
  rw [hstep]
  refine ⟨fun h5 ho => ?emit, fun hlt hi hcap => ?absorb, fun hlt hi h0 ho => ?flush,
    fun h0 hi hm ho => ?pad, fun h0 hi hm => ?finish⟩
  case emit =>
    refine ⟨_, microStep_encEmit (s := { s with edges := rest }) hp h5 ho, ?_⟩
    rw [← topBits_eq_ofNat s 5]
    exact ⟨obufCell_store_same rfl, fun _ => obufCell_store_other rfl, dropBits_cnt_toNat s 5,
      dropBits_acc_toNat s 5, rfl⟩
  case absorb =>
    exact ⟨_, microStep_encAbsorb_inside (s := { s with edges := rest }) hp hlt hi hcap,
      shiftIn_acc_toNat_mod s 8 _,
      shiftIn_cnt_toNat (s := s) 8 ((s.ibufByte s.ip).setWidth 12) (by omega), rfl⟩
  case flush =>
    refine ⟨_, microStep_encFlush (s := { s with edges := rest }) hp hlt hi.not_lt h0 ho, ?_⟩
    rw [← flushSymbol_eq_ofNat]
    exact ⟨obufCell_store_same rfl, fun _ => obufCell_store_other rfl, rfl⟩
  case pad =>
    exact ⟨_, microStep_encPad (s := { s with edges := rest }) hp h0 hi.not_lt hm ho,
      obufCell_store_same rfl, fun _ => obufCell_store_other rfl, rfl⟩
  case finish =>
    rw [← statusDone_eq]
    exact microStep_encFinish (s := { s with edges := rest }) hp h0 hi.not_lt hm
end

section
/-! PROOFS. Decoding and the case of letters (spec/43_decoder.md R140, R150): folding a text to upper
case changes no value, no `=` and so no check and no byte. -/

namespace Sys2Proof.Machine

/-! ## One character -/

theorem upperCase_lower {c : Byte} (h : classOf c = .lower) : upperCase c = c - 0x20#8 := if_pos h

theorem upperCase_other {c : Byte} (h : classOf c ≠ .lower) : upperCase c = c := if_neg h

/-- A lower-case letter folds to an upper-case letter (R79, R93(c)). -/
theorem classOf_upperCase_lower {c : Byte} (h : classOf c = .lower) :
    classOf (upperCase c) = .upper := by
  rw [classOf_lower_iff] at h
  rw [upperCase_lower (classOf_lower_iff.2 h), classOf_upper_iff]
  bv_omega

/-- Folding keeps the value of a character (R92, R150). -/
@[simp] theorem charToValue_upperCase (c : Byte) : charToValue (upperCase c) = charToValue c := by
  by_cases h : classOf c = .lower
  · have hr := classOf_lower_iff.1 h
    rw [charToValue_upper (classOf_upperCase_lower h), charToValue_lower h, upperCase_lower h]
    congr 2
    bv_omega
  · rw [upperCase_other h]

@[simp] theorem symOf_upperCase (c : Byte) : symOf (upperCase c) = symOf c := by
  rw [symOf, charToValue_upperCase, symOf]

/-- Folding makes and loses no `=` (R79). -/
@[simp] theorem upperCase_beq_padChar (c : Byte) :
    (upperCase c == padChar) = (c == padChar) := by
  by_cases h : classOf c = .lower
  · have hu : upperCase c ≠ padChar := fun he => by
      have := classOf_upperCase_lower h
      rw [he] at this
      exact absurd this (by decide)
    have hc : c ≠ padChar := by
      rintro rfl
      exact absurd h (by decide)
    rw [beq_false_of_ne hu, beq_false_of_ne hc]
  · rw [upperCase_other h]

/-- R93(c): the character of a data character's value is the character folded to upper case. -/
theorem valueToChar_of_value {c : Byte} {v : Sym} (hv : charToValue c = some v) :
    valueToChar v = upperCase c := by
  cases hc : classOf c with
  | upper => rw [upperCase_other (by simp [hc]), valueToChar_of_upper hc hv]
  | digit => rw [upperCase_other (by simp [hc]), valueToChar_of_digit hc hv]
  | lower => rw [upperCase_lower hc, valueToChar_of_lower hc hv]
  | pad | invalid =>
    rw [charToValue_none (by simp [hc]) (by simp [hc]) (by simp [hc])] at hv
    cases hv

/-! ## A text -/

@[simp] theorem padCount_upperCase (t : List Byte) : padCount (t.map upperCase) = padCount t := by
  have hcomp : (fun c : Byte => c == padChar) ∘ upperCase = fun c => c == padChar :=
    funext upperCase_beq_padChar
  rw [padCount, ← List.map_reverse, List.takeWhile_map, hcomp, List.length_map, padCount]

@[simp] theorem dataPart_upperCase (t : List Byte) :
    dataPart (t.map upperCase) = (dataPart t).map upperCase := by
  rw [dataPart, padCount_upperCase, List.length_map, dataPart, List.map_take]

@[simp] theorem paddingBad_upperCase (t : List Byte) :
    paddingBad (t.map upperCase) = paddingBad t := by
  simp [paddingBad, List.any_map, Function.comp_def]

@[simp] theorem characterBad_upperCase (t : List Byte) :
    characterBad (t.map upperCase) = characterBad t := by
  simp [characterBad, List.any_map, Function.comp_def]

@[simp] theorem strictBad_upperCase (t : List Byte) :
    strictBad (t.map upperCase) = strictBad t := by
  rw [strictBad, dataPart_upperCase, List.getLast?_map, padCount_upperCase, strictBad]
  cases (dataPart t).getLast? <;> simp

/-- The decoder's bytes depend on the values of the characters only (R138). -/
theorem decStream_upperCase (d : List Byte) : ∀ a c,
    decStream a c (d.map upperCase) = decStream a c d := by
  induction d with
  | nil => intro a c; rfl
  | cons x rest ih => intro a c; simp only [List.map_cons, decStream, symOf_upperCase, ih]

end Sys2Proof.Machine

open Sys2Proof Sys2Proof.Machine

/-- Settles O38: the three checks and the bytes read a character's value, or whether it is `=`. -/
theorem decodeIgnoresCase : Obligations.DecodeIgnoresCase := by
  unfold Obligations.DecodeIgnoresCase
  intro t
  simp only [base32Decode, List.length_map, paddingBad_upperCase, characterBad_upperCase,
    strictBad_upperCase, dataPart_upperCase, decodeBits_stream, decStream_upperCase]
end

section
/-! PROOFS. The round trip of an accepted text through `encode` (spec/43_decoder.md R140). The bits that
an accepted text leaves in the accumulator at its end are zero, so its bytes determine its symbols;
and the encoding of its bytes is a text that decodes to the same bytes. -/

namespace Sys2Proof.Machine

/-! ## The unused bits -/

/-- The valid padding counts (R77, R133). -/
theorem padCountOk_iff {p : Nat} :
    padCountOk p = true ↔ p = 0 ∨ p = 1 ∨ p = 3 ∨ p = 4 ∨ p = 6 := by
  simp [padCountOk, or_assoc]

theorem unusedBits_le (p : Nat) : unusedBits p ≤ 4 := by
  unfold unusedBits
  split <;> decide

/-- The strict check in numbers (R137). -/
theorem strictViolation_iff {v : Sym} {p : Nat} :
    strictViolation v p = true ↔ v.toNat % 2 ^ unusedBits p ≠ 0 := by
  have hu : 2 ^ unusedBits p ≤ 2 ^ 4 := Nat.pow_le_pow_right (by decide) (unusedBits_le p)
  have hand : (v &&& BitVec.ofNat 5 (2 ^ unusedBits p - 1)).toNat = v.toNat % 2 ^ unusedBits p := by
    rw [BitVec.toNat_and, BitVec.toNat_ofNat, Nat.mod_eq_of_lt (by omega),
      Nat.and_two_pow_sub_one_eq_mod]
  rw [strictViolation, Bool.and_eq_true, bne_iff_ne, Ne, ← BitVec.toNat_inj, hand]
  exact and_iff_right rfl

/-- The unused bits are those that the data characters hold beyond whole bytes (R77). -/
theorem unusedBits_eq_mod {n p : Nat} (hp : padCountOk p = true) (h : (n + p) % 8 = 0) :
    unusedBits p = 5 * n % 8 := by
  obtain rfl | rfl | rfl | rfl | rfl := padCountOk_iff.1 hp <;> simp only [unusedBits] <;> omega

/-! ## The bits left in the accumulator -/

/-- The value left in an accumulator of value `a` with `c` valid bits after the data characters still
to come, whose whole bytes are `decStream a c` (R144 to R146). -/
def decRest : Nat → Nat → List Byte → Nat
  | a, _, [] => a
  | a, c, x :: rest =>
    if c + 5 < 8 then decRest (a * 32 + (symOf x).toNat) (c + 5) rest
    else decRest ((a * 32 + (symOf x).toNat) % 2 ^ (c - 3)) (c - 3) rest

/-- A symbol shifted in below `c` bits makes `c + 5` bits. -/
theorem absorb_lt {a c : Nat} (v : Sym) (h : a < 2 ^ c) : a * 32 + v.toNat < 2 ^ (c + 5) := by
  have := v.isLt
  rw [Nat.pow_add]
  omega

theorem absorb_inj {a a' : Nat} {v v' : Sym} (h : a * 32 + v.toNat = a' * 32 + v'.toNat) :
    a = a' ∧ v = v' := by
  have := v.isLt
  have := v'.isLt
  exact ⟨by omega, BitVec.eq_of_toNat_eq (by omega)⟩

/-- The bits left are the low bits of the last symbol, where they are bits of one symbol. -/
theorem decRest_eq_getLast (d : List Byte) : ∀ (a c : Nat) (hd : d ≠ []), a < 2 ^ c → c < 8 →
    (5 * d.length + c) % 8 ≤ 4 →
    decRest a c d = (symOf (d.getLast hd)).toNat % 2 ^ ((5 * d.length + c) % 8) := by
  induction d with
  | nil => intro a c hd; exact absurd rfl hd
  | cons x rest ih =>
    intro a c hd ha hc hleft
    rw [List.length_cons] at hleft ⊢
    by_cases hrest : rest = []
    · subst hrest
      have hc3 : 3 ≤ c := by rw [List.length_nil] at hleft; omega
      have hmod : (5 * (([] : List Byte).length + 1) + c) % 8 = c - 3 := by
        rw [List.length_nil]
        omega
      have hdvd : 2 ^ (c - 3) ∣ a * 32 :=
        Dvd.dvd.mul_left (Nat.pow_dvd_pow 2 (by omega : c - 3 ≤ 5)) a
      rw [decRest, if_neg (by omega), decRest, hmod, List.getLast_singleton, Nat.add_mod,
        Nat.mod_eq_zero_of_dvd hdvd, Nat.zero_add, Nat.mod_mod]
    · rw [decRest, List.getLast_cons hrest]
      split
      · have hlen : 5 * rest.length + (c + 5) = 5 * (rest.length + 1) + c := by omega
        rw [ih _ _ hrest (absorb_lt _ ha) (by omega) (by omega), hlen]
      · have hlen : (5 * rest.length + (c - 3)) % 8 = (5 * (rest.length + 1) + c) % 8 := by omega
        rw [ih _ _ hrest (Nat.mod_lt _ (Nat.two_pow_pos _)) (by omega) (by omega), hlen]

/-- The bytes and the bits left determine what the accumulator held and the symbols that came. -/
theorem decStream_inj (d : List Byte) : ∀ (d' : List Byte) (a a' c : Nat), a < 2 ^ c → a' < 2 ^ c →
    d.length = d'.length → decStream a c d = decStream a' c d' → decRest a c d = decRest a' c d' →
    a = a' ∧ d.map symOf = d'.map symOf := by
  induction d with
  | nil =>
    intro d' a a' c _ _ hlen _ hrest
    obtain rfl := List.eq_nil_of_length_eq_zero hlen.symm
    exact ⟨hrest, rfl⟩
  | cons x xs ih =>
    intro d' a a' c ha ha' hlen hstream hrest
    obtain _ | ⟨y, ys⟩ := d'
    · cases hlen
    have hx := absorb_lt (symOf x) ha
    have hy := absorb_lt (symOf y) ha'
    suffices h : a * 32 + (symOf x).toNat = a' * 32 + (symOf y).toNat ∧ xs.map symOf = ys.map symOf by
      obtain ⟨hsum, hmap⟩ := h
      obtain ⟨haa, hv⟩ := absorb_inj hsum
      exact ⟨haa, by rw [List.map_cons, List.map_cons, hv, hmap]⟩
    have hlen' : xs.length = ys.length := Nat.succ.inj hlen
    by_cases hc : c + 5 < 8
    · simp only [decStream, decRest, if_pos hc] at hstream hrest
      exact ih ys _ _ _ hx hy hlen' hstream hrest
    · simp only [decStream, decRest, if_neg hc, List.cons.injEq] at hstream hrest
      obtain ⟨hbyte, hstream⟩ := hstream
      have hpos := Nat.two_pow_pos (c - 3)
      obtain ⟨hmod, hmap⟩ :=
        ih ys _ _ _ (Nat.mod_lt _ hpos) (Nat.mod_lt _ hpos) hlen' hstream hrest
      have hpow : 2 ^ (c + 5) = 2 ^ (c - 3) * 256 := by
        rw [show c + 5 = c - 3 + 8 by omega, Nat.pow_add]
      rw [hpow] at hx hy
      have hdiv := congrArg BitVec.toNat hbyte
      rw [BitVec.toNat_ofNat, BitVec.toNat_ofNat, Nat.mod_eq_of_lt (Nat.div_lt_of_lt_mul hx),
        Nat.mod_eq_of_lt (Nat.div_lt_of_lt_mul hy)] at hdiv
      refine ⟨?_, hmap⟩
      rw [← Nat.div_add_mod (a * 32 + (symOf x).toNat) (2 ^ (c - 3)), hdiv, hmod, Nat.div_add_mod]

/-! ## Accepted texts -/

/-- The pads are characters of the text (R132). -/
theorem padCount_le_length (t : List Byte) : padCount t ≤ t.length := by
  rw [padCount, ← List.length_reverse (as := t)]
  exact (List.takeWhile_prefix _).length_le

/-- A text is its data positions and its pads (R132). -/
theorem dataPart_length_add (t : List Byte) : (dataPart t).length + padCount t = t.length := by
  have := padCount_le_length t
  rw [dataPart, List.length_take]
  omega

/-- An accepted text leaves no bit set in the accumulator (R137, R146). -/
theorem decRest_of_ok {t out : List Byte} (h : base32Decode t = .ok out) :
    decRest 0 0 (dataPart t) = 0 := by
  obtain ⟨hm, -, -, -, hstrict, -, -, -, -, hp⟩ := base32Decode_ok h
  by_cases hd : dataPart t = []
  · rw [hd]
    rfl
  · rw [strictBad, List.getLast?_eq_some_getLast hd] at hstrict
    have hu := unusedBits_eq_mod hp (n := (dataPart t).length) (by rwa [dataPart_length_add])
    have hle := unusedBits_le (padCount t)
    rw [decRest_eq_getLast _ 0 0 hd (by decide) (by decide) (by rwa [Nat.add_zero, ← hu]),
      Nat.add_zero, ← hu]
    exact not_not.1 fun hne => by simp [strictViolation_iff.2 hne] at hstrict

/-- The encoding of an accepted text's bytes has as many pads and characters as the text (R78). -/
theorem lengths_of_ok {t out : List Byte} (h : base32Decode t = .ok out) :
    padCount t = encPads out.length ∧ t.length = encodedLength out.length := by
  have hlen := base32Decode_length h
  obtain ⟨hm, -, -, -, -, -, -, -, -, hp⟩ := base32Decode_ok h
  have hpads := encPads_cases out.length
  unfold decodedBound at hlen
  unfold encodedLength
  obtain hp | hp | hp | hp | hp := padCountOk_iff.1 hp <;> rw [hp] at hlen ⊢ <;>
    simp only [padLoss] at hlen <;> omega

/-- A data character that has a value, folded to upper case (R93(c)). -/
theorem valueToChar_symOf {c : Byte} (h : (charToValue c).isNone = false) :
    valueToChar (symOf c) = upperCase c := by
  cases hv : charToValue c with
  | none => simp [hv] at h
  | some v => rw [symOf, hv, Option.getD_some, valueToChar_of_value hv]

/-- `encode` of `decode` is the text folded to upper case (R140). -/
theorem base32Encode_of_ok {t out : List Byte} (h : base32Decode t = .ok out) :
    base32Encode out = t.map upperCase := by
  have h' := base32Decode_base32Encode out
  obtain ⟨-, hout, -, hchar, -, d, -, ht, hd, -⟩ := base32Decode_ok h
  obtain ⟨hpads, htlen⟩ := lengths_of_ok h
  have hlen : (encStream 0 0 out).length = d.length := by
    have htext := dataPart_length_add t
    have henc := congrArg List.length (base32Encode_eq out)
    rw [List.length_append, List.length_replicate, base32Encode_length] at henc
    rw [hd] at htext
    omega
  have hstream : decStream 0 0 (encStream 0 0 out) = decStream 0 0 d := by
    rw [(decStream_encStream out).1, hout, hd, decodeBits_stream]
  have hrest : decRest 0 0 (encStream 0 0 out) = decRest 0 0 d := by
    rw [← dataPart_base32Encode, decRest_of_ok h', ← hd, decRest_of_ok h]
  obtain ⟨-, hsyms⟩ := decStream_inj _ _ 0 0 0 (by decide) (by decide) hlen hstream hrest
  have hdata : encStream 0 0 out = d.map upperCase := by
    calc encStream 0 0 out = (encStream 0 0 out).map fun x => valueToChar (symOf x) := by
          refine (List.map_id _).symm.trans (List.map_congr_left fun x hx => ?_)
          obtain ⟨v, rfl⟩ := mem_encStream out 0 0 hx
          rw [symOf_valueToChar, id]
      _ = ((encStream 0 0 out).map symOf).map valueToChar :=
          (List.map_map (f := symOf) (g := valueToChar)).symm
      _ = (d.map symOf).map valueToChar := by rw [hsyms]
      _ = d.map fun x => valueToChar (symOf x) := List.map_map
      _ = d.map upperCase := by
          refine List.map_congr_left fun x hx => valueToChar_symOf ?_
          rw [characterBad, hd, List.any_eq_false] at hchar
          exact Bool.eq_false_iff.2 (hchar x hx)
  rw [base32Encode_eq, hdata, ← hpads, ht, List.map_append, List.map_replicate, ← ht]
  rfl

end Sys2Proof.Machine

open Sys2Proof Sys2Proof.Machine

/-- Settles O39: the text and the encoding of its bytes decode to the same bytes, so their symbols
agree. -/
theorem encodeOfDecodeIsTheText : Obligations.EncodeOfDecodeIsTheText := by
  unfold Obligations.EncodeOfDecodeIsTheText
  exact fun _ _ => base32Encode_of_ok
end

section
/-! PROOFS. DEC by micro-steps (spec/43_decoder.md R141 to R148): each step of DEC_VAL and DEC_RUN, and
the run of all of them against the operation level. -/

namespace Sys2Proof.Machine

/-! ## The steps of DEC_VAL -/

/-- Step scan reads inside IBUF wherever its own index lies there (R142). -/
theorem microStep_scan_inside {s : State} (hp : s.ph = .decVal) (hi : s.ip < s.lenOperand)
    (hcap : s.ip < s.cfg.capI) :
    microStep s = .next { s with
      ip := s.ip + 1, scan := scanChar s.lenOperand s.ip (s.ibufByte s.ip) s.scan } := by
  rw [microStep_decVal hp, decValStep, if_pos hi, decScan, readIn_in hcap]

theorem padCountOk_iff_mem {p : Nat} : padCountOk p = true ↔ p ∈ [0, 1, 3, 4, 6] := by
  simp [padCountOk_iff]

section
variable {m : Nat} {f : ScanFlags}

/-- The verdict on a violated placement or an invalid count of pads (R143). -/
theorem scanVerdict_padding (h : f.padErr = true ∨ f.padCnt ∉ [0, 1, 3, 4, 6]) :
    scanVerdict m f = some .invalidPadding := by
  rw [← padCountOk_iff_mem, Bool.not_eq_true] at h
  exact if_pos h

variable (he : f.padErr = false) (hp : f.padCnt ∈ [0, 1, 3, 4, 6])
include he hp

/-- Past its first test the verdict looks at the characters, then at the unused bits (R143). -/
theorem scanVerdict_placed : scanVerdict m f =
    if f.chrErr then some .invalidCharacter
    else if 0 < m ∧ f.lastV.toNat % 2 ^ unusedBits f.padCnt ≠ 0 then some .invalidPadding
    else none := by
  have hok := padCountOk_iff_mem.2 hp
  rw [scanVerdict, if_neg (by simp [he, hok])]
  simp only [strictViolation_iff]

theorem scanVerdict_character (hc : f.chrErr = true) :
    scanVerdict m f = some .invalidCharacter := by
  rw [scanVerdict_placed he hp, if_pos hc]

variable (hc : f.chrErr = false)
include hc

theorem scanVerdict_strict (hm : 0 < m) (hv : f.lastV.toNat % 2 ^ unusedBits f.padCnt ≠ 0) :
    scanVerdict m f = some .invalidPadding := by
  rw [scanVerdict_placed he hp, if_neg (by simp [hc]), if_pos ⟨hm, hv⟩]

theorem scanVerdict_pass (hv : m = 0 ∨ f.lastV.toNat % 2 ^ unusedBits f.padCnt = 0) :
    scanVerdict m f = none := by
  rw [scanVerdict_placed he hp, if_neg (by simp [hc]), if_neg (by omega)]

end

/-! ## The steps of DEC_RUN -/

/-- Step absorb symbol reads inside IBUF wherever its own index lies there (R145). -/
theorem microStep_decAbsorb_inside {s : State} {v : Sym} (hp : s.ph = .decRun)
    (hc : s.cnt.toNat < 8) (hi : s.ip < s.lenOperand - s.scan.padCnt) (hcap : s.ip < s.cfg.capI)
    (hv : charToValue (s.ibufByte s.ip) = some v) :
    microStep s = .next ({ s with ip := s.ip + 1 }.shiftIn 5 (v.setWidth 12)) := by
  rw [microStep_decRun hp, decRunStep, if_neg (by omega), if_pos hi, decAbsorb, readIn_in hcap]
  simp only [hv]

/-! ## STATUS of the two verdicts -/

theorem statusError_invalidPadding : statusError .invalidPadding = 0x00000036#32 := by decide
theorem statusError_invalidCharacter : statusError .invalidCharacter = 0x00000026#32 := by decide

end Sys2Proof.Machine

open Sys2Proof Sys2Proof.Machine

/-- Settles O41: the micro-steps of an accepted and of a rejected text reach the state of the operation
level, and any edges that hold as many reach what they reach. -/
theorem decMicroStepsGiveTheOperationLevel :
    Obligations.DecMicroStepsGiveTheOperationLevel := by
  unfold Obligations.DecMicroStepsGiveTheOperationLevel
  intro s es rest hp hb hd hcapI hcapO hm
  have hfit : s.decTooBig = false := decTooBig_false.2 ⟨hcapI, hcapO⟩
  refine ⟨fun out hok hes => ?_, fun r herr hes => ?_⟩
  · rw [run_busyEdges rest hes hb (dec_busyRun_ok s hp hd hfit out hok)]
    exact (execDec_ok (s := { s with edges := rest }) hfit hm hok).symm
  · rw [run_busyEdges rest hes hb (dec_busyRun_error s hp hd hfit hm r herr)]
    exact (execDec_error (s := { s with edges := rest }) hfit hm herr).symm

/-- Settles O40: an edge in DEC_VAL or DEC_RUN is the one enabled micro-step, whose effect each clause
lists. -/
theorem decoderMicroSteps : Obligations.DecoderMicroSteps := by
  unfold Obligations.DecoderMicroSteps
  intro s e rest hb hr hs
  have hstep (hp : s.ph = .decVal ∨ s.ph = .decRun) :
      step { s with edges := e :: rest } = microStep { s with edges := rest } :=
    clockEdge_run (s := { s with edges := rest }) hb (.inr hp) hr hs
  refine ⟨fun hp hi hcap => ?scan, fun hp hi => ?verdict, fun hp h8 ho => ?emit,
    fun v hp hlt hi hcap hv => ?absorb, fun hp hlt hi => ?finish⟩
  case scan =>
    rw [hstep (.inl hp)]
    exact microStep_scan_inside (s := { s with edges := rest }) hp hi hcap
  case verdict =>
    rw [hstep (.inl hp), ← statusError_invalidPadding, ← statusError_invalidCharacter]
    refine ⟨_, microStep_verdict (s := { s with edges := rest }) hp hi.not_lt, fun h => ?_,
      fun he hpad hc => ?_, fun he hpad hc hm hv => ?_, fun he hpad hc hv => ?_⟩
    · rw [scanVerdict_padding h]
      rfl
    · rw [scanVerdict_character he hpad hc]
      rfl
    · rw [scanVerdict_strict he hpad hc hm hv]
      rfl
    · rw [scanVerdict_pass he hpad hc hv]
      rfl
  case emit =>
    rw [hstep (.inr hp)]
    refine ⟨_, microStep_decEmit (s := { s with edges := rest }) hp h8 ho, ?_⟩
    rw [← topBits_eq_ofNat s 8]
    exact ⟨obufCell_store_same rfl, fun _ => obufCell_store_other rfl, dropBits_cnt_toNat s 8,
      dropBits_acc_toNat s 8, rfl⟩
  case absorb =>
    rw [hstep (.inr hp)]
    exact ⟨_, microStep_decAbsorb_inside (s := { s with edges := rest }) hp hlt hi hcap hv,
      shiftIn_acc_toNat_mod s 5 v, shiftIn_cnt_toNat (s := s) 5 (v.setWidth 12) (by omega), rfl⟩
  case finish =>
    rw [hstep (.inr hp), ← statusDone_eq]
    exact microStep_decFinish (s := { s with edges := rest }) hp hlt hi.not_lt
end

section
/-! PROOFS. DEC at the operation level (spec/43_decoder.md R130, R139): the result of an accepted text,
and what an error completion of any command leaves. -/

namespace Sys2Proof.Machine

/-- ERR of the two kinds of STATUS a completion writes (R167). -/
theorem err_statusDone {s : State} (h : s.status = statusDone) : s.err = false := by
  simp only [State.err, h]
  decide

/-- DONE of an error completion (R168). -/
theorem done_statusError {s : State} {e : Err} (h : s.status = statusError e) : s.done = true := by
  simp only [State.done, h]
  cases e <;> decide

end Sys2Proof.Machine

open Sys2Proof Sys2Proof.Machine

/-- Settles O30: the bytes of the text fit OBUF, and the completion shows what was written. -/
theorem decResult : Obligations.DecResult := by
  unfold Obligations.DecResult
  intro s out hwf hI hO hok
  obtain ⟨hm, -⟩ := base32Decode_ok hok
  have hfits := base32Decode_fits hok
  rw [ibufBytes_length] at hm hfits
  have hcap : out.length ≤ s.cfg.capO := hfits.trans hO
  have hlt : out.length < 2 ^ 32 := hcap.trans_lt (capO_lt hwf)
  refine ⟨_, execDec_ok (decTooBig_false.2 ⟨hI, hO⟩) hm hok, statusDone_eq,
    completeOut_olen_toNat _ hlt, fun j hj => ?_, fun j p v hv => ?_, fun j hj => ?_,
    fun _ => rfl, rfl⟩
  · exact (writeOut_cell hj).trans (List.getElem?_eq_getElem hj).symm
  · obtain ⟨hj, rfl⟩ := List.getElem?_eq_some_iff.1 hv
    exact outRead_completeOut hlt hcap hj (writeOut_cell hj)
  · exact writeOut_cell_above hj

/-- Settles O32: of the ends a command may have, the error end alone sets ERR, and it writes neither
buffer. -/
theorem errorsLeaveNoPartialOutput : Obligations.ErrorsLeaveNoPartialOutput := by
  unfold Obligations.ErrorsLeaveNoPartialOutput
  intro i s
  obtain ⟨t, ht, hend⟩ := exec_end i s
  refine ⟨t, ht, fun herr => ?_⟩
  cases hend with
  | error ip scan e =>
    exact ⟨done_statusError rfl, busy_statusError _ e rfl, rfl, rfl, fun _ => rfl, fun _ => rfl, rfl⟩
  | length n => exact absurd herr (by rw [err_statusDone rfl]; decide)
  | output out ip scan fits => exact absurd herr (by rw [err_statusDone rfl]; decide)
end

section
/-! PROOFS. The padding of a text and which texts `decode` accepts (spec/43_decoder.md R132 to R137). -/

namespace Sys2Proof.Machine

/-! ## The padding count -/

/-- The data positions are what is left of a text without the `=` that end it (R132). -/
theorem dataPart_eq_rdropWhile (t : List Byte) : dataPart t = t.rdropWhile (· == padChar) := by
  have hlen := congrArg List.length (t.rdropWhile_append_rtakeWhile (p := (· == padChar)))
  have hpads : (t.rtakeWhile (· == padChar)).length = padCount t := List.length_reverse
  rw [List.length_append, hpads] at hlen
  rw [dataPart, ← hlen, Nat.add_sub_cancel]
  exact (List.prefix_iff_eq_take.1 (t.rdropWhile_prefix _)).symm

/-- Every text is its data positions and then as many `=` as its padding count (R132). -/
theorem dataPart_append_pads (t : List Byte) :
    dataPart t ++ List.replicate (padCount t) padChar = t := by
  have hpads : t.rtakeWhile (· == padChar) = List.replicate (padCount t) padChar := by
    refine List.eq_replicate_iff.2 ⟨List.length_reverse, fun x hx => ?_⟩
    simpa using List.mem_takeWhile_imp (List.mem_reverse.1 hx)
  rw [dataPart_eq_rdropWhile, ← hpads, List.rdropWhile_append_rtakeWhile]

/-- The data positions do not end in `=` (R132). -/
theorem dataPart_getLast?_ne (t : List Byte) : (dataPart t).getLast? ≠ some padChar := by
  rw [dataPart_eq_rdropWhile]
  by_cases hne : t.rdropWhile (· == padChar) = []
  · simp [hne]
  · rw [List.getLast?_eq_some_getLast hne]
    simpa using List.rdropWhile_last_not (· == padChar) t hne

/-! ## The data positions -/

theorem dataPart_getElem? {t : List Byte} {k : Nat} (h : k < t.length - padCount t) :
    (dataPart t)[k]? = t[k]? := List.getElem?_take_of_lt h

theorem dataPart_length (t : List Byte) : (dataPart t).length = t.length - padCount t := by
  have := dataPart_length_add t
  omega

/-- What is said of every data position is said of every data character (R132). -/
theorem forall_mem_dataPart {t : List Byte} {P : Byte → Prop} :
    (∀ c ∈ dataPart t, P c) ↔ ∀ k c, k < t.length - padCount t → t[k]? = some c → P c := by
  constructor
  · intro h k c hk hc
    rw [← dataPart_getElem? hk] at hc
    exact h c (List.mem_of_getElem? hc)
  · intro h c hc
    obtain ⟨k, hk, rfl⟩ := List.mem_iff_getElem.1 hc
    have hk' := hk
    rw [dataPart_length] at hk'
    exact h k _ hk' (by rw [← dataPart_getElem? hk', List.getElem?_eq_getElem hk])

/-- The last data character (R137). -/
theorem dataPart_getLast? {t : List Byte} (h : padCount t < t.length) :
    (dataPart t).getLast? = t[t.length - padCount t - 1]? := by
  rw [List.getLast?_eq_getElem?, dataPart_length, dataPart_getElem? (by omega)]

/-! ## The checks -/

/-- What check 2 requires (R133). -/
theorem paddingBad_false_iff {t : List Byte} : paddingBad t = false ↔
    padCountOk (padCount t) = true ∧ ∀ c ∈ dataPart t, c ≠ padChar := by
  simp [paddingBad]

/-- What check 3 requires (R135). -/
theorem characterBad_false_iff {t : List Byte} : characterBad t = false ↔
    ∀ c ∈ dataPart t, (charToValue c).isSome = true := by
  simp [characterBad, Option.isSome_iff_ne_none]

/-- Past checks 1 and 2 a text decodes when it passes the other two (R136). -/
theorem base32Decode_ok_iff {t : List Byte} (hm : t.length % 8 = 0) (hp : paddingBad t = false) :
    (∃ out, base32Decode t = .ok out) ↔ characterBad t = false ∧ strictBad t = false := by
  rw [base32Decode, if_neg (by simpa using hm), if_neg (by simp [hp])]
  cases characterBad t <;> cases strictBad t <;> simp

/-- The strict check of each padding count as a divisor of the last value (R137). -/
theorem strictViolation_false_iff {v : Sym} {p : Nat} (hp : padCountOk p = true) :
    strictViolation v p = false ↔ (p = 1 → v.toNat % 8 = 0) ∧ (p = 3 → v.toNat % 2 = 0) ∧
      (p = 4 → v.toNat % 16 = 0) ∧ (p = 6 → v.toNat % 4 = 0) := by
  rw [← Bool.not_eq_true, strictViolation_iff, not_not]
  obtain rfl | rfl | rfl | rfl | rfl := padCountOk_iff.1 hp <;> simp [unusedBits, Nat.mod_one]

/-- The strict check over the last data character, where each has a value (R137). -/
theorem strictBad_false_iff {t : List Byte} (hm : t.length % 8 = 0)
    (hp : padCountOk (padCount t) = true) (hc : characterBad t = false) :
    strictBad t = false ↔ ∀ c v, t[t.length - padCount t - 1]? = some c → charToValue c = some v →
      strictViolation v (padCount t) = false := by
  have hle := padCount_le_length t
  have h6 := padCountOk_le hp
  by_cases ht : t = []
  · subst ht
    simp [strictBad, dataPart]
  · have hpos := List.length_pos_iff.2 ht
    have hlast := dataPart_getLast? (t := t) (by omega)
    rw [strictBad, hlast]
    cases hx : t[t.length - padCount t - 1]? with
    | none => simp
    | some x =>
      have hv := characterBad_false_iff.1 hc x (List.mem_of_getLast? (hlast.trans hx))
      obtain ⟨v, hv⟩ := Option.isSome_iff_exists.1 hv
      simp only [symOf, hv, Option.getD_some]
      constructor
      · rintro h _ w ⟨⟩ hw
        rwa [← Option.some.inj (hv.symm.trans hw)]
      · exact fun h => h x v rfl hv

end Sys2Proof.Machine

open Sys2Proof Sys2Proof.Machine

/-- Settles O33: the pads are `=`, and the data positions before them do not end in one. -/
theorem padCountIsTheLongestEndingRun : Obligations.PadCountIsTheLongestEndingRun := by
  unfold Obligations.PadCountIsTheLongestEndingRun
  intro t
  have hlen := dataPart_length_add t
  refine ⟨padCount_le_length t, fun k hk hkt => ?_, fun hlt => ?_⟩
  · have hpad : (dataPart t ++ List.replicate (padCount t) padChar)[k]? = some padChar :=
      getElem?_eq_pad (by omega) (by omega)
    rwa [dataPart_append_pads] at hpad
  · rw [← dataPart_getLast? hlt]
    exact dataPart_getLast?_ne t

/-- Settles O34: check 2 as stated, and the text as data followed by at most six pads. -/
theorem paddingCheckMeaning : Obligations.PaddingCheckMeaning := by
  unfold Obligations.PaddingCheckMeaning
  intro t
  refine ⟨?_, fun hp hm j hj => ?_⟩
  · rw [paddingBad_false_iff, padCountOk_iff, forall_mem_dataPart]
    exact and_congr_right fun _ =>
      ⟨fun h k hk hpad => h k _ hk hpad rfl,
        fun h k c hk hc he => h k hk (he ▸ hc : t[k]? = some padChar)⟩
  · obtain ⟨hok, hdata⟩ := paddingBad_false_iff.1 hp
    have hnp : noPad (dataPart t) = true := by
      simpa only [noPad, List.all_eq_true, bne_iff_ne] using hdata
    have h6 := padCountOk_le hok
    have hlen := dataPart_length_add t
    rw [← dataPart_append_pads t] at hj
    have hd := le_of_getElem?_eq_pad hnp hj
    refine ⟨by omega, fun k hjk hk => ?_⟩
    have hpad : (dataPart t ++ List.replicate (padCount t) padChar)[k]? = some padChar :=
      getElem?_eq_pad (by omega) (by omega)
    rwa [dataPart_append_pads] at hpad

/-- Settles O35: the character check position by position, and the strict check in each padding
count's divisor. -/
theorem acceptedTexts : Obligations.AcceptedTexts := by
  unfold Obligations.AcceptedTexts
  intro t hm hp
  have hok := (paddingBad_false_iff.1 hp).1
  rw [base32Decode_ok_iff hm hp, ← forall_mem_dataPart, ← characterBad_false_iff]
  refine and_congr_right fun hc => ?_
  simp only [strictBad_false_iff hm hok hc, strictViolation_false_iff hok]
end

section
/-! PROOFS. `decode` block by block (spec/43_decoder.md R138): data characters put together at a block
boundary, and each byte of each block. -/

namespace Sys2Proof.Machine

/-- Eight data characters give one block and the bytes of the rest (R138). -/
theorem decodeBits_block {d : List Byte} (h : d ≠ []) :
    decodeBits d = decodeBlock (d.take 8) ++ decodeBits (d.drop 8) := by
  match d with
  | [] => exact absurd rfl h
  | [_] | [_, _] | [_, _, _] | [_, _, _, _] | [_, _, _, _, _] | [_, _, _, _, _, _]
  | [_, _, _, _, _, _, _] => exact (List.append_nil _).symm
  | _ :: _ :: _ :: _ :: _ :: _ :: _ :: _ :: _ => rfl

/-- The bytes of a block (R138). -/
theorem decodeBlock_getElem? {cs : List Byte} {i : Nat} (hi : i < blockBytes cs.length) :
    (decodeBlock cs)[i]? = some (byteAt (blockWord cs) i) := by
  rw [decodeBlock, List.getElem?_map, List.getElem?_range hi]
  rfl

/-- Byte `5c + i` of the decoded data characters is byte `i` of block `c`, where block `c` holds at
least one character (R138). -/
theorem decodeBits_getElem? (c i : Nat) : ∀ d : List Byte, 8 * c < d.length →
    i < blockBytes ((d.drop (8 * c)).take 8).length →
    (decodeBits d)[5 * c + i]? = some (byteAt (blockWord ((d.drop (8 * c)).take 8)) i) := by
  induction c with
  | zero =>
    intro d hd hi
    have hlen : (decodeBlock (d.take 8)).length = blockBytes (d.take 8).length := by
      simp [decodeBlock]
    rw [Nat.mul_zero, List.drop_zero] at hi ⊢
    rw [decodeBits_block (List.ne_nil_of_length_pos (by omega)), Nat.zero_add,
      List.getElem?_append_left (by omega), decodeBlock_getElem? hi]
  | succ c ih =>
    intro d hd hi
    have hfront : (decodeBlock (d.take 8)).length = 5 := by
      have h8 : (d.take 8).length = 8 := by rw [List.length_take]; omega
      rw [decodeBlock, List.length_map, List.length_range, h8]
      rfl
    have hdrop : d.drop (8 * (c + 1)) = (d.drop 8).drop (8 * c) := by
      rw [List.drop_drop]
      congr 1
      omega
    rw [hdrop] at hi ⊢
    rw [decodeBits_block (List.ne_nil_of_length_pos (by omega)),
      List.getElem?_append_right (by omega), hfront, show 5 * (c + 1) + i - 5 = 5 * c + i by omega]
    exact ih (d.drop 8) (by rw [List.length_drop]; omega) hi

/-- The 40 bits of a block, built from the values of its characters (R138). -/
theorem blockWord_eq_ofNat {cs : List Byte} (h : cs.length ≤ 8) :
    blockWord cs = BitVec.ofNat 40 (symVal cs * 2 ^ (5 * (8 - cs.length))) := by
  rw [← blockWord_toNat cs h, BitVec.ofNat_toNat, BitVec.setWidth_eq]

/-- Block `c` of a text without its pads, in whole blocks or not (R138). -/
theorem block_append_pads {d : List Byte} {c k p : Nat} (hc : 8 * c < d.length)
    (hk : k = min 8 (d.length - 8 * c)) :
    ((d ++ List.replicate p padChar).drop (8 * c)).take k = (d.drop (8 * c)).take 8 := by
  have hlen : (d.drop (8 * c)).length = d.length - 8 * c := List.length_drop
  rw [List.drop_append_of_le_length hc.le, List.take_append_of_le_length (by omega), hk, ← hlen,
    ← List.take_eq_take_min]

end Sys2Proof.Machine

open Sys2Proof Sys2Proof.Machine

/-- Settles O37: byte by byte from the blocks of data characters, all of eight but the last. -/
theorem decodeIndexByIndex : Obligations.DecodeIndexByIndex := by
  unfold Obligations.DecodeIndexByIndex
  intro t out h c k i hc hk hi
  obtain ⟨hm, rfl, -, -, -, -, -, -, -, hp⟩ := base32Decode_ok h
  have h6 := padCountOk_le hp
  have hlen := dataPart_length_add t
  have hcd : 8 * c < (dataPart t).length := by omega
  have hkd : k = min 8 ((dataPart t).length - 8 * c) := by
    split at hk <;> omega
  have hblock := block_append_pads (p := padCount t) hcd hkd
  rw [dataPart_append_pads] at hblock
  have hblen : ((t.drop (8 * c)).take k).length = k := by
    rw [hblock, List.length_take, List.length_drop, hkd]
  rw [decodeBits_getElem? c i _ hcd (by rw [← hblock, hblen]; exact hi), ← hblock,
    blockWord_eq_ofNat (by omega), hblen]
  rfl
end

section
/-! PROOFS. How a command ends (spec/60_exceptions.md R160, R166 to R168, R178): what the two
completions write, and which of them a command ends in, by the first error that applies to it. -/

namespace Sys2Proof.Machine

/-! ## The first error of a command -/

/-- STATUS after a command, from the error it reports, if any (R167, R168). -/
def endStatus : Option Err → Word
  | some e => statusError e
  | none => statusDone

/-- The error `decode` reports for a text, if any (R130). -/
def decodeError (t : List Byte) : Option Err :=
  match base32Decode t with
  | .error e => some e
  | .ok _ => none

/-- The first error in R166's order that applies to a command, if any. -/
def firstError (s : State) : Instr → Option Err
  | .enclen => if enclenMax < s.lenOperand then some .invalidLength else none
  | .declen => if s.lenOperand % 8 ≠ 0 then some .invalidLength else none
  | .enc => if s.encTooBig then some .capacityExceeded else none
  | .dec =>
    if s.decTooBig then some .capacityExceeded else decodeError (s.ibufBytes s.lenOperand)

theorem decodeError_error {t : List Byte} {e : Err} (h : base32Decode t = .error e) :
    decodeError t = some e := by
  rw [decodeError, h]

theorem decodeError_ok {t out : List Byte} (h : base32Decode t = .ok out) :
    decodeError t = none := by
  rw [decodeError, h]

/-- The checks of a text in R136's order. -/
theorem decodeError_eq (t : List Byte) : decodeError t =
    if t.length % 8 ≠ 0 then some .invalidLength
    else if paddingBad t then some .invalidPadding
    else if characterBad t then some .invalidCharacter
    else if strictBad t then some .invalidPadding
    else none := by
  unfold decodeError base32Decode
  split_ifs <;> rfl

/-- A text that is not whole blocks is refused for its length, whatever it holds (R130). -/
theorem decodeError_badLength {t : List Byte} (h : t.length % 8 ≠ 0) :
    decodeError t = some .invalidLength := by
  rw [decodeError_eq, if_pos h]

/-- The interface check of DEC comes before every check of the text (R131, R166). -/
theorem firstError_dec_fits {s : State} (h : s.decTooBig = false) :
    firstError s .dec = decodeError (s.ibufBytes s.lenOperand) :=
  if_neg (ne_true_of_eq_false h)

/-- A command that ends with the STATUS of its first error (R166). -/
theorem reports_firstError {i : Instr} {s t : State} {o : Option Err} (ho : firstError s i = o)
    (h : exec i s = .next t) (hp : t.ph = .idle) (hst : t.status = endStatus o) :
    ∃ t, exec i s = .next t ∧ t.ph = .idle ∧ t.status = endStatus (firstError s i) :=
  ⟨t, h, hp, ho ▸ hst⟩

/-- Every command ends, and reports its first error or completes normally (R166, R178). -/
theorem exec_firstError (i : Instr) (s : State) :
    ∃ t, exec i s = .next t ∧ t.ph = .idle ∧ t.status = endStatus (firstError s i) := by
  cases i with
  | enclen =>
    obtain ⟨hlen, h⟩ | ⟨hlen, h⟩ := execEnclen_cases s
    · exact reports_firstError (if_pos hlen) h rfl rfl
    · exact reports_firstError (if_neg hlen.not_gt) h rfl rfl
  | declen =>
    obtain ⟨hlen, h⟩ | ⟨hlen, h⟩ := execDeclen_cases s
    · exact reports_firstError (if_pos hlen) h rfl rfl
    · exact reports_firstError (if_neg (not_not.2 hlen)) h rfl rfl
  | enc =>
    obtain ⟨hbig, h⟩ | ⟨hfit, h⟩ := execEnc_cases s
    · exact reports_firstError (if_pos hbig) h rfl rfl
    · exact reports_firstError (if_neg (ne_true_of_eq_false hfit)) h rfl rfl
  | dec =>
    obtain ⟨hbig, h⟩ | ⟨hfit, hlen, h⟩ | ⟨hfit, -, e, he, h⟩ | ⟨hfit, -, out, hok, h⟩ :=
      execDec_cases s
    · exact reports_firstError (if_pos hbig) h rfl rfl
    · rw [← ibufBytes_length s s.lenOperand] at hlen
      exact reports_firstError ((firstError_dec_fits hfit).trans (decodeError_badLength hlen)) h
        rfl rfl
    · exact reports_firstError ((firstError_dec_fits hfit).trans (decodeError_error he)) h rfl rfl
    · exact reports_firstError ((firstError_dec_fits hfit).trans (decodeError_ok hok)) h rfl rfl

/-- A command ends with a STATUS of a list that holds the one of its first error (R178). -/
theorem exec_status_mem {i : Instr} {s : State} {l : List Word}
    (h : endStatus (firstError s i) ∈ l) :
    ∃ t, exec i s = .next t ∧ t.ph = .idle ∧ t.status ∈ l := by
  obtain ⟨t, ht, hph, hst⟩ := exec_firstError i s
  exact ⟨t, ht, hph, hst ▸ h⟩

/-! ## STATUS of each end, as words -/

@[simp] theorem endStatus_none : endStatus none = 0x00000002#32 := statusDone_eq
@[simp] theorem endStatus_invalidLength : endStatus (some .invalidLength) = 0x00000016#32 :=
  statusError_invalidLength
@[simp] theorem endStatus_invalidCharacter :
    endStatus (some .invalidCharacter) = 0x00000026#32 := statusError_invalidCharacter
@[simp] theorem endStatus_invalidPadding : endStatus (some .invalidPadding) = 0x00000036#32 :=
  statusError_invalidPadding
@[simp] theorem endStatus_capacityExceeded :
    endStatus (some .capacityExceeded) = 0x00000096#32 := statusError_capacityExceeded

/-- STATUS of the four commands, check by check (R101, R102, R111, R130, R131). -/
theorem endStatus_enclen (s : State) : endStatus (firstError s .enclen) =
    if 0x9FFFFFFB < s.ilen.toNat then 0x00000016#32 else 0x00000002#32 := by
  rw [firstError, apply_ite endStatus, endStatus_invalidLength, endStatus_none]
  rfl

theorem endStatus_declen (s : State) : endStatus (firstError s .declen) =
    if s.ilen.toNat % 8 ≠ 0 then 0x00000016#32 else 0x00000002#32 := by
  simp only [firstError, apply_ite endStatus, endStatus_invalidLength, endStatus_none]

theorem endStatus_enc (s : State) : endStatus (firstError s .enc) =
    if s.cfg.capI < s.ilen.toNat ∨ s.cfg.capO < (s.ilen.toNat + 4) / 5 * 8 then 0x00000096#32
    else 0x00000002#32 := by
  simp only [firstError, encTooBig_true, apply_ite endStatus, endStatus_capacityExceeded,
    endStatus_none]

theorem endStatus_dec (s : State) : endStatus (firstError s .dec) =
    if s.cfg.capI < s.ilen.toNat ∨ s.cfg.capO < s.ilen.toNat / 8 * 5 then 0x00000096#32
    else if s.ilen.toNat % 8 ≠ 0 then 0x00000016#32
    else if paddingBad (s.ibufBytes s.ilen.toNat) then 0x00000036#32
    else if characterBad (s.ibufBytes s.ilen.toNat) then 0x00000026#32
    else if strictBad (s.ibufBytes s.ilen.toNat) then 0x00000036#32
    else 0x00000002#32 := by
  simp only [firstError, decTooBig_true, decodeError_eq, ibufBytes_length, apply_ite endStatus,
    endStatus_capacityExceeded, endStatus_invalidLength, endStatus_invalidPadding,
    endStatus_invalidCharacter, endStatus_none]

end Sys2Proof.Machine

open Sys2Proof Sys2Proof.Machine

/-- Settles O31: an illegal word ends in IllegalCommand, and for the word of a command the chain of
all errors is the command's own. -/
theorem firstErrorInOrder : Obligations.FirstErrorInOrder := by
  unfold Obligations.FirstErrorInOrder
  intro s hp hb hr hw
  cases hd : decode s.cmdr with
  | error r =>
    obtain ⟨h1, h2, h3, h4⟩ := ne_encode_iff.1 (decode_error_iff.1 ⟨r, hd⟩)
    have hstep : step s = .next (s.popEdge.raise .illegalCommand) := by
      rw [step_dispatch hb hp hr, hw]
      exact sequencer_illegal (s := s.popEdge) hp hd (by decide)
    refine ⟨_, hstep, rfl, ?_⟩
    rw [if_pos (by simp [h1, h2, h3, h4]), raise_status, statusError_illegalCommand]
  | ok i =>
    obtain ⟨t, ht, hph, hst⟩ := exec_firstError i s.popEdge
    have hst' : t.status = endStatus (firstError s i) := hst
    refine ⟨t, (step_whole hb hp hd hr hw).trans ht, hph, ?_⟩
    rw [hst', decode_eq_ok_iff.1 hd]
    cases i with
    | enclen => simp [endStatus_enclen]
    | declen => simp [endStatus_declen]
    | enc => simp [endStatus_enc]
    | dec => simp [endStatus_dec]

/-- Settles O47: each value STATUS takes after a command is in the command's list. -/
theorem outcomesAreClosed : Obligations.OutcomesAreClosed := by
  unfold Obligations.OutcomesAreClosed
  refine fun s => ⟨exec_status_mem ?_, exec_status_mem ?_, exec_status_mem ?_, exec_status_mem ?_⟩
  · rw [endStatus_enclen]
    split_ifs <;> decide
  · rw [endStatus_declen]
    split_ifs <;> decide
  · rw [endStatus_enc]
    split_ifs <;> decide
  · rw [endStatus_dec]
    split_ifs <;> decide

/-- Settles O45: `State.complete`, with STATUS as a word. -/
theorem normalCompletion : Obligations.NormalCompletion := by
  unfold Obligations.NormalCompletion
  intro s len
  rw [← statusDone_eq]
  rfl

/-- Settles O46: `State.raise`, with STATUS of each error as a word. -/
theorem errorCompletion : Obligations.ErrorCompletion := by
  unfold Obligations.ErrorCompletion
  intro s e
  rw [State.raise]
  cases e with
  | invalidLength => rw [statusError_invalidLength]
  | invalidCharacter => rw [statusError_invalidCharacter]
  | invalidPadding => rw [statusError_invalidPadding]
  | illegalCommand => rw [statusError_illegalCommand]
  | capacityExceeded => rw [statusError_capacityExceeded]
end

section
/-! PROOFS. A command in progress at one edge (spec/70_reset_and_hazards.md R186, R190): the host's
access is lost, and some commands end at their DISPATCH step. -/

namespace Sys2Proof.Machine

/-! ## The run of one micro-step from DISPATCH -/

/-- Over edges with one micro-step a command at DISPATCH takes its DISPATCH step, whatever the host
presents and however long the sequencer stalls (R73, R192). -/
theorem run_dispatch {s : State} {es : List Edge} (rest : List Edge) (hp : s.ph = .dispatch)
    (hb : s.busy = true) (hes : busyEdges 1 es) :
    Host.Core.run core es.length { s with edges := es ++ rest } =
      dispatchWith microDispatch { s with edges := rest } := by
  obtain ⟨t, ht, -⟩ := microStep_progress (runOk_of_dispatch hp)
  have hstep : dispatchWith microDispatch { s with edges := rest } = .next { t with edges := rest } :=
    (microStep_dispatch (s := { s with edges := rest }) hp).symm.trans (microStep_edges ht rest)
  rw [hstep]
  exact run_busyEdges rest hes hb (busyRun_next 0 hp ht)

/-! ## The commands that end there -/

/-- A capacity refusal of ENC is the same at both levels (R111, R116). -/
theorem encDispatch_eq_execEnc {s : State} (h : s.encTooBig = true) : encDispatch s = execEnc s :=
  (encDispatch_tooBig h).trans (execEnc_tooBig h).symm

/-- A capacity refusal and a length error of DEC are the same at both levels, checked in the same order
(R131, R141). -/
theorem decDispatch_eq_execDec {s : State} (h : s.decTooBig = true ∨ s.lenOperand % 8 ≠ 0) :
    decDispatch s = execDec s := by
  cases hfit : s.decTooBig with
  | true => exact (decDispatch_tooBig hfit).trans (execDec_tooBig hfit).symm
  | false =>
    have hm : s.lenOperand % 8 ≠ 0 := h.resolve_left (ne_true_of_eq_false hfit)
    exact (decDispatch_badLength hfit hm).trans (execDec_badLength hfit hm).symm

end Sys2Proof.Machine

open Sys2Proof Sys2Proof.Machine

/-- Settles O48: the run is the DISPATCH step, which is the whole of a size command and of a refused
command, and of an illegal word its error completion. -/
theorem oneMicroStepCommands : Obligations.OneMicroStepCommands := by
  unfold Obligations.OneMicroStepCommands
  intro s es rest hp hb hes
  rw [run_dispatch rest hp hb hes]
  refine ⟨fun i hd hi => ?_, fun r hd => ?_⟩
  · rw [dispatchWith_ok (s := { s with edges := rest }) hd]
    obtain rfl | rfl | ⟨rfl, hbig⟩ | ⟨rfl, hbad⟩ := hi
    · rfl
    · rfl
    · exact encDispatch_eq_execEnc (encTooBig_true.2 hbig)
    · exact decDispatch_eq_execDec ((or_assoc.2 hbad).imp_left decTooBig_true.2)
  · rw [dispatchWith_error (s := { s with edges := rest }) hd, ← statusError_illegalCommand]
    rfl

/-- Settles O14: either edge is the sequencer's step alone, at the same pace. -/
theorem accessesWhileBusyMakeNoDifference : Obligations.AccessesWhileBusyMakeNoDifference := by
  unfold Obligations.AccessesWhileBusyMakeNoDifference
  intro s e e' rest hb hp hr hr' hpace
  rw [step_cons, step_cons, clockEdge_busy (s := { s with edges := rest }) hb hp hr,
    clockEdge_busy (s := { s with edges := rest }) hb hp hr', hpace]
end
